-- ==== Sys2Proof/Word.lean ====
section
/-! DEFINITION. The widths of the machine: 32-bit words and binary32 encodings (00_scope.md R14, R17), and the
numbers of batches and lanes (R10). -/

namespace Sys2Proof

/-- A u32 or i32: the same 32 bits (00_scope.md R14). -/
abbrev Word := BitVec 32

/-- An IEEE 754 binary32 number, held as its 32-bit encoding (00_scope.md R17). -/
abbrev F32 := BitVec 32

/-- A batch number b, 0..3 (00_scope.md R10, R24). -/
abbrev Batch := Fin 4

/-- A lane number l, 0..3, within a batch (00_scope.md R10, R24). -/
abbrev Lane := Fin 4

/-- A lane mask M: bit l selects lane l (30_encoding.md R143). -/
abbrev LaneMask := BitVec 4

end Sys2Proof
end

