-- ==== Sys2Proof/Syntax.lean ====
section
/-! DEFINITION. The commands of the core and their operand fields (30_encoding.md), and the error codes a command
can end with (60_exceptions.md R480). One constructor of `Instr` per row of the opcode map R157. -/

namespace Sys2Proof

/-- The result codes of STATUS.ERR other than OK (60_exceptions.md R480). -/
inductive ErrorCode where
  /-- OP is not in the opcode map (R159). -/
  | illegalOp
  /-- A reserved-zero bit of the command word is set (R144). -/
  | reservedBits
  /-- A field has an illegal value (R160). -/
  | badField
  /-- DEC_PROC with LOG2N different from OSR_LOG2 (R154). -/
  | osrMismatch
  /-- An operand or configuration value is illegal (R161). -/
  | badValue
  /-- A host access that is not legal (R484). -/
  | badAccess
  deriving DecidableEq, Repr

/-- The parameter ids of 10_state.md R55. -/
inductive ParamId where
  | freq1 | freq2 | shape | pw | vol1 | vol2 | volsub | volring | fmamt | sync
  | cutoff | reso | topo | tap | saten
  deriving DecidableEq, Repr

/-- The global ids of 10_state.md R50. -/
inductive GlobalId where
  | osrLog2 | fs | fmin | fmax | id
  deriving DecidableEq, Repr

/-- The two decimator instances of a lane (10_state.md R74). -/
inductive DecInst where
  | osc | flt
  deriving DecidableEq, Repr

/-- DSEL of format D, which also has a value for both instances (30_encoding.md R152). -/
inductive DecSel where
  | osc | flt | both
  deriving DecidableEq, Repr

/-- ASEL: one accumulator of the lane (30_encoding.md R150). -/
inductive AccSel where
  | p1 | p2 | ps
  deriving DecidableEq, Repr

/-- KIND: a step or a slope correction (30_encoding.md R151). -/
inductive BlepKind where
  | blep | blamp
  deriving DecidableEq, Repr

/-- VAR: the oscillator variant (30_encoding.md R155). -/
inductive OscVariant where
  | plain | corr
  deriving DecidableEq, Repr

/-- METH: the integration method (30_encoding.md R155, 46_ode_filter.md R439). -/
inductive OdeMethod where
  | euler | rk2 | rk4
  deriving DecidableEq, Repr

/-- The state ids of 10_state.md R77; `ring` is BUF_j, `index` is W_j, `input` is IN. -/
inductive StateId where
  | p1 | p2 | ps | c0 | c1 | dly | rdly | x | prev | xp
  | input (inst : DecInst)
  | ring (inst : DecInst) (j : Fin 10)
  | index (inst : DecInst) (j : Fin 10)
  deriving DecidableEq, Repr

/-- The commands of 30_encoding.md R157: batch `b`, lane mask `m`, and the fields of the command's format. -/
inductive Instr where
  | nop
  | rstAll
  | rstOsc (b : Batch) (m : LaneMask)
  | rstDec (b : Batch) (m : LaneMask) (dsel : DecSel)
  | rstFlt (b : Batch) (m : LaneMask)
  | rstSat (b : Batch) (m : LaneMask)
  | wrParam (b : Batch) (m : LaneMask) (pid : ParamId)
  | rdParam (b : Batch) (m : LaneMask) (pid : ParamId)
  | wrGlobal (gid : GlobalId)
  | rdGlobal (gid : GlobalId)
  | rdState (b : Batch) (m : LaneMask) (sid : StateId) (idx : BitVec 12)
  | paAdd (b : Batch) (m : LaneMask) (asel : AccSel)
  | paLoad (b : Batch) (m : LaneMask) (asel : AccSel)
  | blepIns (b : Batch) (m : LaneMask) (kind : BlepKind)
  | blepProc (b : Batch) (m : LaneMask)
  | sat (b : Batch) (m : LaneMask)
  | decWr (b : Batch) (m : LaneMask) (inst : DecInst) (idx : BitVec 10)
  | decProc (b : Batch) (m : LaneMask) (inst : DecInst) (log2n : BitVec 4)
  | oscTick (b : Batch) (m : LaneMask) (var : OscVariant)
  | fltTick (b : Batch) (m : LaneMask) (meth : OdeMethod)
  deriving DecidableEq, Repr

end Sys2Proof
end

