-- ==== Sys2Proof/WellFormed.lean ====
section
/-! DEFINITION. Which field values of a command are legal whatever the configuration (30_encoding.md R160). The
illegal values that have no constructor (an unlisted PID, GID or SID; ASEL, DSEL or METH = 3; DSEL = 2 in formats W
and X) cannot be written in `Instr` at all. What is left to check is here. -/

namespace Sys2Proof

/-- How many elements a state item can have under any well-formed configuration (10_state.md R77). A ring has at most
128 slots, since every order is at most 22 (00_scope.md R11, 42_decimator.md R282); the number of slots of one
configuration's ring is checked when RD_STATE runs (entry 10). -/
def StateId.maxSize : StateId → Nat
  | .x => 4
  | .input _ => 1024
  | .ring _ _ => 128
  | _ => 1

/-- The field checks of R160: ID cannot be written, LOG2N is at most 10, and IDX is in its item's range. -/
def Instr.wellFormed : Instr → Bool
  | .wrGlobal gid => gid ≠ .id
  | .rdState _ _ sid idx => idx.toNat < sid.maxSize
  | .decProc _ _ _ log2n => log2n.toNat ≤ 10
  | .nop => true
  | .rstAll => true
  | .rstOsc _ _ => true
  | .rstDec _ _ _ => true
  | .rstFlt _ _ => true
  | .rstSat _ _ => true
  | .wrParam _ _ _ => true
  | .rdParam _ _ _ => true
  | .rdGlobal _ => true
  | .paAdd _ _ _ => true
  | .paLoad _ _ _ => true
  | .blepIns _ _ _ => true
  | .blepProc _ _ => true
  | .sat _ _ => true
  | .decWr _ _ _ _ => true
  | .oscTick _ _ _ => true
  | .fltTick _ _ _ => true

/-- A command every field of which has a legal value. -/
abbrev Instr.WellFormed (i : Instr) : Prop := i.wellFormed = true

end Sys2Proof
end

