-- ==== Sys2Proof/Decode.lean ====
section
/-! DEFINITION. Decoding a command word and encoding a command (30_encoding.md R140 to R162). Every code table stands
once, as a function from the name to its code, and is read backwards by searching the list of all names. -/

namespace Sys2Proof

/-! ## Codes of the fields -/

/-- STATUS.ERR codes (60_exceptions.md R480). -/
def ErrorCode.code : ErrorCode → BitVec 4
  | .illegalOp => 1
  | .reservedBits => 2
  | .badField => 3
  | .osrMismatch => 4
  | .badValue => 5
  | .badAccess => 6

/-- PID values (10_state.md R55). -/
def ParamId.code : ParamId → BitVec 8
  | .freq1 => 0x00 | .freq2 => 0x01 | .shape => 0x02 | .pw => 0x03 | .vol1 => 0x04 | .vol2 => 0x05
  | .volsub => 0x06 | .volring => 0x07 | .fmamt => 0x08 | .sync => 0x09
  | .cutoff => 0x10 | .reso => 0x11 | .topo => 0x12 | .tap => 0x13 | .saten => 0x14

def ParamId.all : List ParamId :=
  [.freq1, .freq2, .shape, .pw, .vol1, .vol2, .volsub, .volring, .fmamt, .sync, .cutoff, .reso, .topo, .tap, .saten]

def ParamId.ofCode (c : BitVec 8) : Option ParamId := ParamId.all.find? (fun p => p.code == c)

/-- GID values (10_state.md R50). -/
def GlobalId.code : GlobalId → BitVec 8
  | .osrLog2 => 0x00 | .fs => 0x01 | .fmin => 0x02 | .fmax => 0x03 | .id => 0x08

def GlobalId.all : List GlobalId := [.osrLog2, .fs, .fmin, .fmax, .id]

def GlobalId.ofCode (c : BitVec 8) : Option GlobalId := GlobalId.all.find? (fun g => g.code == c)

/-- SID values (10_state.md R77). -/
def StateId.code : StateId → BitVec 8
  | .p1 => 0x00 | .p2 => 0x01 | .ps => 0x02 | .c0 => 0x03 | .c1 => 0x04 | .dly => 0x05 | .rdly => 0x06
  | .x => 0x07 | .prev => 0x08 | .xp => 0x09
  | .input .osc => 0x10 | .input .flt => 0x11
  | .ring .osc j => BitVec.ofNat 8 (0x40 + j.val)
  | .ring .flt j => BitVec.ofNat 8 (0x50 + j.val)
  | .index .osc j => BitVec.ofNat 8 (0x60 + j.val)
  | .index .flt j => BitVec.ofNat 8 (0x70 + j.val)

/-- The stage numbers 0..9. -/
def stageNumbers : List (Fin 10) := [0, 1, 2, 3, 4, 5, 6, 7, 8, 9]

def StateId.all : List StateId :=
  [.p1, .p2, .ps, .c0, .c1, .dly, .rdly, .x, .prev, .xp, .input .osc, .input .flt]
    ++ stageNumbers.map (StateId.ring .osc) ++ stageNumbers.map (StateId.ring .flt)
    ++ stageNumbers.map (StateId.index .osc) ++ stageNumbers.map (StateId.index .flt)

def StateId.ofCode (c : BitVec 8) : Option StateId := StateId.all.find? (fun item => item.code == c)

/-- ASEL values (30_encoding.md R150). -/
def AccSel.code : AccSel → BitVec 2
  | .p1 => 0 | .p2 => 1 | .ps => 2

def AccSel.ofCode (c : BitVec 2) : Option AccSel := [AccSel.p1, .p2, .ps].find? (fun a => a.code == c)

/-- DSEL values of format D (30_encoding.md R152). -/
def DecSel.code : DecSel → BitVec 2
  | .osc => 0 | .flt => 1 | .both => 2

def DecSel.ofCode (c : BitVec 2) : Option DecSel := [DecSel.osc, .flt, .both].find? (fun d => d.code == c)

/-- DSEL values of formats W and X (30_encoding.md R153, R154). -/
def DecInst.code : DecInst → BitVec 2
  | .osc => 0 | .flt => 1

def DecInst.ofCode (c : BitVec 2) : Option DecInst := [DecInst.osc, .flt].find? (fun d => d.code == c)

/-- KIND values (30_encoding.md R151). -/
def BlepKind.code : BlepKind → BitVec 1
  | .blep => 0 | .blamp => 1

def BlepKind.ofCode (c : BitVec 1) : Option BlepKind := [BlepKind.blep, .blamp].find? (fun k => k.code == c)

/-- VAR values (30_encoding.md R155). -/
def OscVariant.code : OscVariant → BitVec 1
  | .plain => 0 | .corr => 1

def OscVariant.ofCode (c : BitVec 1) : Option OscVariant := [OscVariant.plain, .corr].find? (fun v => v.code == c)

/-- METH values (30_encoding.md R155). -/
def OdeMethod.code : OdeMethod → BitVec 2
  | .euler => 0 | .rk2 => 1 | .rk4 => 2

def OdeMethod.ofCode (c : BitVec 2) : Option OdeMethod := [OdeMethod.euler, .rk2, .rk4].find? (fun k => k.code == c)

/-! ## Formats and the opcode map -/

/-- The twelve formats of R144. -/
inductive Format where
  | n | l | p | g | s | a | k | d | w | x | t1 | t2
  deriving DecidableEq, Repr

/-- RESV_MASK: the reserved-zero bits of a format (R144). -/
def Format.resvMask : Format → Word
  | .n => 0x03FFFFFF
  | .l => 0x000FFFFF
  | .p => 0x000FFF00
  | .g => 0x03FFFF00
  | .s => 0x00000000
  | .a => 0x0003FFFF
  | .k => 0x000FFFFE
  | .d => 0x0003FFFF
  | .w => 0x0003FC00
  | .x => 0x0003FFF0
  | .t1 => 0x000FFFFE
  | .t2 => 0x000FFFFC

/-- The names of the opcode map (R157). -/
inductive Opcode where
  | nop | rstAll | rstOsc | rstDec | rstFlt | rstSat | wrParam | rdParam | wrGlobal | rdGlobal | rdState
  | paAdd | paLoad | blepIns | blepProc | sat | decWr | decProc | oscTick | fltTick
  deriving DecidableEq, Repr

/-- OP values (R157). -/
def Opcode.code : Opcode → BitVec 6
  | .nop => 0x00 | .rstAll => 0x01 | .rstOsc => 0x02 | .rstDec => 0x03 | .rstFlt => 0x04 | .rstSat => 0x05
  | .wrParam => 0x08 | .rdParam => 0x09 | .wrGlobal => 0x0A | .rdGlobal => 0x0B | .rdState => 0x0C
  | .paAdd => 0x10 | .paLoad => 0x11 | .blepIns => 0x14 | .blepProc => 0x15 | .sat => 0x18
  | .decWr => 0x1C | .decProc => 0x1D | .oscTick => 0x20 | .fltTick => 0x24

/-- The format of each command (R157). -/
def Opcode.format : Opcode → Format
  | .nop => .n | .rstAll => .n
  | .rstOsc => .l | .rstFlt => .l | .rstSat => .l | .blepProc => .l | .sat => .l
  | .rstDec => .d
  | .wrParam => .p | .rdParam => .p
  | .wrGlobal => .g | .rdGlobal => .g
  | .rdState => .s
  | .paAdd => .a | .paLoad => .a
  | .blepIns => .k
  | .decWr => .w
  | .decProc => .x
  | .oscTick => .t1
  | .fltTick => .t2

def Opcode.all : List Opcode :=
  [.nop, .rstAll, .rstOsc, .rstDec, .rstFlt, .rstSat, .wrParam, .rdParam, .wrGlobal, .rdGlobal, .rdState,
   .paAdd, .paLoad, .blepIns, .blepProc, .sat, .decWr, .decProc, .oscTick, .fltTick]

def Opcode.ofCode (c : BitVec 6) : Option Opcode := Opcode.all.find? (fun o => o.code == c)

/-- `match` of R158: the command word with all fields zero, `base` of R157. -/
def Opcode.matchWord (o : Opcode) : Word := o.code ++ 0#26

/-- `mask` of R158: the OP bits and the reserved bits. -/
def Opcode.maskWord (o : Opcode) : Word := 0xFC000000 ||| o.format.resvMask

/-- The row of the opcode map a command belongs to (R157). -/
def Instr.opcode : Instr → Opcode
  | .nop => .nop
  | .rstAll => .rstAll
  | .rstOsc _ _ => .rstOsc
  | .rstDec _ _ _ => .rstDec
  | .rstFlt _ _ => .rstFlt
  | .rstSat _ _ => .rstSat
  | .wrParam _ _ _ => .wrParam
  | .rdParam _ _ _ => .rdParam
  | .wrGlobal _ => .wrGlobal
  | .rdGlobal _ => .rdGlobal
  | .rdState _ _ _ _ => .rdState
  | .paAdd _ _ _ => .paAdd
  | .paLoad _ _ _ => .paLoad
  | .blepIns _ _ _ => .blepIns
  | .blepProc _ _ => .blepProc
  | .sat _ _ => .sat
  | .decWr _ _ _ _ => .decWr
  | .decProc _ _ _ _ => .decProc
  | .oscTick _ _ _ => .oscTick
  | .fltTick _ _ _ => .fltTick

/-! ## Decoding -/

/-- What decoding a command word gives: a command, or the error code of the first check that fails. -/
inductive Decoded where
  | command (i : Instr)
  | rejected (e : ErrorCode)
  deriving DecidableEq, Repr

def opField (w : Word) : BitVec 6 := w.extractLsb' 26 6
def batchField (w : Word) : Batch := (w.extractLsb' 24 2).toFin
def maskField (w : Word) : LaneMask := w.extractLsb' 20 4
/-- Bits 19:18, ASEL or DSEL. -/
def selField (w : Word) : BitVec 2 := w.extractLsb' 18 2
/-- Bits 7:0, PID or GID. -/
def idField (w : Word) : BitVec 8 := w.extractLsb' 0 8
def sidField (w : Word) : BitVec 8 := w.extractLsb' 12 8
def stateIdxField (w : Word) : BitVec 12 := w.extractLsb' 0 12
def inputIdxField (w : Word) : BitVec 10 := w.extractLsb' 0 10
def log2nField (w : Word) : BitVec 4 := w.extractLsb' 0 4
/-- Bit 0, KIND or VAR. -/
def bitField (w : Word) : BitVec 1 := w.extractLsb' 0 1
def methField (w : Word) : BitVec 2 := w.extractLsb' 0 2

/-- The command an opcode and the fields of its format name; `none` where a field's code stands for nothing
(R145 to R155, R160). -/
def decodeFields (w : Word) : Opcode → Option Instr
  | .nop => some .nop
  | .rstAll => some .rstAll
  | .rstOsc => some (.rstOsc (batchField w) (maskField w))
  | .rstDec => (DecSel.ofCode (selField w)).map (.rstDec (batchField w) (maskField w))
  | .rstFlt => some (.rstFlt (batchField w) (maskField w))
  | .rstSat => some (.rstSat (batchField w) (maskField w))
  | .wrParam => (ParamId.ofCode (idField w)).map (.wrParam (batchField w) (maskField w))
  | .rdParam => (ParamId.ofCode (idField w)).map (.rdParam (batchField w) (maskField w))
  | .wrGlobal => (GlobalId.ofCode (idField w)).map .wrGlobal
  | .rdGlobal => (GlobalId.ofCode (idField w)).map .rdGlobal
  | .rdState => (StateId.ofCode (sidField w)).map
      (fun sid => .rdState (batchField w) (maskField w) sid (stateIdxField w))
  | .paAdd => (AccSel.ofCode (selField w)).map (.paAdd (batchField w) (maskField w))
  | .paLoad => (AccSel.ofCode (selField w)).map (.paLoad (batchField w) (maskField w))
  | .blepIns => (BlepKind.ofCode (bitField w)).map (.blepIns (batchField w) (maskField w))
  | .blepProc => some (.blepProc (batchField w) (maskField w))
  | .sat => some (.sat (batchField w) (maskField w))
  | .decWr => (DecInst.ofCode (selField w)).map
      (fun d => .decWr (batchField w) (maskField w) d (inputIdxField w))
  | .decProc => (DecInst.ofCode (selField w)).map
      (fun d => .decProc (batchField w) (maskField w) d (log2nField w))
  | .oscTick => (OscVariant.ofCode (bitField w)).map (.oscTick (batchField w) (maskField w))
  | .fltTick => (OdeMethod.ofCode (methField w)).map (.fltTick (batchField w) (maskField w))

/-- The checks of R140 that need only the word, in their order: OP, reserved bits, fields. -/
def decode (w : Word) : Decoded :=
  match Opcode.ofCode (opField w) with
  | none => .rejected .illegalOp
  | some op =>
    if w &&& op.format.resvMask ≠ 0 then .rejected .reservedBits
    else
      match decodeFields w op with
      | none => .rejected .badField
      | some i => if i.wellFormed then .command i else .rejected .badField

/-- The host's question: the command the decoder reads from a table row's word. A command word is 32 bits, and every
bit above `nbits` is 0 (30_encoding.md R140). -/
def decodeTableWord (nbits w : Nat) : Option Instr :=
  match decode (BitVec.ofNat 32 (w % 2 ^ nbits)) with
  | .command i => some i
  | .rejected _ => none

/-! ## Encoding -/

/-- A command word of the common layout of R141. -/
def commandWord (op : Opcode) (b : Batch) (m : LaneMask) (low : BitVec 20) : Word :=
  op.code ++ BitVec.ofFin (w := 2) b ++ m ++ low

/-- The word of a command (30_encoding.md R171); the reserved fields are zero. -/
def encode : Instr → Word
  | .nop => commandWord .nop 0 0 0
  | .rstAll => commandWord .rstAll 0 0 0
  | .rstOsc b m => commandWord .rstOsc b m 0
  | .rstDec b m d => commandWord .rstDec b m (d.code ++ 0#18)
  | .rstFlt b m => commandWord .rstFlt b m 0
  | .rstSat b m => commandWord .rstSat b m 0
  | .wrParam b m pid => commandWord .wrParam b m (0#12 ++ pid.code)
  | .rdParam b m pid => commandWord .rdParam b m (0#12 ++ pid.code)
  | .wrGlobal gid => commandWord .wrGlobal 0 0 (0#12 ++ gid.code)
  | .rdGlobal gid => commandWord .rdGlobal 0 0 (0#12 ++ gid.code)
  | .rdState b m sid idx => commandWord .rdState b m (sid.code ++ idx)
  | .paAdd b m a => commandWord .paAdd b m (a.code ++ 0#18)
  | .paLoad b m a => commandWord .paLoad b m (a.code ++ 0#18)
  | .blepIns b m k => commandWord .blepIns b m (0#19 ++ k.code)
  | .blepProc b m => commandWord .blepProc b m 0
  | .sat b m => commandWord .sat b m 0
  | .decWr b m d idx => commandWord .decWr b m (d.code ++ 0#8 ++ idx)
  | .decProc b m d n => commandWord .decProc b m (d.code ++ 0#14 ++ n)
  | .oscTick b m v => commandWord .oscTick b m (0#19 ++ v.code)
  | .fltTick b m k => commandWord .fltTick b m (0#18 ++ k.code)

end Sys2Proof
end

