-- ==== Sys2Proof/Config.lean ====
section
/-! DEFINITION. What an implementation fixes and the spec leaves OPEN (00_scope.md R11, 20_memory.md R100,
92_eei_decisions.md D49 to D51): the shape of a decimator configuration, and one uninterpreted constant for each open
parameter. No constant here has a value that Lean can see. -/

namespace Sys2Proof

/-- The decimator parameters a core is built with (00_scope.md R11, 10_state.md R76). `orders` lists HB_ORDER[1..9];
HB_ORDER[0] is 22 always (R10) and is not listed. `coefs` lists HB_COEF[0..9], each from k = 0, the innermost. -/
structure Configuration where
  orders : List Nat
  coefs : List (List F32)
  deriving DecidableEq, Repr

/-- HB_ORDER[j], j = 1..9, as asked for by whoever builds the core (92 D50). -/
opaque Config.hbOrder : Nat → Nat

/-- HB_COEF[j][k] as asked for by whoever builds the core (92 D51). -/
opaque Config.hbCoef : Nat → Nat → F32

/-- MUSX_BASE, the host address of offset 0x000 of the register window (92 D49). No rule reads it. -/
opaque Config.musxBase : Nat

end Sys2Proof
end

