-- ==== Sys2Proof/Machine/Float.lean ====
section
/-! DEFINITION. Binary32 arithmetic (00_scope.md R17 to R22), computed exactly in integers and rounded once. R18 and R19
name the IEEE 754 operations without writing them out; the corners taken from IEEE 754 itself (signed zeros,
infinities, invalid operations) are PRESUMED, entry 11. -/

namespace Sys2Proof.Machine

/-! ## The value of an encoding -/

/-- The canonical NaN (R19). -/
def fNaN : F32 := 0x7FC00000#32

def fSign (v : F32) : Bool := v.msb

/-- Bits 30:0 as a number: the exponent and fraction of |v|, which order the magnitudes. -/
def fMag (v : F32) : Nat := v.toNat % 2 ^ 31

def isNaN (v : F32) : Bool := 0x7F800000 < fMag v

def isInf (v : F32) : Bool := fMag v == 0x7F800000

def isFinite (v : F32) : Bool := fMag v < 0x7F800000

/-- The exponent field, bits 30:23 (R17). -/
def fExpField (v : F32) : Nat := fMag v / 2 ^ 23

/-- The integer significand of a finite number: with the leading 1 unless subnormal. -/
def fMant (v : F32) : Nat :=
  if fExpField v = 0 then fMag v % 2 ^ 23 else 2 ^ 23 + fMag v % 2 ^ 23

/-- The exponent of the significand's unit: a finite v is (−1)^sign · fMant v · 2^fExp v. -/
def fExp (v : F32) : Int :=
  if fExpField v = 0 then -149 else (fExpField v : Int) - 150

/-- A finite number as an exact multiple of 2^−149, the least subnormal. -/
def fScaled (v : F32) : Int :=
  let n : Int := (fMant v <<< (fExp v + 149).toNat : Nat)
  if fSign v then -n else n

def signed (neg : Bool) (mag : Nat) : F32 := BitVec.ofNat 32 (if neg then 2 ^ 31 + mag else mag)

def fZero (neg : Bool) : F32 := signed neg 0
def fInf (neg : Bool) : F32 := signed neg 0x7F800000

/-! ## Rounding to nearest, ties to even (R18) -/

/-- m / 2^k rounded to the nearest integer, ties to even. -/
def roundShift (m k : Nat) : Nat :=
  let q := m >>> k
  let r := m % 2 ^ k
  if 2 ^ k < 2 * r ∨ (2 * r = 2 ^ k ∧ q % 2 = 1) then q + 1 else q

/-- The exponent of the unit that a result of size m · 2^e is rounded to: 24 significant bits, but no finer than the
least subnormal. -/
def roundUnit (m : Nat) (e : Int) : Int := max (e + (Nat.log2 m : Int) - 23) (-149)

/-- (−1)^neg · m · 2^e rounded to binary32. A result past the largest finite number is an infinity. The encoding of a
rounded significand r in units of 2^q is (q + 149)·2^23 + r: a carry of r into its 25th bit moves on to the next
exponent by itself. -/
def fRound (neg : Bool) (m : Nat) (e : Int) : F32 :=
  if m = 0 then fZero neg
  else
    let q := roundUnit m e
    let r := if q ≤ e then m <<< (e - q).toNat else roundShift m (q - e).toNat
    signed neg (min ((q + 149).toNat * 2 ^ 23 + r) 0x7F800000)

/-- An exact integer multiple of 2^e, rounded; an exact zero gets the sign given. -/
def fRoundInt (zeroNeg : Bool) (z : Int) (e : Int) : F32 :=
  if z = 0 then fZero zeroNeg else fRound (z < 0) z.natAbs e

/-- (−1)^neg · (n / d) · 2^e rounded, for d > 0. The quotient is taken to at least 26 bits and a last bit records
whether anything is left, so that rounding it is rounding the exact quotient. -/
def fRoundRatio (neg : Bool) (n d : Nat) (e : Int) : F32 :=
  let t := 26 + Nat.log2 d
  let q := (n <<< t) / d
  let sticky := if (n <<< t) % d = 0 then 0 else 1
  fRound neg (2 * q + sticky) (e - t - 1)

/-! ## Operations (R18, R19) -/

/-- Flip the sign bit, exactly. -/
def fneg (v : F32) : F32 := v ^^^ 0x80000000#32

/-- Clear the sign bit, exactly. -/
def fabs (v : F32) : F32 := v &&& 0x7FFFFFFF#32

/-- ±1.0 with the sign of v. -/
def copysignOne (v : F32) : F32 := if fSign v then 0xBF800000#32 else 0x3F800000#32

def fadd (a b : F32) : F32 :=
  if isNaN a || isNaN b then fNaN
  else if isInf a then (if isInf b && fSign a != fSign b then fNaN else a)
  else if isInf b then b
  else fRoundInt (fSign a && fSign b) (fScaled a + fScaled b) (-149)

def fsub (a b : F32) : F32 := fadd a (fneg b)

def fmul (a b : F32) : F32 :=
  let neg := fSign a != fSign b
  if isNaN a || isNaN b then fNaN
  else if isInf a || isInf b then (if fMag a = 0 || fMag b = 0 then fNaN else fInf neg)
  else fRound neg (fMant a * fMant b) (fExp a + fExp b)

def fdiv (a b : F32) : F32 :=
  let neg := fSign a != fSign b
  if isNaN a || isNaN b then fNaN
  else if isInf a then (if isInf b then fNaN else fInf neg)
  else if isInf b then fZero neg
  else if fMag b = 0 then (if fMag a = 0 then fNaN else fInf neg)
  else fRoundRatio neg (fMant a) (fMant b) (fExp a - fExp b)

/-- The integer square root of n below 2^k, found bit by bit from bit k − 1 down; r holds the bits found. -/
def isqrtFrom : Nat → Nat → Nat → Nat
  | 0, _, r => r
  | k + 1, n, r => isqrtFrom k n (if (r + 2 ^ k) * (r + 2 ^ k) ≤ n then r + 2 ^ k else r)

/-- sqrt32: the significand is scaled to 55 or 56 bits with an even exponent, so that the root has 28 bits, and a last
bit records whether anything is left. -/
def fsqrt (v : F32) : F32 :=
  if isNaN v then fNaN
  else if fMag v = 0 then v
  else if fSign v then fNaN
  else if isInf v then v
  else
    let t0 := 54 - Nat.log2 (fMant v)
    let t := if (fExp v - t0) % 2 = 0 then t0 else t0 + 1
    let n := fMant v <<< t
    let r := isqrtFrom 28 n 0
    let sticky := if r * r = n then 0 else 1
    fRound false (2 * r + sticky) ((fExp v - t) / 2 - 1)

/-! ## Comparisons (R19): any comparison with a NaN is false -/

/-- The order of the non-NaN numbers; both zeros are 0. -/
def fKey (v : F32) : Int := if fSign v then -(fMag v : Int) else fMag v

def fless (a b : F32) : Bool := !isNaN a && !isNaN b && fKey a < fKey b
def fgreater (a b : F32) : Bool := fless b a
def fgeq (a b : F32) : Bool := !isNaN a && !isNaN b && fKey b ≤ fKey a

/-! ## Conversions (R22) -/

/-- i2f: an integer to the nearest binary32, ties to even. -/
def i2f (n : Int) : F32 := fRoundInt false n 0

/-- A finite number rounded to the nearest integer, ties to even. -/
def nearestInt (v : F32) : Int :=
  let n : Int := if 0 ≤ fExp v then (fMant v <<< (fExp v).toNat : Nat) else (roundShift (fMant v) (-fExp v).toNat : Nat)
  if fSign v then -n else n

/-- f2u_sat: a NaN gives lo, an infinity the bound of its sign, and anything else its nearest integer clamped into
[lo, hi]. -/
def f2uSat (v : F32) (lo hi : Int) : Int :=
  if isNaN v then lo
  else if isInf v then (if fSign v then lo else hi)
  else if nearestInt v < lo then lo
  else if hi < nearestInt v then hi
  else nearestInt v

/-! ## Clamps (R20, R21) -/

def fclamp (v lo hi : F32) : F32 :=
  let v := if isNaN v then 0x00000000#32 else v
  if fless v lo then lo else if fgreater v hi then hi else v

/-- SIG_MAX = 65536.0 (R12). -/
def sigMax : F32 := 0x47800000#32

def sanitize (v : F32) : F32 := fclamp v (fneg sigMax) sigMax

/-! ## Constants -/

/-- 2^k. -/
def fPow2 (k : Int) : F32 := fRound false 1 k

def fOne : F32 := 0x3F800000#32
def fHalf : F32 := 0x3F000000#32
def fTwo : F32 := 0x40000000#32
def fMinusOne : F32 := 0xBF800000#32
def fMinusTwo : F32 := 0xC0000000#32
def fFour : F32 := 0x40800000#32
def fSix : F32 := 0x40C00000#32
def fPlusZero : F32 := 0x00000000#32
/-- 2^24 = 16777216.0. -/
def fTwo24 : F32 := 0x4B800000#32
/-- TWO_PI (R12). -/
def fTwoPi : F32 := 0x40C90FDB#32
/-- ADAA_EPS = 2^−10 (R12). -/
def fAdaaEps : F32 := 0x3A800000#32
/-- K_MAX = 4.0 (R12). -/
def fKMax : F32 := 0x40800000#32
/-- OMEGA_MAX = 1.0 (R12). -/
def fOmegaMax : F32 := 0x3F800000#32

/-- A decimal real digits · 10^tenExp as the notation's real literal rounds it (30_encoding.md R170). -/
def fDecimal (neg : Bool) (digits : Nat) (tenExp : Int) : F32 :=
  if digits = 0 then fZero neg
  else if 0 ≤ tenExp then fRound neg (digits * 10 ^ tenExp.toNat) 0
  else fRoundRatio neg digits (10 ^ (-tenExp).toNat) 0

end Sys2Proof.Machine
end

