-- ==== Sys2Proof/Machine/Configure.lean ====
section
/-! DEFINITION. Reading a decimator configuration, and which configurations a core can be built from (00_scope.md R10 to
R13, 42_decimator.md R281 to R284, 70_reset_and_hazards.md R522). -/

namespace Sys2Proof.Machine

/-- L_MAX (R10). -/
def lMax : Nat := 10

/-- NSTAGE (R10). -/
def nStage : Nat := 10

/-- IN_LEN (R12). -/
def inLen : Nat := 1024

/-- HB_ORDER[j] (R10, R11). -/
def order (c : Configuration) (j : Nat) : Nat :=
  match j with
  | 0 => 22
  | i + 1 => c.orders.getD i 0

/-- HB_COEF[j][k] (R11). -/
def coef (c : Configuration) (j k : Nat) : F32 := (c.coefs.getD j []).getD k 0

/-- The smallest power of two at least 4·K, for an order K ≥ 1 (42_decimator.md R282). -/
def ringSizeOfOrder (k : Nat) : Nat := 2 ^ (Nat.log2 (4 * k - 1) + 1)

/-- B_j: the ring size of stage j (10_state.md R74). -/
def ringSize (c : Configuration) (j : Nat) : Nat := ringSizeOfOrder (order c j)

/-- The DC gain 0.5 + 2·Σ c_k of stage j, in exact arithmetic, in units of 2^−149 (42_decimator.md R284). -/
def stageGain (c : Configuration) (j : Nat) : Int :=
  2 ^ 148 + 2 * ((c.coefs.getD j []).map fScaled).sum

/-- The product of the first `n` stages' gains, in units of 2^(−149·n). -/
def cascadeGain (c : Configuration) : Nat → Int
  | 0 => 1
  | n + 1 => cascadeGain c n * stageGain c n

/-- The cascade's DC gain over n stages is within 0.1 % of 1 (R11 constraint 5, R284). -/
def gainWithin (c : Configuration) (n : Nat) : Bool :=
  (cascadeGain c n - 2 ^ (149 * n)).natAbs * 1000 ≤ 2 ^ (149 * n)

/-- Constraints 1 to 5 of R11. Constraint 6, the stop-band attenuation, cannot be checked by evaluation (entry 5). -/
def configWellFormed (c : Configuration) : Bool :=
  c.orders.length == 9 && c.coefs.length == nStage
    && (List.range nStage).all (fun j => 1 ≤ order c j && order c j ≤ 22)
    && (List.range 9).all (fun j => order c (j + 1) ≤ order c j)
    && order c 9 == 1
    && (List.range nStage).all (fun j => (c.coefs.getD j []).length == order c j)
    && (List.range nStage).all (fun j => (c.coefs.getD j []).all isFinite)
    && (List.range nStage).all (fun j => order c j != 1 || coef c j 0 == 0x3E800000#32)
    && (List.range lMax).all (fun n => gainWithin c (n + 1))

/-- TESTCFG (R13). -/
def testCfg : Configuration :=
  { orders := List.replicate 9 1
    coefs := (0x3E800000#32 :: List.replicate 21 0) :: List.replicate 9 [0x3E800000#32] }

/-- The configuration asked for, from the open parameters of Config. -/
def requestedCfg : Configuration :=
  let orders := (List.range 9).map (fun i => Config.hbOrder (i + 1))
  { orders := orders
    coefs := (List.range nStage).map fun j =>
      (List.range (order { orders := orders, coefs := [] } j)).map (Config.hbCoef j) }

/-- The configuration the core is built with. A core is built from a well-formed configuration only (R11, R522); where
the open parameters are not well formed no core exists, and TESTCFG stands in, so that this is always one of the
well-formed configurations and may be any of them (entry 4). -/
def builtCfg : Configuration := if configWellFormed requestedCfg then requestedCfg else testCfg

end Sys2Proof.Machine
end

