-- ==== Sys2Proof/Machine/State.lean ====
section
/-! DEFINITION. The state of the machine (10_state.md): everything R40 lists, the host's side of the register window, the
stop reasons, and the state at power-on (R80). -/

namespace Sys2Proof.Machine

/-- STATUS (10_state.md R43), as its fields. Bits 31:12 are reserved and read 0: `Status.word` in Flags.lean. -/
structure Status where
  err : BitVec 4
  wrap : BitVec 4
  synced : BitVec 4
  deriving DecidableEq, Repr

/-- The global registers (10_state.md R50). ID is a constant and holds no state (R52). -/
structure Globals where
  osrLog2 : Word
  fs : F32
  fmin : F32
  fmax : F32
  deriving DecidableEq, Repr

/-- The parameter file P[b][l] of one lane (10_state.md R55). -/
structure Params where
  freq1 : Word
  freq2 : Word
  shape : Word
  pw : Word
  vol1 : Word
  vol2 : Word
  volsub : Word
  volring : Word
  fmamt : Word
  sync : Word
  cutoff : Word
  reso : Word
  topo : Word
  tap : Word
  saten : Word
  deriving DecidableEq, Repr

/-- An internal array of 32-bit words (20_memory.md R111), held as its elements other than +0.0 = 0x00000000, the value
every element has at power-on (10_state.md R80): (index, word) pairs, indices strictly rising, no word 0. -/
structure Memory where
  cells : List (Nat × Word)
  deriving DecidableEq, Repr

/-- One half-band stage: the ring BUF_j and its write index W_j (10_state.md R74). -/
structure Stage where
  buf : Memory
  w : Word
  deriving DecidableEq, Repr

/-- One decimator instance DEC[b][l][inst] (10_state.md R74). -/
structure Decimator where
  input : Memory
  stages : Vector Stage 10
  deriving DecidableEq, Repr

/-- One lane of one batch: P[b][l], S[b][l] and DEC[b][l][OSC], DEC[b][l][FLT] (10_state.md R55, R70 to R74). -/
structure Channel where
  par : Params
  p1 : Word
  p2 : Word
  ps : Word
  c0 : F32
  c1 : F32
  dly : F32
  rdly : F32
  x : Vector F32 4
  prev : F32
  xp : F32
  osc : Decimator
  flt : Decimator
  deriving DecidableEq, Repr

/-- One access of the host to the register window: its byte offset, its width in bytes, and for a write its word
(20_memory.md R103). A write of another width than 32 bits is discarded (R107), so no more of its data is held. -/
inductive HostAccess where
  | read (off : BitVec 12) (bytes : Nat)
  | write (off : BitVec 12) (bytes : Nat) (data : Word)
  deriving DecidableEq, Repr

/-- The machine. `cfg` is fixed when the core is built (10_state.md R76). `bus` and `reply` are the model's own: the
accesses the host has issued and the core has not served yet, oldest first, and the word the last served access
returned (entry 1). -/
structure State where
  cfg : Configuration
  opa : Vector Word 4
  opb : Vector Word 4
  res : Vector Word 4
  status : Status
  glob : Globals
  chans : Vector (Vector Channel 4) 4
  bus : List HostAccess
  reply : Option Word
  deriving DecidableEq, Repr

/-- Reasons the machine stops with a fault: none. A rejected command and a bad access write STATUS.ERR and the machine
goes on (60_exceptions.md R482, R484, R487, R488). Nobody raises a fault, which is safe. -/
inductive Fault
  deriving DecidableEq, Repr

/-- Reasons the machine refuses an instruction. -/
inductive Refusal where
  /-- Raised by an arm of `exec` for a command that has no meaning yet; safe. No arm of this model raises it. -/
  | notModelled (mnemonic : String)
  deriving DecidableEq, Repr

/-! ## Power-on (10_state.md R80, 70_reset_and_hazards.md R520) -/

def Memory.empty : Memory := { cells := [] }

def Stage.zero : Stage := { buf := Memory.empty, w := 0 }

def Decimator.zero : Decimator := { input := Memory.empty, stages := Vector.replicate 10 Stage.zero }

def Params.zero : Params :=
  { freq1 := 0, freq2 := 0, shape := 0, pw := 0, vol1 := 0, vol2 := 0, volsub := 0, volring := 0, fmamt := 0, sync := 0,
    cutoff := 0, reso := 0, topo := 0, tap := 0, saten := 0 }

def Channel.zero : Channel :=
  { par := Params.zero, p1 := 0, p2 := 0, ps := 0, c0 := 0, c1 := 0, dly := 0, rdly := 0,
    x := Vector.replicate 4 0, prev := 0, xp := 0, osc := Decimator.zero, flt := Decimator.zero }

/-- A core just powered on, built with configuration `c`; no access has been issued. -/
def State.powerOn (c : Configuration) : State :=
  { cfg := c
    opa := Vector.replicate 4 0
    opb := Vector.replicate 4 0
    res := Vector.replicate 4 0
    status := { err := 0, wrap := 0, synced := 0 }
    glob := { osrLog2 := 0, fs := 0x473B8000#32, fmin := 0x00000000#32, fmax := 0x469C4000#32 }
    chans := Vector.replicate 4 (Vector.replicate 4 Channel.zero)
    bus := []
    reply := none }

/-- The machine right after power-on. -/
def State.reset : State := State.powerOn builtCfg

end Sys2Proof.Machine
end

