-- ==== Sys2Proof/Machine/Flags.lean ====
section
/-! DEFINITION. STATUS: how its fields are read as one word and written, and the tests whose outcomes it records
(10_state.md R43 to R49, 41_phase_accumulator.md R250, R251). -/

namespace Sys2Proof.Machine

/-- STATUS as the host reads it (R43): ERR 3:0, WRAP 7:4, SYNCED 11:8, and 31:12 reserved, reading 0. -/
def Status.word (t : Status) : Word := 0#20 ++ t.synced ++ t.wrap ++ t.err

/-- STATUS.ERR ← code, and nothing else (R44, R48). -/
def Status.setErr (t : Status) (code : BitVec 4) : Status := { t with err := code }

/-- Bit l of a four-bit field or lane mask: M[l], WRAP[l], SYNCED[l]. -/
def laneBit (x : BitVec 4) (l : Lane) : Bool := x.getLsbD l.val

/-- Bit l of a four-bit field, set or cleared; the other bits are kept. -/
def writeBit (x : BitVec 4) (l : Lane) (v : Bool) : BitVec 4 :=
  if v then x ||| (1#4 <<< l.val) else x &&& ~~~(1#4 <<< l.val)

/-- STATUS.WRAP[l] ← v (R46). -/
def Status.setWrap (t : Status) (l : Lane) (v : Bool) : Status := { t with wrap := writeBit t.wrap l v }

/-- STATUS.SYNCED[l] ← v (R47). -/
def Status.setSynced (t : Status) (l : Lane) (v : Bool) : Status := { t with synced := writeBit t.synced l v }

/-- STATUS ← 0 (40_control.md R201). -/
def Status.zero : Status := { err := 0, wrap := 0, synced := 0 }

/-- The wrap test: the sign flips from non-negative to negative (41_phase_accumulator.md R250, R251). -/
def wrapTest (old new : Word) : Bool := !old.msb && new.msb

end Sys2Proof.Machine
end

