-- ==== Sys2Proof/Machine/Ops.lean ====
section
/-! DEFINITION. The shared operations over the state: internal arrays, lanes, the parameter file, the decimators, the end of
a command, and its rejection. -/

namespace Sys2Proof.Machine

/-! ## Internal arrays (20_memory.md R111, R112; 10_state.md R80)

An element the list does not hold reads as +0.0, its power-on value. -/

def cellsRead : List (Nat × Word) → Nat → Word
  | [], _ => 0
  | (k, v) :: rest, i => if k = i then v else cellsRead rest i

def cellsInsert (i : Nat) (v : Word) : List (Nat × Word) → List (Nat × Word)
  | [] => [(i, v)]
  | (k, x) :: rest =>
    if i < k then (i, v) :: (k, x) :: rest
    else if i = k then (i, v) :: rest
    else (k, x) :: cellsInsert i v rest

def cellsErase (i : Nat) : List (Nat × Word) → List (Nat × Word)
  | [] => []
  | (k, x) :: rest => if i = k then rest else (k, x) :: cellsErase i rest

def cellsWf : List (Nat × Word) → Bool
  | [] => true
  | (k, v) :: rest => v != 0 && rest.all (fun c => k < c.1) && cellsWf rest

/-- Element i of an array. -/
def Memory.read (m : Memory) (i : Nat) : Word := cellsRead m.cells i

/-- Element i ← v; writing +0.0, what an unlisted element reads as, removes the entry. -/
def Memory.write (m : Memory) (i : Nat) (v : Word) : Memory :=
  if v = 0 then { cells := cellsErase i m.cells } else { cells := cellsInsert i v m.cells }

/-- The canonical form: indices strictly rising, and no entry equal to what an unlisted element reads as. -/
def Memory.wf (m : Memory) : Bool := cellsWf m.cells

/-- Every listed index is below n: the array has n elements. -/
def Memory.below (m : Memory) (n : Nat) : Bool := m.cells.all (fun c => c.1 < n)

/-! ## Vectors of four -/

def map4 {α β : Type} (f : α → β) (v : Vector α 4) : Vector β 4 := #v[f v[0], f v[1], f v[2], f v[3]]

def build4 {α : Type} (f : Fin 4 → α) : Vector α 4 := #v[f 0, f 1, f 2, f 3]

/-- The lanes in the order a command writes them; the order cannot be seen (30_encoding.md R143). -/
def lanes : List Lane := [0, 1, 2, 3]

/-! ## Lanes -/

/-- P[b][l], S[b][l] and DEC[b][l] (00_scope.md R15). -/
def State.channel (s : State) (b : Batch) (l : Lane) : Channel := (s.chans[b.val])[l.val]

def State.setChannel (s : State) (b : Batch) (l : Lane) (c : Channel) : State :=
  { s with chans := s.chans.set b.val ((s.chans[b.val]).set l.val c) }

/-- The same change of every lane of every batch. -/
def State.mapChannels (s : State) (f : Channel → Channel) : State := { s with chans := map4 (map4 f) s.chans }

/-- OPA[l] and OPB[l], the operand registers of lane l (10_state.md R41). -/
def State.opaOf (s : State) (l : Lane) : Word := s.opa[l.val]
def State.opbOf (s : State) (l : Lane) : Word := s.opb[l.val]
def State.resOf (s : State) (l : Lane) : Word := s.res[l.val]

/-- RES[l] ← v. Only commands write RES (10_state.md R41). -/
def State.setRes (s : State) (l : Lane) (v : Word) : State := { s with res := s.res.set l.val v }

/-- What a command does to one selected lane: its new state, and RES[l], STATUS.WRAP[l] and STATUS.SYNCED[l] where the
command writes them. -/
structure LaneOut where
  chan : Channel
  res : Option Word := none
  wrap : Option Bool := none
  synced : Option Bool := none

def State.writeRes (s : State) (l : Lane) : Option Word → State
  | none => s
  | some v => s.setRes l v

def State.writeWrap (s : State) (l : Lane) : Option Bool → State
  | none => s
  | some v => { s with status := s.status.setWrap l v }

def State.writeSynced (s : State) (l : Lane) : Option Bool → State
  | none => s
  | some v => { s with status := s.status.setSynced l v }

def State.writeLane (s : State) (b : Batch) (l : Lane) (o : LaneOut) : State :=
  (((s.setChannel b l o.chan).writeRes l o.res).writeWrap l o.wrap).writeSynced l o.synced

/-- `for l in M` (40_control.md, 30_encoding.md R143): the outcomes of the selected lanes of batch b, each computed from
the state before the command, are written; every other lane is neither read nor written. -/
def State.forLanes (s : State) (b : Batch) (m : LaneMask) (f : Lane → LaneOut) : State :=
  lanes.foldl (fun t l => if laneBit m l then t.writeLane b l (f l) else t) s

/-- Some selected lane meets a condition; lanes outside M are not checked (R161). -/
def anyLane (m : LaneMask) (p : Lane → Bool) : Bool := lanes.any (fun l => laneBit m l && p l)

/-! ## The end of a command, and its rejection

This hardware has no trap: what it has in the place of taking an exception is `raise Error(code)` (00_scope.md R15,
60_exceptions.md R482, R487), and there is nothing to return from (R488). -/

/-- `raise Error(e)`: STATUS.ERR ← e's code, and nothing else changes (R482; 10_state.md R48). -/
def State.raise (s : State) (e : ErrorCode) : State := { s with status := s.status.setErr e.code }

/-- A command that completes writes STATUS.ERR ← 0 (10_state.md R44, 30_encoding.md R140). -/
def State.complete (s : State) : State := { s with status := s.status.setErr 0 }

/-! ## The parameter file (10_state.md R55) -/

def Params.read (p : Params) : ParamId → Word
  | .freq1 => p.freq1 | .freq2 => p.freq2 | .shape => p.shape | .pw => p.pw
  | .vol1 => p.vol1 | .vol2 => p.vol2 | .volsub => p.volsub | .volring => p.volring
  | .fmamt => p.fmamt | .sync => p.sync | .cutoff => p.cutoff | .reso => p.reso
  | .topo => p.topo | .tap => p.tap | .saten => p.saten

def Params.put (p : Params) (v : Word) : ParamId → Params
  | .freq1 => { p with freq1 := v } | .freq2 => { p with freq2 := v } | .shape => { p with shape := v }
  | .pw => { p with pw := v } | .vol1 => { p with vol1 := v } | .vol2 => { p with vol2 := v }
  | .volsub => { p with volsub := v } | .volring => { p with volring := v } | .fmamt => { p with fmamt := v }
  | .sync => { p with sync := v } | .cutoff => { p with cutoff := v } | .reso => { p with reso := v }
  | .topo => { p with topo := v } | .tap => { p with tap := v } | .saten => { p with saten := v }

/-- The word a write of v stores: bit 0 for the two flags (R57), the raw word otherwise (R56). -/
def storedParam (pid : ParamId) (v : Word) : Word :=
  match pid with
  | .sync => v &&& 1
  | .saten => v &&& 1
  | _ => v

/-- The check of R58: TOPO and TAP take 0, 1 and 2 only. -/
def paramValueLegal (pid : ParamId) (v : Word) : Bool :=
  match pid with
  | .topo => v.toNat ≤ 2
  | .tap => v.toNat ≤ 2
  | _ => true

/-! ## Global registers (10_state.md R50, R52) -/

/-- ID (R52). -/
def idWord : Word := 0x4D555358#32

def Globals.read (g : Globals) : GlobalId → Word
  | .osrLog2 => g.osrLog2
  | .fs => g.fs
  | .fmin => g.fmin
  | .fmax => g.fmax
  | .id => idWord

/-! ## Accumulators (30_encoding.md R150) -/

def Channel.acc (c : Channel) : AccSel → Word
  | .p1 => c.p1
  | .p2 => c.p2
  | .ps => c.ps

def Channel.setAcc (c : Channel) (v : Word) : AccSel → Channel
  | .p1 => { c with p1 := v }
  | .p2 => { c with p2 := v }
  | .ps => { c with ps := v }

/-! ## Decimators (10_state.md R74, 42_decimator.md R288) -/

def Channel.dec (c : Channel) : DecInst → Decimator
  | .osc => c.osc
  | .flt => c.flt

def Channel.setDec (c : Channel) (d : Decimator) : DecInst → Channel
  | .osc => { c with osc := d }
  | .flt => { c with flt := d }

/-- zero_dec: IN, every BUF_j and every W_j ← 0 (R288). -/
def Channel.zeroDec (c : Channel) (i : DecInst) : Channel := c.setDec Decimator.zero i

/-- The instances DSEL names, zeroed (40_control.md R203). -/
def Channel.zeroSel (c : Channel) : DecSel → Channel
  | .osc => c.zeroDec .osc
  | .flt => c.zeroDec .flt
  | .both => (c.zeroDec .osc).zeroDec .flt

def Decimator.stage (d : Decimator) (j : Nat) : Stage := d.stages.toList.getD j Stage.zero

def Decimator.setStage (d : Decimator) (j : Nat) (st : Stage) : Decimator :=
  { d with stages := d.stages.setIfInBounds j st }

def Decimator.writeInput (d : Decimator) (i : Nat) (v : F32) : Decimator := { d with input := d.input.write i v }

/-! ## Building a core (70_reset_and_hazards.md R522) -/

/-- A core is built from a well-formed configuration and from no other (00_scope.md R11). -/
def buildCore (c : Configuration) : Option State := if configWellFormed c then some (State.powerOn c) else none

end Sys2Proof.Machine
end

