-- ==== Sys2Proof/Machine/Operands.lean ====
section
/-! DEFINITION. Operand values at use: the clamps of globals and parameters (10_state.md R53 to R61), the increment
(41_phase_accumulator.md R252) and the cutoff angular frequency (46_ode_filter.md R433). -/

namespace Sys2Proof.Machine

/-! ## Globals at use -/

/-- L = OSR_LOG2 (10_state.md R51). -/
def Globals.osr (g : Globals) : Nat := g.osrLog2.toNat

/-- R = 2^L, the substeps of a tick. -/
def Globals.substeps (g : Globals) : Nat := 2 ^ g.osr

/-- fs_u (R53). -/
def Globals.fsUse (g : Globals) : F32 := fclamp g.fs fOne fTwo24

/-- fmin_u and fmax_u (R54). -/
def Globals.fminUse (g : Globals) : F32 := fclamp g.fmin fPlusZero fTwo24
def Globals.fmaxUse (g : Globals) : F32 := fclamp g.fmax fPlusZero fTwo24

/-- INC_MAX(L) = 2^(31−L) − 1 (00_scope.md R12). -/
def incMax (l : Nat) : Nat := 2 ^ (31 - l) - 1

/-- increment(f) (41_phase_accumulator.md R252). -/
def increment (g : Globals) (f : F32) : Word :=
  let fu := fclamp f g.fminUse g.fmaxUse
  let q := fmul (fdiv fu g.fsUse) (fPow2 (32 - (g.osr : Int)))
  BitVec.ofInt 32 (f2uSat q 0 (incMax g.osr))

/-! ## Signal operands (00_scope.md R21) -/

/-- OPA[l] as a signal sample. -/
def State.sampleA (s : State) (l : Lane) : F32 := sanitize (s.opaOf l)

/-- OPB[l] as an amplitude. -/
def State.sampleB (s : State) (l : Lane) : F32 := sanitize (s.opbOf l)

/-- OPA[l] as an event fraction d in [0, 1] (43_blep_blamp.md R330). -/
def State.fractionA (s : State) (l : Lane) : F32 := fclamp (s.opaOf l) fPlusZero fOne

/-- OPA[l] as an i32 increment: a negative one is 0 (41_phase_accumulator.md R260). -/
def State.incrementA (s : State) (l : Lane) : Word := if (s.opaOf l).msb then 0 else s.opaOf l

/-! ## Parameters at use (10_state.md R55) -/

def Params.shapeUse (p : Params) : F32 := fclamp p.shape fMinusOne fOne
def Params.pwUse (p : Params) : F32 := fclamp p.pw fMinusOne fOne
def Params.vol1Use (p : Params) : F32 := fclamp p.vol1 fPlusZero fOne
def Params.vol2Use (p : Params) : F32 := fclamp p.vol2 fPlusZero fOne
def Params.volsubUse (p : Params) : F32 := fclamp p.volsub fPlusZero fOne
def Params.volringUse (p : Params) : F32 := fclamp p.volring fPlusZero fOne
def Params.fmamtUse (p : Params) : F32 := fclamp p.fmamt fPlusZero fOne
def Params.syncUse (p : Params) : Bool := p.sync.getLsbD 0
def Params.satenUse (p : Params) : Bool := p.saten.getLsbD 0
/-- kf (R61). -/
def Params.resoUse (p : Params) : F32 := fclamp p.reso fPlusZero fKMax

/-- N, the stages of the topology (46_ode_filter.md R431). TOPO holds 0, 1 or 2 in every reachable state (entry 8). -/
def Params.poles (p : Params) : Nat := if p.topo = 0 then 1 else if p.topo = 1 then 2 else 4

/-- TAP as the name of an output tap (46_ode_filter.md R440). -/
inductive Tap where
  | lp | hp | bp
  deriving DecidableEq, Repr

/-- TAP holds 0, 1 or 2 in every reachable state (entry 8). -/
def Params.tapUse (p : Params) : Tap := if p.tap = 0 then .lp else if p.tap = 1 then .hp else .bp

/-- The check of FLT_TICK (46_ode_filter.md R431, R450): band-pass on a 1-pole. -/
def Params.bandpassOnOnePole (p : Params) : Bool := p.tap == 2 && p.topo == 0

/-- omega() (46_ode_filter.md R433). -/
def omega (g : Globals) (p : Params) : F32 :=
  let fc := fclamp p.cutoff fPlusZero fTwo24
  fclamp (fmul (fdiv (fmul fTwoPi fc) g.fsUse) (fPow2 (-(g.osr : Int)))) fPlusZero fOmegaMax

end Sys2Proof.Machine
end

