-- ==== Sys2Proof/Machine/Control.lean ====
section
/-! DEFINITION. The control commands (40_control.md R200 to R211): NOP, the resets, and the setters and readback of the
parameter file, the globals and the dynamic state. -/

namespace Sys2Proof.Machine

/-- NOP (R200). -/
def execNop (s : State) : Host.Outcome State Fault Refusal := .next s.complete

/-! ## Resets -/

/-- S[b][l] oscillator state ← 0 (R202). -/
def Channel.zeroOsc (c : Channel) : Channel :=
  { c with p1 := 0, p2 := 0, ps := 0, c0 := fPlusZero, c1 := fPlusZero, dly := fPlusZero, rdly := fPlusZero }

/-- S[b][l] filter state ← +0.0 (R204). -/
def Channel.zeroFlt (c : Channel) : Channel := { c with x := Vector.replicate 4 fPlusZero, prev := fPlusZero }

/-- S[b][l].XP ← +0.0 (R205). -/
def Channel.zeroSat (c : Channel) : Channel := { c with xp := fPlusZero }

/-- S[b][l] and DEC[b][l] ← 0; the parameter file is kept (R201). -/
def Channel.zeroDynamic (c : Channel) : Channel := c.zeroOsc.zeroFlt.zeroSat.zeroSel .both

/-- RST_ALL (R201): all dynamic state of every batch and lane, and STATUS. -/
def execRstAll (s : State) : Host.Outcome State Fault Refusal :=
  .next { (s.mapChannels Channel.zeroDynamic) with status := Status.zero }

/-- RST_OSC (R202). -/
def execRstOsc (b : Batch) (m : LaneMask) (s : State) : Host.Outcome State Fault Refusal :=
  .next (s.forLanes b m (fun l => { chan := (s.channel b l).zeroOsc })).complete

/-- RST_DEC (R203). -/
def execRstDec (b : Batch) (m : LaneMask) (dsel : DecSel) (s : State) : Host.Outcome State Fault Refusal :=
  .next (s.forLanes b m (fun l => { chan := (s.channel b l).zeroSel dsel })).complete

/-- RST_FLT (R204). -/
def execRstFlt (b : Batch) (m : LaneMask) (s : State) : Host.Outcome State Fault Refusal :=
  .next (s.forLanes b m (fun l => { chan := (s.channel b l).zeroFlt })).complete

/-- RST_SAT (R205). -/
def execRstSat (b : Batch) (m : LaneMask) (s : State) : Host.Outcome State Fault Refusal :=
  .next (s.forLanes b m (fun l => { chan := (s.channel b l).zeroSat })).complete

/-! ## Parameters -/

/-- WR_PARAM (R207): the value of every selected lane is checked before any lane is written. -/
def execWrParam (b : Batch) (m : LaneMask) (pid : ParamId) (s : State) : Host.Outcome State Fault Refusal :=
  if anyLane m (fun l => !paramValueLegal pid (s.opaOf l)) then .next (s.raise .badValue)
  else
    .next (s.forLanes b m (fun l =>
      let c := s.channel b l
      { chan := { c with par := c.par.put (storedParam pid (s.opaOf l)) pid } })).complete

/-- RD_PARAM (R208): the raw stored word. -/
def execRdParam (b : Batch) (m : LaneMask) (pid : ParamId) (s : State) : Host.Outcome State Fault Refusal :=
  .next (s.forLanes b m (fun l =>
    { chan := s.channel b l, res := some ((s.channel b l).par.read pid) })).complete

/-! ## Globals -/

/-- An accepted write of OSR_LOG2 zeroes every decimator (42_decimator.md R289). -/
def State.setOsr (s : State) (v : Word) : State :=
  { (s.mapChannels (fun c => c.zeroSel .both)) with glob := { s.glob with osrLog2 := v } }

/-- WR_GLOBAL (R209). ID is read-only: a write of it is BAD_FIELD (10_state.md R52). -/
def execWrGlobal (gid : GlobalId) (s : State) : Host.Outcome State Fault Refusal :=
  let v := s.opaOf 0
  match gid with
  | .osrLog2 => if 10 < v.toNat then .next (s.raise .badValue) else .next (s.setOsr v).complete
  | .fs => .next { s with glob := { s.glob with fs := v } }.complete
  | .fmin => .next { s with glob := { s.glob with fmin := v } }.complete
  | .fmax => .next { s with glob := { s.glob with fmax := v } }.complete
  | .id => .next (s.raise .badField)

/-- RD_GLOBAL (R210): into RES[0] whatever any mask. -/
def execRdGlobal (gid : GlobalId) (s : State) : Host.Outcome State Fault Refusal :=
  .next (s.setRes 0 (s.glob.read gid)).complete

/-! ## Dynamic state -/

/-- The number of elements of a state item: the IDX range of 10_state.md R77 is 0 .. size − 1. -/
def stateSize (cfg : Configuration) : StateId → Nat
  | .x => 4
  | .input _ => inLen
  | .ring _ j => ringSize cfg j.val
  | _ => 1

/-- The word of item (SID, IDX) of a lane (10_state.md R77). Rings are indexed by their physical slot. -/
def Channel.item (c : Channel) (sid : StateId) (idx : Nat) : Word :=
  match sid with
  | .p1 => c.p1
  | .p2 => c.p2
  | .ps => c.ps
  | .c0 => c.c0
  | .c1 => c.c1
  | .dly => c.dly
  | .rdly => c.rdly
  | .x => c.x.toList.getD idx 0
  | .prev => c.prev
  | .xp => c.xp
  | .input i => (c.dec i).input.read idx
  | .ring i j => ((c.dec i).stage j.val).buf.read idx
  | .index i j => ((c.dec i).stage j.val).w

/-- RD_STATE (R211). An IDX outside the item's range is BAD_FIELD, whatever M (30_encoding.md R160); the ring sizes, and
so this check, depend on the configuration. -/
def execRdState (b : Batch) (m : LaneMask) (sid : StateId) (idx : BitVec 12) (s : State) :
    Host.Outcome State Fault Refusal :=
  if stateSize s.cfg sid ≤ idx.toNat then .next (s.raise .badField)
  else
    .next (s.forLanes b m (fun l =>
      { chan := s.channel b l, res := some ((s.channel b l).item sid idx.toNat) })).complete

end Sys2Proof.Machine
end

