-- ==== Sys2Proof/Machine/Cascade.lean ====
section
/-! DEFINITION. The half-band decimator cascade (42_decimator.md): pushing a sample, the convolution of one stage, the
cascade, and the commands DEC_WR and DEC_PROC. -/

namespace Sys2Proof.Machine

/-- (W + k) & (B − 1), in two's complement (20_memory.md R113). -/
def ringIndex (size : Nat) (w k : Word) : Word := (w + k) &&& (BitVec.ofNat 32 size - 1)

/-- push(j, x) for a stage whose ring has `size` slots (R286). -/
def Stage.push (size : Nat) (st : Stage) (x : F32) : Stage :=
  { buf := st.buf.write st.w.toNat x, w := ringIndex size st.w 1 }

/-- X_j(n): the sample pushed n pushes ago (R286). -/
def Stage.tap (size : Nat) (st : Stage) (n : Nat) : F32 :=
  st.buf.read (ringIndex size st.w (-1 - BitVec.ofNat 32 n)).toNat

/-- One term of the convolution: the two symmetric samples are added before the multiplication (R287). -/
def convTerm (size k : Nat) (c : Nat → F32) (st : Stage) (acc : F32) (i : Nat) : F32 :=
  fadd acc (fmul (c i) (fadd (st.tap size (2 * k - 1 - (2 * i + 1))) (st.tap size (2 * k - 1 + (2 * i + 1)))))

/-- conv(j) (R287): the centre tap, then the coefficients from the innermost outwards. -/
def Stage.conv (cfg : Configuration) (j : Nat) (st : Stage) : F32 :=
  let k := order cfg j
  let size := ringSize cfg j
  (List.range k).foldl (convTerm size k (coef cfg j) st) (fmul fHalf (st.tap size (2 * k - 1)))

/-- One stage over a block of samples: two pushes, then one output (R290). -/
def halve (cfg : Configuration) (j : Nat) : List F32 → Stage → List F32 × Stage
  | x :: y :: rest, st =>
    let st' := (st.push (ringSize cfg j) x).push (ringSize cfg j) y
    let r := halve cfg j rest st'
    (st'.conv cfg j :: r.1, r.2)
  | [], st => ([], st)
  | [_], st => ([], st)

/-- Stages n − 1 down to 0 over a block of 2^n samples (R290). -/
def runStages (cfg : Configuration) : Nat → List F32 → Decimator → F32 × Decimator
  | 0, v, d => (v.headD 0, d)
  | j + 1, v, d =>
    let r := halve cfg j v (d.stage j)
    runStages cfg j r.1 (d.setStage j r.2)

/-- cascade at L (R290): IN[0 .. 2^L − 1] through the stages L − 1 down to 0. -/
def cascade (cfg : Configuration) (l : Nat) (d : Decimator) : F32 × Decimator :=
  runStages cfg l ((List.range (2 ^ l)).map d.input.read) d

/-- DEC_WR (R291). -/
def execDecWr (b : Batch) (m : LaneMask) (inst : DecInst) (idx : BitVec 10) (s : State) :
    Host.Outcome State Fault Refusal :=
  .next (s.forLanes b m (fun l =>
    let c := s.channel b l
    { chan := c.setDec ((c.dec inst).writeInput idx.toNat (s.sampleA l)) inst })).complete

/-- DEC_PROC (R292): LOG2N above 10 is BAD_FIELD, then LOG2N other than OSR_LOG2 is OSR_MISMATCH (30_encoding.md R140,
R154). -/
def execDecProc (b : Batch) (m : LaneMask) (inst : DecInst) (log2n : BitVec 4) (s : State) :
    Host.Outcome State Fault Refusal :=
  if 10 < log2n.toNat then .next (s.raise .badField)
  else if log2n.toNat ≠ s.glob.osr then .next (s.raise .osrMismatch)
  else
    .next (s.forLanes b m (fun l =>
      let c := s.channel b l
      let r := cascade s.cfg s.glob.osr (c.dec inst)
      { chan := c.setDec r.2 inst, res := some r.1 })).complete

end Sys2Proof.Machine
end

