-- ==== Sys2Proof/Machine/Shaper.lean ====
section
/-! DEFINITION. The antialiasing waveshaper (44_waveshaper.md): the saturation function, its antiderivative, the
antiderivative-antialiased saturator, and the command SAT. -/

namespace Sys2Proof.Machine

/-- √(1 + x·x), in binary32, one rounding per operation. -/
def rootOnePlusSquare (x : F32) : F32 := fsqrt (fadd fOne (fmul x x))

/-- sat(x) (R350). -/
def satFn (x : F32) : F32 :=
  if isNaN x then fNaN
  else if fgeq (fabs x) fTwo24 then copysignOne x
  else fdiv x (rootOnePlusSquare x)

/-- F(x), the antiderivative of sat (R351). -/
def satIntegral (x : F32) : F32 :=
  if isNaN x then fNaN
  else if fgeq (fabs x) fTwo24 then fabs x
  else rootOnePlusSquare x

/-- The output of adaa(x) with previous input xp (R352). -/
def adaaOut (xp x : F32) : F32 :=
  let dx := fsub x xp
  if fgreater (fabs dx) fAdaaEps then fdiv (fsub (satIntegral x) (satIntegral xp)) dx
  else satFn (fmul (fadd x xp) fHalf)

/-- SAT (R360): the output of the saturator, and XP ← x. -/
def execSat (b : Batch) (m : LaneMask) (s : State) : Host.Outcome State Fault Refusal :=
  .next (s.forLanes b m (fun l =>
    let c := s.channel b l
    { chan := { c with xp := s.sampleA l }, res := some (adaaOut c.xp (s.sampleA l)) })).complete

end Sys2Proof.Machine
end

