-- ==== Sys2Proof/Machine/Filter.lean ====
section
/-! DEFINITION. The nonlinear ODE filter engine and its integrator dispatch (46_ode_filter.md), and the command FLT_TICK. -/

namespace Sys2Proof.Machine

/-- The state vector X[0..3] (10_state.md R72); a topology of N stages uses its first N entries. -/
abbrev OdeVec := Vector F32 4

/-- The values a lane evaluates once at the start of a tick (R432). -/
structure FltTick where
  n : Nat
  cur : F32
  prev : F32
  w : F32
  kf : F32
  tap : Tap
  saten : Bool
  /-- L, which fixes the times of the substeps. -/
  l : Nat
  deriving DecidableEq, Repr

def fltTickValues (g : Globals) (c : Channel) (cur : F32) : FltTick :=
  { n := c.par.poles, cur := cur, prev := c.prev, w := omega g c.par, kf := c.par.resoUse
    tap := c.par.tapUse, saten := c.par.satenUse, l := g.osr }

/-! ## Derivative and input -/

/-- X[i] for any i, 0 past the end. -/
def entry (x : OdeVec) (i : Nat) : F32 := x.toList.getD i 0

/-- A vector whose entries i < N are given by f and whose other entries are kept (R443). -/
def FltTick.update (t : FltTick) (x : OdeVec) (f : Nat → F32) : OdeVec :=
  build4 fun i => if i.val < t.n then f i.val else x[i.val]

/-- The fed-back input a = u − kf · x[N−1] (R434). -/
def FltTick.feedback (t : FltTick) (x : OdeVec) (u : F32) : F32 := fsub u (fmul t.kf (entry x (t.n - 1)))

/-- D(x, u) (R434), with 0 for the entries the topology does not use. -/
def FltTick.deriv (t : FltTick) (x : OdeVec) (u : F32) : OdeVec :=
  t.update (Vector.replicate 4 fPlusZero) fun i =>
    let sIn := if i = 0 then satFn (t.feedback x u) else satFn (entry x (i - 1))
    fmul t.w (fsub sIn (satFn (entry x i)))

/-- inp(t) by the formula of R435, not by its remark on inp(0) and inp(1) (DEDUCED, entry 12). -/
def FltTick.inp (t : FltTick) (time : F32) : F32 := fadd t.prev (fmul time (fsub t.cur t.prev))

/-- The start, the midpoint and the end of substep k (R435). -/
def FltTick.t0 (t : FltTick) (k : Nat) : F32 := fmul (i2f k) (fPow2 (-(t.l : Int)))
def FltTick.tm (t : FltTick) (k : Nat) : F32 := fmul (i2f (2 * k + 1 : Nat)) (fPow2 (-(t.l + 1 : Int)))
def FltTick.t1 (t : FltTick) (k : Nat) : F32 := fmul (i2f (k + 1 : Nat)) (fPow2 (-(t.l : Int)))

/-! ## Integration methods -/

/-- Forward Euler (R436). -/
def FltTick.euler (t : FltTick) (k : Nat) (x : OdeVec) : OdeVec :=
  let k1 := t.deriv x (t.inp (t.t0 k))
  t.update x fun i => fadd (entry x i) (entry k1 i)

/-- x + 0.5 · k, the half step of R437 and R438. -/
def FltTick.halfStep (t : FltTick) (x k : OdeVec) : OdeVec :=
  t.update x fun i => fadd (entry x i) (fmul fHalf (entry k i))

/-- The midpoint method (R437). -/
def FltTick.rk2 (t : FltTick) (k : Nat) (x : OdeVec) : OdeVec :=
  let k1 := t.deriv x (t.inp (t.t0 k))
  let k2 := t.deriv (t.halfStep x k1) (t.inp (t.tm k))
  t.update x fun i => fadd (entry x i) (entry k2 i)

/-- The weighted sum of the four slopes (R438). -/
def rk4Sum (k1 k2 k3 k4 : F32) : F32 :=
  fdiv (fadd (fadd (fadd k1 (fmul fTwo k2)) (fmul fTwo k3)) k4) fSix

/-- The classical fourth-order method (R438). -/
def FltTick.rk4 (t : FltTick) (k : Nat) (x : OdeVec) : OdeVec :=
  let um := t.inp (t.tm k)
  let k1 := t.deriv x (t.inp (t.t0 k))
  let k2 := t.deriv (t.halfStep x k1) um
  let k3 := t.deriv (t.halfStep x k2) um
  let k4 := t.deriv (t.update x fun i => fadd (entry x i) (entry k3 i)) (t.inp (t.t1 k))
  t.update x fun i => fadd (entry x i) (rk4Sum (entry k1 i) (entry k2 i) (entry k3 i) (entry k4 i))

/-- Integrator dispatch (R439). -/
def FltTick.integrate (t : FltTick) (meth : OdeMethod) (k : Nat) (x : OdeVec) : OdeVec :=
  match meth with
  | .euler => t.euler k x
  | .rk2 => t.rk2 k x
  | .rk4 => t.rk4 k x

/-! ## Output (R440) -/

/-- The tap value of the updated state x, with a_end the fed-back input at the end of the substep. A 1-pole has no
band-pass: FLT_TICK rejects it before any lane runs (R431), and the arm for it is never reached. -/
def FltTick.output (t : FltTick) (x : OdeVec) (aEnd : F32) : F32 :=
  match t.tap with
  | .lp => entry x (t.n - 1)
  | .hp =>
    if t.n = 1 then fsub aEnd (entry x 0)
    else if t.n = 2 then fadd (fsub aEnd (fmul fTwo (entry x 0))) (entry x 1)
    else
      fadd (fsub (fadd (fsub aEnd (fmul fFour (entry x 0))) (fmul fSix (entry x 1))) (fmul fFour (entry x 2)))
        (entry x 3)
  | .bp =>
    if t.n = 2 then fsub (entry x 0) (entry x 1)
    else fadd (fsub (entry x 1) (fmul fTwo (entry x 2))) (entry x 3)

/-! ## The substep loop (R442) -/

/-- One substep of one lane: integrate, take the tap, saturate where SATEN is set (R441), and write IN[k]. -/
def FltTick.substep (t : FltTick) (meth : OdeMethod) (c : Channel) (k : Nat) : Channel :=
  let x := t.integrate meth k c.x
  let y := t.output x (t.feedback x (t.inp (t.t1 k)))
  let out : F32 × F32 := if t.saten then (adaaOut c.xp y, y) else (y, c.xp)
  { c with x := x, xp := out.2, flt := c.flt.writeInput k out.1 }

/-- The R substeps, then PREV ← cur (R442). -/
def FltTick.run (t : FltTick) (meth : OdeMethod) (n : Nat) (c : Channel) : Channel :=
  { (List.range n).foldl (t.substep meth) c with prev := t.cur }

/-- One tick of one lane: its substeps, then the FLT cascade (R450). -/
def fltTickLane (cfg : Configuration) (g : Globals) (meth : OdeMethod) (cur : F32) (c : Channel) : LaneOut :=
  let c' := (fltTickValues g c cur).run meth g.substeps c
  let y := cascade cfg g.osr c'.flt
  { chan := { c' with flt := y.2 }, res := some y.1 }

/-- FLT_TICK (R450): band-pass on a 1-pole in any selected lane rejects the whole command. -/
def execFltTick (b : Batch) (m : LaneMask) (meth : OdeMethod) (s : State) : Host.Outcome State Fault Refusal :=
  if anyLane m (fun l => (s.channel b l).par.bandpassOnOnePole) then .next (s.raise .badValue)
  else .next (s.forLanes b m (fun l => fltTickLane s.cfg s.glob meth (s.sampleA l) (s.channel b l))).complete

end Sys2Proof.Machine
end

