-- ==== Sys2Proof/Machine/Blep.lean ====
section
/-! DEFINITION. The BLEP/BLAMP generator (43_blep_blamp.md): the two insertions, the one-sample delay, and the commands
BLEP_INS and BLEP_PROC. -/

namespace Sys2Proof.Machine

/-- The two corrections of a step of height 1 per unit A: what C0 gains and what C1 loses (R321). -/
def blepBefore (d a : F32) : F32 := fmul a (fmul (fmul d d) fHalf)
def blepAfter (d a : F32) : F32 :=
  let e := fsub fOne d
  fmul a (fmul (fmul e e) fHalf)

/-- blep_ins(d, A) (R321). -/
def Channel.blepIns (c : Channel) (d a : F32) : Channel :=
  { c with c0 := fadd c.c0 (blepBefore d a), c1 := fsub c.c1 (blepAfter d a) }

/-- The two corrections of a slope change B (R322). -/
def blampBefore (d a : F32) : F32 := fmul a (fdiv (fmul (fmul d d) d) fSix)
def blampAfter (d a : F32) : F32 :=
  let e := fsub fOne d
  fmul a (fdiv (fmul (fmul e e) e) fSix)

/-- blamp_ins(d, B) (R322). -/
def Channel.blampIns (c : Channel) (d a : F32) : Channel :=
  { c with c0 := fadd c.c0 (blampBefore d a), c1 := fadd c.c1 (blampAfter d a) }

/-- The state blep_process leaves (R323). -/
def Channel.blepShift (c : Channel) (x : F32) : Channel := { c with c0 := c.c1, c1 := fPlusZero, dly := x }

/-- The output of blep_process: the delayed sample and every correction due for it (R323). -/
def Channel.blepOut (c : Channel) : F32 := fadd c.dly c.c0

/-- BLEP_INS (R330). -/
def execBlepIns (b : Batch) (m : LaneMask) (kind : BlepKind) (s : State) : Host.Outcome State Fault Refusal :=
  .next (s.forLanes b m (fun l =>
    match kind with
    | .blep => { chan := (s.channel b l).blepIns (s.fractionA l) (s.sampleB l) }
    | .blamp => { chan := (s.channel b l).blampIns (s.fractionA l) (s.sampleB l) })).complete

/-- BLEP_PROC (R331). -/
def execBlepProc (b : Batch) (m : LaneMask) (s : State) : Host.Outcome State Fault Refusal :=
  .next (s.forLanes b m (fun l =>
    { chan := (s.channel b l).blepShift (s.sampleA l), res := some (s.channel b l).blepOut })).complete

end Sys2Proof.Machine
end

