-- ==== Sys2Proof/Machine/Phase.lean ====
section
/-! DEFINITION. The phase accumulator (41_phase_accumulator.md): the modular step, the event-crossing test, and the
commands PA_ADD and PA_LOAD. -/

namespace Sys2Proof.Machine

/-- The cycle position u = p ^ 0x80000000 (00_scope.md R24). -/
def cyclePos (p : Word) : Nat := (p ^^^ 0x80000000#32).toNat

/-- What one accumulator step gives (R250): the new value, the wrap, and the cycle positions before and after, the
latter as a natural-number sum. -/
structure PhaseStep where
  new : Word
  wrap : Bool
  uOld : Nat
  uSum : Nat
  deriving DecidableEq, Repr

/-- pa_step(p, inc) (R250). -/
def paStep (p inc : Word) : PhaseStep :=
  { new := p + inc
    wrap := wrapTest p (p + inc)
    uOld := cyclePos p
    uSum := cyclePos p + inc.toNat }

/-- event(u_old, U, inc, Q) (R254): the fraction of the step after the crossing of the cycle position Q. -/
def crossing (t : PhaseStep) (inc : Word) (q : Nat) : Option F32 :=
  if t.uOld < q ∧ q ≤ t.uSum then some (fdiv (i2f ((t.uSum : Int) - q)) (i2f inc.toNat))
  else if t.uOld < q + 2 ^ 32 ∧ q + 2 ^ 32 ≤ t.uSum then
    some (fdiv (i2f ((t.uSum : Int) - (q + 2 ^ 32 : Nat))) (i2f inc.toNat))
  else none

/-- PA_ADD (R260). -/
def execPaAdd (b : Batch) (m : LaneMask) (asel : AccSel) (s : State) : Host.Outcome State Fault Refusal :=
  .next (s.forLanes b m (fun l =>
    let c := s.channel b l
    let t := paStep (c.acc asel) (s.incrementA l)
    { chan := c.setAcc t.new asel, res := some t.new, wrap := some t.wrap })).complete

/-- PA_LOAD (R261). -/
def execPaLoad (b : Batch) (m : LaneMask) (asel : AccSel) (s : State) : Host.Outcome State Fault Refusal :=
  .next (s.forLanes b m (fun l => { chan := (s.channel b l).setAcc (s.opaOf l) asel })).complete

end Sys2Proof.Machine
end

