-- ==== Sys2Proof/Machine/Oscillator.lean ====
section
/-! DEFINITION. The phase-accumulator oscillator engine (45_oscillator.md) and the command OSC_TICK. -/

namespace Sys2Proof.Machine

/-! ## Per-tick values -/

/-- delta(pw): the length Δ of the high part of the pulse (R382). -/
def pulseDelta (pw : F32) : Nat :=
  (f2uSat (fmul (fmul (fadd pw fOne) fHalf) (fPow2 32)) 0 4294967295).toNat

/-- weights(sh) (R383). -/
def weightTri (sh : F32) : F32 := if fless sh fPlusZero then fneg sh else fPlusZero
def weightSq (sh : F32) : F32 := if fgreater sh fPlusZero then sh else fPlusZero
def weightSaw (sh : F32) : F32 := fsub fOne (fabs sh)

/-- The values a lane evaluates once at the start of a tick (R380). -/
structure OscTick where
  inc1 : Word
  inc2b : Word
  incs : Word
  wtri : F32
  wsaw : F32
  wsq : F32
  dlt : Nat
  v1 : F32
  v2 : F32
  vs : F32
  vr : F32
  fm : F32
  sync : Bool
  /-- INC_MAX(L). -/
  top : Nat
  deriving DecidableEq, Repr

/-- The sub-oscillator's increment (41_phase_accumulator.md R257). -/
def subIncrement (inc1 : Word) : Word := inc1 >>> 1

def oscTickValues (g : Globals) (p : Params) : OscTick :=
  let inc1 := increment g p.freq1
  { inc1 := inc1
    inc2b := increment g p.freq2
    incs := subIncrement inc1
    wtri := weightTri p.shapeUse
    wsaw := weightSaw p.shapeUse
    wsq := weightSq p.shapeUse
    dlt := pulseDelta p.pwUse
    v1 := p.vol1Use
    v2 := p.vol2Use
    vs := p.volsubUse
    vr := p.volringUse
    fm := p.fmamtUse
    sync := p.syncUse
    top := incMax g.osr }

/-! ## Waveforms -/

/-- saw and tri at accumulator value p, from x = s32(p) · 2^−31 (R384). -/
def sawWave (p : Word) : F32 := fmul (i2f p.toInt) (fPow2 (-31))
def triWave (p : Word) : F32 := fsub (fmul (fabs (sawWave p)) fTwo) fOne

/-- The pulse: high exactly when u ≥ 2^32 − Δ and Δ ≠ 0 (R384). -/
def pulseWave (dlt : Nat) (p : Word) : F32 := if dlt ≠ 0 ∧ 2 ^ 32 - dlt ≤ cyclePos p then fOne else fMinusOne

/-- W(p) (R384). -/
def OscTick.wave (t : OscTick) (p : Word) : F32 :=
  fadd (fadd (fmul t.wtri (triWave p)) (fmul t.wsaw (sawWave p))) (fmul t.wsq (pulseWave t.dlt p))

/-- SQ(ps) (R385). -/
def subWave (ps : Word) : F32 := if ps.msb then fMinusOne else fOne

/-- Oscillator 2's modulated increment in one substep (R386). -/
def OscTick.modulated (t : OscTick) (wave1 : F32) : Word :=
  BitVec.ofInt 32 (f2uSat (fmul (i2f t.inc2b.toNat) (fadd fOne (fmul t.fm wave1))) 0 t.top)

/-- d1: the fraction of the substep after oscillator 1's wrap (R387). -/
def syncFraction (t1 : PhaseStep) (inc1 : Word) : F32 := fdiv (i2f ((t1.uSum : Int) - 2 ^ 32)) (i2f inc1.toNat)

/-- The value hard sync resets P2 to (R387). The source leaves it open within bounds; this is the spec's reference
formula (93_implementation_defined.md U3, entry 13). -/
def OscTick.syncPhase (t : OscTick) (d1 : F32) (inc2 : Word) : Word :=
  BitVec.ofInt 32 (f2uSat (fmul d1 (i2f inc2.toNat)) 0 t.top)

/-- pe: oscillator 2's phase at the sync instant (R394). -/
def OscTick.syncInstantPhase (t : OscTick) (p2Old : Word) (d1 : F32) (inc2 : Word) : Word :=
  p2Old + BitVec.ofInt 32 (f2uSat (fmul (fsub fOne d1) (i2f inc2.toNat)) 0 t.top)

/-! ## Corrections (R390 to R395) -/

/-- Insert a step correction where its event is crossed. -/
def insBlep (e : Option F32) (a : F32) (c : Channel) : Channel :=
  match e with
  | none => c
  | some d => c.blepIns d a

/-- Insert a slope correction where its event is crossed. -/
def insBlamp (e : Option F32) (a : F32) (c : Channel) : Channel :=
  match e with
  | none => c
  | some d => c.blampIns d a

/-- The size of the triangle's slope change at a corner, per substep (R391). -/
def cornerSize (inc : Word) : F32 := fmul (i2f inc.toNat) (fPow2 (-29))

/-- The three events of oscillator 1 (R391) or, without sync, of oscillator 2 (R393), with volume v: the wrap, the
mid-cycle and the pulse rise, in this order. -/
def OscTick.insertOsc (t : OscTick) (st : PhaseStep) (inc : Word) (v : F32) (c : Channel) : Channel :=
  let g := cornerSize inc
  let wrap := crossing st inc 0
  let pulse := if t.dlt ≠ 0 then t.wsq else fPlusZero
  let c := insBlep wrap (fmul v (fmul (fadd t.wsaw pulse) fMinusTwo)) c
  let c := insBlamp wrap (fmul v (fmul t.wtri (fneg g))) c
  let c := insBlamp (crossing st inc (2 ^ 31)) (fmul v (fmul t.wtri g)) c
  if t.dlt ≠ 0 then insBlep (crossing st inc (2 ^ 32 - t.dlt)) (fmul v (fmul t.wsq fTwo)) c else c

/-- The two events of the sub-oscillator (R392). -/
def OscTick.insertSub (t : OscTick) (st : PhaseStep) (c : Channel) : Channel :=
  let c := insBlep (crossing st t.incs 0) (fmul t.vs fMinusTwo) c
  insBlep (crossing st t.incs (2 ^ 31)) (fmul t.vs fTwo) c

/-- The sync event (R394): one step from the value at the sync instant to W(0). -/
def OscTick.insertSync (t : OscTick) (p2Old : Word) (d1 : F32) (inc2 : Word) (c : Channel) : Channel :=
  c.blepIns d1 (fmul t.v2 (fsub (t.wave 0) (t.wave (t.syncInstantPhase p2Old d1 inc2))))

/-- The corrected output of a substep (R390). -/
def Channel.correctedOut (c : Channel) : F32 := fadd (fadd c.dly c.c0) c.rdly

/-- The state it leaves: the corrections move up, lin and ring are delayed (R390). -/
def Channel.correctedShift (c : Channel) (lin ring : F32) : Channel :=
  { c with c0 := c.c1, c1 := fPlusZero, dly := lin, rdly := ring }

/-! ## The mix (R388) -/

def OscTick.lin (t : OscTick) (sub wave1 wave2 : F32) : F32 :=
  fadd (fadd (fmul t.vs sub) (fmul t.v1 wave1)) (fmul t.v2 wave2)

def OscTick.ring (t : OscTick) (wave1 wave2 : F32) : F32 := fmul t.vr (fmul wave1 wave2)

/-! ## The substep (R389) -/

/-- A lane in the middle of a tick: its state, and whether a wrap and a sync have occurred. -/
structure OscRun where
  chan : Channel
  anyWrap : Bool
  anySync : Bool
  deriving DecidableEq, Repr

/-- The phases and waveform values of one substep (R389), from the state before it. -/
structure OscValues where
  st1 : PhaseStep
  sts : PhaseStep
  st2 : PhaseStep
  inc2 : Word
  synced : Bool
  d1 : F32
  p2 : Word
  lin : F32
  ring : F32
  deriving DecidableEq, Repr

def OscTick.values (t : OscTick) (c : Channel) : OscValues :=
  let st1 := paStep c.p1 t.inc1
  let sts := paStep c.ps t.incs
  let wave1 := t.wave st1.new
  let inc2 := t.modulated wave1
  let st2 := paStep c.p2 inc2
  let synced := t.sync && st1.wrap
  let d1 := syncFraction st1 t.inc1
  let p2 := if synced then t.syncPhase d1 inc2 else st2.new
  let wave2 := t.wave p2
  { st1 := st1, sts := sts, st2 := st2, inc2 := inc2, synced := synced, d1 := d1, p2 := p2
    lin := t.lin (subWave sts.new) wave1 wave2, ring := t.ring wave1 wave2 }

/-- The corrections of one substep in the order of R395; `p2Old` is P2 before it. -/
def OscTick.insertAll (t : OscTick) (v : OscValues) (p2Old : Word) (c : Channel) : Channel :=
  let c := t.insertOsc v.st1 t.inc1 t.v1 c
  let c := t.insertSub v.sts c
  if v.synced then t.insertSync p2Old v.d1 v.inc2 c else t.insertOsc v.st2 v.inc2 t.v2 c

/-- substep(k, corrected) (R389). -/
def OscTick.substep (t : OscTick) (var : OscVariant) (r : OscRun) (k : Nat) : OscRun :=
  let v := t.values r.chan
  let c := { r.chan with p1 := v.st1.new, ps := v.sts.new, p2 := v.p2 }
  let out : F32 × Channel :=
    match var with
    | .plain => (fadd v.lin v.ring, c)
    | .corr =>
      let c := t.insertAll v r.chan.p2 c
      (c.correctedOut, c.correctedShift v.lin v.ring)
  { chan := { out.2 with osc := out.2.osc.writeInput k out.1 }
    anyWrap := r.anyWrap || v.st1.wrap
    anySync := r.anySync || v.synced }

/-- The R substeps of a tick. -/
def OscTick.run (t : OscTick) (var : OscVariant) (n : Nat) (c : Channel) : OscRun :=
  (List.range n).foldl (t.substep var) { chan := c, anyWrap := false, anySync := false }

/-- One tick of one lane: its substeps, then the OSC cascade (R400). -/
def oscTickLane (cfg : Configuration) (g : Globals) (var : OscVariant) (c : Channel) : LaneOut :=
  let r := (oscTickValues g c.par).run var g.substeps c
  let y := cascade cfg g.osr r.chan.osc
  { chan := { r.chan with osc := y.2 }, res := some y.1, wrap := some r.anyWrap, synced := some r.anySync }

/-- OSC_TICK (R400). -/
def execOscTick (b : Batch) (m : LaneMask) (var : OscVariant) (s : State) : Host.Outcome State Fault Refusal :=
  .next (s.forLanes b m (fun l => oscTickLane s.cfg s.glob var (s.channel b l))).complete

end Sys2Proof.Machine
end

