-- ==== Sys2Proof/Machine/Dispatch.lean ====
section
/-! DEFINITION. From each command to its meaning, one arm per constructor of `Instr` (30_encoding.md R157). -/

namespace Sys2Proof.Machine

def exec (i : Instr) (s : State) : Host.Outcome State Fault Refusal :=
  match i with
  | .nop => Sys2Proof.Machine.execNop s
  | .rstAll => Sys2Proof.Machine.execRstAll s
  | .rstOsc b m => Sys2Proof.Machine.execRstOsc b m s
  | .rstDec b m dsel => Sys2Proof.Machine.execRstDec b m dsel s
  | .rstFlt b m => Sys2Proof.Machine.execRstFlt b m s
  | .rstSat b m => Sys2Proof.Machine.execRstSat b m s
  | .wrParam b m pid => Sys2Proof.Machine.execWrParam b m pid s
  | .rdParam b m pid => Sys2Proof.Machine.execRdParam b m pid s
  | .wrGlobal gid => Sys2Proof.Machine.execWrGlobal gid s
  | .rdGlobal gid => Sys2Proof.Machine.execRdGlobal gid s
  | .rdState b m sid idx => Sys2Proof.Machine.execRdState b m sid idx s
  | .paAdd b m asel => Sys2Proof.Machine.execPaAdd b m asel s
  | .paLoad b m asel => Sys2Proof.Machine.execPaLoad b m asel s
  | .blepIns b m kind => Sys2Proof.Machine.execBlepIns b m kind s
  | .blepProc b m => Sys2Proof.Machine.execBlepProc b m s
  | .sat b m => Sys2Proof.Machine.execSat b m s
  | .decWr b m inst idx => Sys2Proof.Machine.execDecWr b m inst idx s
  | .decProc b m inst log2n => Sys2Proof.Machine.execDecProc b m inst log2n s
  | .oscTick b m var => Sys2Proof.Machine.execOscTick b m var s
  | .fltTick b m meth => Sys2Proof.Machine.execFltTick b m meth s

end Sys2Proof.Machine
end

