-- ==== Sys2Proof/Machine/Bus.lean ====
section
/-! DEFINITION. The host register window (20_memory.md): the register map, the checks on an access, and serving one access,
a write of CMD among them. -/

namespace Sys2Proof.Machine

/-- The registers of the window (R101). -/
inductive HostReg where
  | cmd
  | status
  | id
  | opa (l : Lane)
  | opb (l : Lane)
  | res (l : Lane)
  deriving DecidableEq, Repr

/-- Byte offsets (R101). -/
def HostReg.offset : HostReg → BitVec 12
  | .cmd => 0x000
  | .status => 0x004
  | .id => 0x008
  | .opa l => BitVec.ofNat 12 (0x010 + 4 * l.val)
  | .opb l => BitVec.ofNat 12 (0x020 + 4 * l.val)
  | .res l => BitVec.ofNat 12 (0x030 + 4 * l.val)

def HostReg.all : List HostReg :=
  [.cmd, .status, .id] ++ lanes.map .opa ++ lanes.map .opb ++ lanes.map .res

/-- The register mapped at an offset; every other offset is unmapped (R101). -/
def HostReg.at? (off : BitVec 12) : Option HostReg := HostReg.all.find? (fun r => r.offset == off)

/-- The host address of an offset (R100). -/
def hostAddress (off : BitVec 12) : Nat := Config.musxBase + off.toNat

/-- What a read of a mapped register returns; CMD cannot be read (R101). -/
def State.readReg (s : State) : HostReg → Option Word
  | .cmd => none
  | .status => some s.status.word
  | .id => some idWord
  | .opa l => some (s.opaOf l)
  | .opb l => some (s.opbOf l)
  | .res l => some (s.resOf l)

def State.setOpa (s : State) (l : Lane) (v : Word) : State := { s with opa := s.opa.set l.val v }
def State.setOpb (s : State) (l : Lane) (v : Word) : State := { s with opb := s.opb.set l.val v }

/-- The access is 32 bits wide and 4-byte aligned (R105, R106). -/
def accessShape (off : BitVec 12) (bytes : Nat) : Bool := bytes == 4 && off.extractLsb' 0 2 == 0

/-- A bad access: STATUS.ERR ← BAD_ACCESS, a write is discarded, a read returns 0, nothing else changes (R107,
60_exceptions.md R484). -/
def State.badAccess (s : State) (reply : Option Word) : Host.Outcome State Fault Refusal :=
  .next { (s.raise .badAccess) with reply := reply }

/-- execute_command(w) (30_encoding.md R140): the checks on the word reject it, or its command runs. -/
def executeCommand (w : Word) (s : State) : Host.Outcome State Fault Refusal :=
  match decode w with
  | .rejected e => .next (s.raise e)
  | .command i => exec i s

/-- access(kind, off, n, v) (R103). The reply is the word returned to the host, none for a write. -/
def serve (a : HostAccess) (s : State) : Host.Outcome State Fault Refusal :=
  match a with
  | .read off bytes =>
    match (if accessShape off bytes then (HostReg.at? off).bind s.readReg else none) with
    | some v => .next { s with reply := some v }
    | none => s.badAccess (some 0)
  | .write off bytes data =>
    match (if accessShape off bytes then HostReg.at? off else none) with
    | some .cmd => executeCommand data { s with reply := none }
    | some (.opa l) => .next { (s.setOpa l data) with reply := none }
    | some (.opb l) => .next { (s.setOpb l data) with reply := none }
    | some .status => s.badAccess none
    | some .id => s.badAccess none
    | some (.res _) => s.badAccess none
    | none => s.badAccess none

/-- One host access: the oldest one issued and not yet served. Without one the core idles and changes nothing
(60_exceptions.md R495, entry 3). -/
def serveNext (s : State) : Host.Outcome State Fault Refusal :=
  match s.bus with
  | [] => .next s
  | a :: rest => serve a { s with bus := rest }

/-- The host's write of a command word to CMD (10_state.md R42). -/
def cmdWrite (w : Word) : HostAccess := .write 0x000 4 w

end Sys2Proof.Machine
end

