-- ==== Sys2Proof/Machine/Step.lean ====
section
/-! DEFINITION. One step of the machine: the core serves one host access (00_scope.md R9, 20_memory.md R108). -/

namespace Sys2Proof.Machine

def step (s : State) : Host.Outcome State Fault Refusal := serveNext s

/-- `s` with a write of the command word to CMD as the host's next access, before any other it has issued. The word's
bits above `nbits` are zero (entry 2). -/
def State.withFetchWord (s : State) (nbits w : Nat) : State :=
  { s with bus := cmdWrite (BitVec.ofNat 32 (w % 2 ^ nbits)) :: s.bus }

end Sys2Proof.Machine
end

