-- ==== Sys2Proof/Machine/Assembler.lean ====
section
/-! DEFINITION. The host's statements as accesses: `st`, `ld`, command statements and the pseudo-instructions
(30_encoding.md R170 to R173). The text of the notation is not parsed (entry 18). -/

namespace Sys2Proof.Machine

/-- `st REG, value` (R170). -/
def hostStore (r : HostReg) (v : Word) : List HostAccess := [.write r.offset 4 v]

/-- `ld REG` (R170). -/
def hostLoad (r : HostReg) : List HostAccess := [.read r.offset 4]

/-- A command statement stands for `st CMD, <word>` (R170, R171). -/
def command (i : Instr) : List HostAccess := [cmdWrite (encode i)]

/-- `st OPA0..OPA3` with a value each. -/
def stOperands (v0 v1 v2 v3 : Word) : List HostAccess :=
  hostStore (.opa 0) v0 ++ hostStore (.opa 1) v1 ++ hostStore (.opa 2) v2 ++ hostStore (.opa 3) v3

/-- `set.param b, m, pid, v0, v1, v2, v3` (R173). -/
def setParam4 (b : Batch) (m : LaneMask) (pid : ParamId) (v0 v1 v2 v3 : Word) : List HostAccess :=
  stOperands v0 v1 v2 v3 ++ command (.wrParam b m pid)

/-- `set.param b, m, pid, v` (R173). -/
def setParam (b : Batch) (m : LaneMask) (pid : ParamId) (v : Word) : List HostAccess := setParam4 b m pid v v v v

/-- `set.global gid, v` (R173). -/
def setGlobal (gid : GlobalId) (v : Word) : List HostAccess := hostStore (.opa 0) v ++ command (.wrGlobal gid)

/-- `set.osr L` (R173). -/
def setOsrTo (l : Word) : List HostAccess := hostStore (.opa 0) l ++ command (.wrGlobal .osrLog2)

/-- `rst.dec.all` (R173). -/
def rstDecAll : List HostAccess :=
  command (.rstDec 0 0xF .both) ++ command (.rstDec 1 0xF .both) ++ command (.rstDec 2 0xF .both)
    ++ command (.rstDec 3 0xF .both)

/-- `chk` (R173). -/
def chk : List HostAccess := hostLoad .status

/-- `.rept n` … `.endr` (R173): a repetition by the host. -/
def rept : Nat → List HostAccess → List HostAccess
  | 0, _ => []
  | n + 1, body => body ++ rept n body

/-- The host issues a list of accesses after those it has already issued (20_memory.md R120). -/
def State.issue (s : State) (as : List HostAccess) : State := { s with bus := s.bus ++ as }

end Sys2Proof.Machine
end

