-- ==== Sys2Proof/Safety.lean ====
section
/-! DEFINITION. The words the statements use: what a state keeps in every run (the invariant), what a command on a lane mask
may change, and which host accesses are bad. -/

namespace Sys2Proof.Machine

/-! ## The invariant -/

/-- The restricted entries of the parameter file hold stored values only (10_state.md R57, R58). -/
def Params.legal (p : Params) : Bool :=
  p.sync.toNat ≤ 1 && p.saten.toNat ≤ 1 && p.topo.toNat ≤ 2 && p.tap.toNat ≤ 2

/-- A stage with a ring of `size` slots: the ring is in canonical form and inside its size, and so is its index
(10_state.md R74). -/
def Stage.legal (size : Nat) (st : Stage) : Bool := st.buf.wf && st.buf.below size && st.w.toNat < size

/-- A decimator instance: its input array and its ten stages (10_state.md R74). -/
def Decimator.legal (cfg : Configuration) (d : Decimator) : Bool :=
  d.input.wf && d.input.below inLen
    && stageNumbers.all (fun j => Stage.legal (ringSize cfg j.val) (d.stage j.val))

/-- One lane. PREV holds a sanitized sample (10_state.md R72). -/
def Channel.legal (cfg : Configuration) (c : Channel) : Bool :=
  c.par.legal && c.osc.legal cfg && c.flt.legal cfg && sanitize c.prev == c.prev

/-- What every step keeps: a well-formed configuration (00_scope.md R11), an error code that the spec writes
(60_exceptions.md R480: codes 7 to 15 are never written), a legal OSR_LOG2 (10_state.md R51), and legal lanes. -/
def State.Legal (s : State) : Prop :=
  configWellFormed s.cfg = true ∧ s.status.err.toNat ≤ 6 ∧ s.glob.osrLog2.toNat ≤ 10
    ∧ ∀ (b : Batch) (l : Lane), (s.channel b l).legal s.cfg = true

/-! ## Frames -/

/-- From s to t nothing changes but the lanes of M in batch b, their RES registers and STATUS: every other lane of every
batch, RES[l] of every other lane, OPA, OPB, the globals, the configuration and the host's side are as they were
(30_encoding.md R142, R143; 10_state.md R41). -/
def State.OnlyLanes (s t : State) (b : Batch) (m : LaneMask) : Prop :=
  t.cfg = s.cfg ∧ t.opa = s.opa ∧ t.opb = s.opb ∧ t.glob = s.glob ∧ t.bus = s.bus ∧ t.reply = s.reply
    ∧ (∀ (b' : Batch) (l : Lane), ¬ (b' = b ∧ laneBit m l = true) → t.channel b' l = s.channel b' l)
    ∧ (∀ l : Lane, laneBit m l = false → t.resOf l = s.resOf l)

/-- STATUS after a completed command that writes no flag: ERR ← 0, WRAP and SYNCED kept. -/
def State.StatusOk (s t : State) : Prop :=
  t.status.err = 0 ∧ t.status.wrap = s.status.wrap ∧ t.status.synced = s.status.synced

/-- Every RES register is as it was. -/
def State.ResKept (s t : State) : Prop := ∀ l : Lane, t.resOf l = s.resOf l

/-- WRAP bits of lanes outside M are as they were (10_state.md R46). -/
def State.WrapOnly (s t : State) (m : LaneMask) : Prop :=
  ∀ l : Lane, laneBit m l = false → laneBit t.status.wrap l = laneBit s.status.wrap l

/-- SYNCED bits of lanes outside M are as they were (10_state.md R47). -/
def State.SyncedOnly (s t : State) (m : LaneMask) : Prop :=
  ∀ l : Lane, laneBit m l = false → laneBit t.status.synced l = laneBit s.status.synced l

/-- s with STATUS.ERR alone set to a code (60_exceptions.md R482). -/
def State.withErr (s : State) (code : BitVec 4) : State := { s with status := { s.status with err := code } }

/-! ## Host accesses -/

/-- Whether a byte offset is one of the mapped registers of 20_memory.md R101. -/
def offsetMapped (off : Nat) : Bool :=
  off == 0x000 || off == 0x004 || off == 0x008 || (0x010 ≤ off && off < 0x040 && off % 4 == 0)

/-- The bad accesses as 60_exceptions.md R484 lists them. -/
def HostAccess.bad : HostAccess → Bool
  | .read off bytes => bytes != 4 || off.toNat % 4 != 0 || !offsetMapped off.toNat || off == 0x000
  | .write off bytes _ =>
    bytes != 4 || off.toNat % 4 != 0 || !offsetMapped off.toNat
      || off == 0x004 || off == 0x008 || (0x030 ≤ off.toNat && off.toNat < 0x040)

/-- What a bad access returns: 0 to a read, nothing to a write (20_memory.md R107). -/
def HostAccess.badReply : HostAccess → Option Word
  | .read _ _ => some 0
  | .write _ _ _ => none

/-! ## Commands -/

end Sys2Proof.Machine

namespace Sys2Proof

/-- The same command on another lane mask; the commands without one are unchanged. -/
def Instr.withMask (i : Instr) (m : LaneMask) : Instr :=
  match i with
  | .nop => .nop
  | .rstAll => .rstAll
  | .rstOsc b _ => .rstOsc b m
  | .rstDec b _ d => .rstDec b m d
  | .rstFlt b _ => .rstFlt b m
  | .rstSat b _ => .rstSat b m
  | .wrParam b _ p => .wrParam b m p
  | .rdParam b _ p => .rdParam b m p
  | .wrGlobal g => .wrGlobal g
  | .rdGlobal g => .rdGlobal g
  | .rdState b _ sid idx => .rdState b m sid idx
  | .paAdd b _ a => .paAdd b m a
  | .paLoad b _ a => .paLoad b m a
  | .blepIns b _ k => .blepIns b m k
  | .blepProc b _ => .blepProc b m
  | .sat b _ => .sat b m
  | .decWr b _ d idx => .decWr b m d idx
  | .decProc b _ d n => .decProc b m d n
  | .oscTick b _ v => .oscTick b m v
  | .fltTick b _ k => .fltTick b m k

/-- The batch a command acts on; NOP, RST_ALL and the global commands belong to none (30_encoding.md R141). -/
def Instr.batch? : Instr → Option Batch
  | .nop => none
  | .rstAll => none
  | .wrGlobal _ => none
  | .rdGlobal _ => none
  | .rstOsc b _ => some b
  | .rstDec b _ _ => some b
  | .rstFlt b _ => some b
  | .rstSat b _ => some b
  | .wrParam b _ _ => some b
  | .rdParam b _ _ => some b
  | .rdState b _ _ _ => some b
  | .paAdd b _ _ => some b
  | .paLoad b _ _ => some b
  | .blepIns b _ _ => some b
  | .blepProc b _ => some b
  | .sat b _ => some b
  | .decWr b _ _ _ => some b
  | .decProc b _ _ _ => some b
  | .oscTick b _ _ => some b
  | .fltTick b _ _ => some b

end Sys2Proof

namespace Sys2Proof.Machine

/-! ## Decimators at rest -/

/-- A decimator whose input array and rings hold +0.0 only; the write indices may stand anywhere. -/
def Decimator.Silent (d : Decimator) : Prop :=
  d.input = Memory.empty ∧ ∀ j : Fin 10, (d.stage j.val).buf = Memory.empty

/-! ## Command words -/

/-- The OP values R159 lists as illegal. -/
def illegalOps : List Nat :=
  [0x06, 0x07, 0x0D, 0x0E, 0x0F, 0x12, 0x13, 0x16, 0x17, 0x19, 0x1A, 0x1B, 0x1E, 0x1F, 0x21, 0x22, 0x23]
    ++ (List.range 27).map (fun i => 0x25 + i)

/-- How many elements the state item of a SID number has, 0 for a number that names none (10_state.md R77). -/
def itemCount (cfg : Configuration) (sid : Nat) : Nat :=
  if sid ≤ 0x06 then 1
  else if sid = 0x07 then 4
  else if sid ≤ 0x09 then 1
  else if sid = 0x10 ∨ sid = 0x11 then 1024
  else if 0x40 ≤ sid ∧ sid ≤ 0x49 then ringSize cfg (sid - 0x40)
  else if 0x50 ≤ sid ∧ sid ≤ 0x59 then ringSize cfg (sid - 0x50)
  else if 0x60 ≤ sid ∧ sid ≤ 0x69 then 1
  else if 0x70 ≤ sid ∧ sid ≤ 0x79 then 1
  else 0

/-- The illegal field values as 30_encoding.md R160 lists them, on the numbers in the word. -/
def fieldsBad (cfg : Configuration) (op : Opcode) (w : Word) : Prop :=
  let pid := (idField w).toNat
  let sel := (selField w).toNat
  match op with
  | .wrParam => ¬ (pid ≤ 0x09 ∨ (0x10 ≤ pid ∧ pid ≤ 0x14))
  | .rdParam => ¬ (pid ≤ 0x09 ∨ (0x10 ≤ pid ∧ pid ≤ 0x14))
  | .wrGlobal => ¬ pid ≤ 0x03
  | .rdGlobal => ¬ (pid ≤ 0x03 ∨ pid = 0x08)
  | .rdState => itemCount cfg (sidField w).toNat ≤ (stateIdxField w).toNat
  | .paAdd => sel = 3
  | .paLoad => sel = 3
  | .rstDec => sel = 3
  | .decWr => 2 ≤ sel
  | .decProc => 2 ≤ sel ∨ 10 < (log2nField w).toNat
  | .fltTick => (methField w).toNat = 3
  | _ => False

/-! ## Numbers -/

/-- The exact value of a finite binary32 number. -/
def fValue (v : F32) : ℚ := (fScaled v : ℚ) / 2 ^ 149

/-- r is a binary32 number nearest to the real number v: no finite number is nearer. -/
def Nearest (r : F32) (v : ℝ) : Prop :=
  ∀ y : F32, isFinite y = true → |(fValue r : ℝ) - v| ≤ |(fValue y : ℝ) - v|

/-- Where another number is as near to v as r is, the last bit of r is 0: ties go to the even significand. -/
def TiesToEven (r : F32) (v : ℝ) : Prop :=
  ∀ y : F32, isFinite y = true → |(fValue y : ℝ) - v| = |(fValue r : ℝ) - v| → fValue y ≠ fValue r → r.getLsbD 0 = false

/-- The least size that rounds to an infinity: half a unit past the largest finite number. -/
def overflowBound : ℝ := (2 ^ 25 - 1) * 2 ^ 103

/-- r is v rounded to nearest, ties to even (00_scope.md R18): never a NaN; an infinity exactly from `overflowBound` on,
and a finite number nearest to v otherwise; with the sign of v where v is not 0. -/
def RoundsTo (r : F32) (v : ℝ) : Prop :=
  isNaN r = false
    ∧ (isInf r = true ↔ overflowBound ≤ |v|)
    ∧ (isFinite r = true → Nearest r v ∧ TiesToEven r v)
    ∧ (v ≠ 0 → (fSign r = true ↔ v < 0))

/-- n is the integer nearest to the real number v, the even one of two. -/
def NearestInteger (n : ℤ) (v : ℝ) : Prop :=
  |(n : ℝ) - v| ≤ 1 / 2 ∧ (|(n : ℝ) - v| = 1 / 2 → Even n)

/-! ## The formulas of the engines

Written out from the spec apart from the model's own functions, so that a statement about an engine does not rest on the
name of the function that computes it. Literals among binary32 operands are binary32 numbers (DEDUCED, entry 15). -/

/-- sat(v) (44_waveshaper.md R350). -/
def satFormula (v : F32) : F32 :=
  if isNaN v then 0x7FC00000
  else if fgeq (fabs v) 0x4B800000 then (if fSign v then 0xBF800000 else 0x3F800000)
  else fdiv v (fsqrt (fadd 0x3F800000 (fmul v v)))

/-- F(v), the antiderivative of sat (44_waveshaper.md R351). -/
def satIntegralFormula (v : F32) : F32 :=
  if isNaN v then 0x7FC00000
  else if fgeq (fabs v) 0x4B800000 then fabs v
  else fsqrt (fadd 0x3F800000 (fmul v v))

/-- The output of adaa(v) with XP = xp (44_waveshaper.md R352). -/
def adaaFormula (xp v : F32) : F32 :=
  let dx := fsub v xp
  if fgreater (fabs dx) 0x3A800000 then fdiv (fsub (satIntegralFormula v) (satIntegralFormula xp)) dx
  else satFormula (fmul (fadd v xp) 0x3F000000)

/-- inp(time) by the formula of 46_ode_filter.md R435, not by its remark on inp(0) and inp(1) (DEDUCED, entry 12). -/
def inputAt (prev cur time : F32) : F32 := fadd prev (fmul time (fsub cur prev))

/-- A parameter used in [0, 1] (45_oscillator.md R380, R381). -/
def unitParam (v : Word) : F32 := fclamp v 0x00000000 0x3F800000

/-- Δ (45_oscillator.md R382). -/
def deltaFormula (par : Params) : ℕ :=
  (f2uSat (fmul (fmul (fadd (fclamp par.pw 0xBF800000 0x3F800000) 0x3F800000) 0x3F000000) 0x4F800000) 0 4294967295).toNat

/-- wtri, wsaw and wsq (45_oscillator.md R383). -/
def weightFormulas (par : Params) : F32 × F32 × F32 :=
  let sh := fclamp par.shape 0xBF800000 0x3F800000
  (if fless sh 0x00000000 then fneg sh else 0x00000000, fsub 0x3F800000 (fabs sh),
    if fless 0x00000000 sh then sh else 0x00000000)

/-- W(p) (45_oscillator.md R384). -/
def waveFormula (par : Params) (p : Word) : F32 :=
  let x := fmul (i2f p.toInt) (fPow2 (-31))
  let tri := fsub (fmul (fabs x) 0x40000000) 0x3F800000
  let sq : F32 := if deltaFormula par ≠ 0 ∧ 2 ^ 32 - deltaFormula par ≤ (p ^^^ 0x80000000).toNat then 0x3F800000
    else 0xBF800000
  fadd (fadd (fmul (weightFormulas par).1 tri) (fmul (weightFormulas par).2.1 x)) (fmul (weightFormulas par).2.2 sq)

/-! ## The corrections of one substep -/

/-- Corrections inserted in order, each where its event is crossed (45_oscillator.md R391, R395), by the formulas of
43_blep_blamp.md R321 and R322. -/
def insertEvents : List (BlepKind × Option F32 × F32) → Channel → Channel
  | [], c => c
  | (_, none, _) :: rest, c => insertEvents rest c
  | (.blep, some d, a) :: rest, c =>
    let e := fsub 0x3F800000 d
    insertEvents rest { c with
      c0 := fadd c.c0 (fmul a (fmul (fmul d d) 0x3F000000))
      c1 := fsub c.c1 (fmul a (fmul (fmul e e) 0x3F000000)) }
  | (.blamp, some d, a) :: rest, c =>
    let e := fsub 0x3F800000 d
    insertEvents rest { c with
      c0 := fadd c.c0 (fmul a (fdiv (fmul (fmul d d) d) 0x40C00000))
      c1 := fadd c.c1 (fmul a (fdiv (fmul (fmul e e) e) 0x40C00000)) }

/-- The events of one oscillator in a substep, with its step, increment and volume (45_oscillator.md R391, R393). -/
def oscEvents (par : Params) (st : PhaseStep) (inc : Word) (vol : F32) : List (BlepKind × Option F32 × F32) :=
  let g := fmul (i2f inc.toNat) (fPow2 (-29))
  let w := weightFormulas par
  let dlt := deltaFormula par
  [(.blep, crossing st inc 0, fmul vol (fmul (fadd w.2.1 (if dlt ≠ 0 then w.2.2 else 0x00000000)) 0xC0000000)),
    (.blamp, crossing st inc 0, fmul vol (fmul w.1 (fneg g))),
    (.blamp, crossing st inc (2 ^ 31), fmul vol (fmul w.1 g))]
  ++ (if dlt ≠ 0 then [(.blep, crossing st inc (2 ^ 32 - dlt), fmul vol (fmul w.2.2 0x40000000))] else [])

/-- INC_MAX(L) (00_scope.md R12). -/
def incMaxFormula (g : Globals) : ℤ := (2 ^ (31 - g.osrLog2.toNat) - 1 : ℕ)

/-- The phases and waveform values of one substep of the oscillator from the lane before it (45_oscillator.md R385 to R389).
The increments are the tick's (R380), and the sync value is the reference formula of R387 (entry 13). -/
def oscFormulas (g : Globals) (par : Params) (x : Channel) : OscValues :=
  let inc1 := increment g par.freq1
  let st1 := paStep x.p1 inc1
  let sts := paStep x.ps (inc1 >>> 1)
  let sub : F32 := if 0 ≤ sts.new.toInt then 0x3F800000 else 0xBF800000
  let wave1 := waveFormula par st1.new
  let inc2 := BitVec.ofInt 32 (f2uSat (fmul (i2f (increment g par.freq2).toNat)
    (fadd 0x3F800000 (fmul (unitParam par.fmamt) wave1))) 0 (incMaxFormula g))
  let st2 := paStep x.p2 inc2
  let synced := par.sync.getLsbD 0 && st1.wrap
  let d1 := fdiv (i2f ((st1.uSum : ℤ) - 2 ^ 32)) (i2f inc1.toNat)
  let p2 := if synced then BitVec.ofInt 32 (f2uSat (fmul d1 (i2f inc2.toNat)) 0 (incMaxFormula g)) else st2.new
  let wave2 := waveFormula par p2
  { st1 := st1, sts := sts, st2 := st2, inc2 := inc2, synced := synced, d1 := d1, p2 := p2
    lin := fadd (fadd (fmul (unitParam par.volsub) sub) (fmul (unitParam par.vol1) wave1))
      (fmul (unitParam par.vol2) wave2)
    ring := fmul (unitParam par.volring) (fmul wave1 wave2) }

/-- The events of one corrected substep in the order of R395, from its values and P2 before it (45_oscillator.md R391 to
R395; the sync event is that of R394, entry 13). -/
def substepEvents (g : Globals) (par : Params) (v : OscValues) (p2Old : Word) : List (BlepKind × Option F32 × F32) :=
  let inc1 := increment g par.freq1
  let incs := inc1 >>> 1
  let vs := unitParam par.volsub
  let v2 := unitParam par.vol2
  let pe := p2Old + BitVec.ofInt 32 (f2uSat (fmul (fsub 0x3F800000 v.d1) (i2f v.inc2.toNat)) 0 (incMaxFormula g))
  oscEvents par v.st1 inc1 (unitParam par.vol1)
    ++ [(.blep, crossing v.sts incs 0, fmul vs 0xC0000000), (.blep, crossing v.sts incs (2 ^ 31), fmul vs 0x40000000)]
    ++ (if v.synced then [(.blep, some v.d1, fmul v2 (fsub (waveFormula par 0) (waveFormula par pe)))]
      else oscEvents par v.st2 v.inc2 v2)

/-- One substep of a lane of OSC_TICK (45_oscillator.md R389, R390, R397), in either variant, as a relation: x is the lane
before it, x' the lane after it but for IN, and y the sample it writes to IN. -/
def OscSubstep (g : Globals) (par : Params) (var : OscVariant) (x x' : Channel) (y : F32) : Prop :=
  let v := oscFormulas g par x
  let moved := { x with p1 := v.st1.new, ps := v.sts.new, p2 := v.p2 }
  match var with
  | .plain => y = fadd v.lin v.ring ∧ x' = moved
  | .corr =>
    let c := insertEvents (substepEvents g par v x.p2) moved
    y = fadd (fadd c.dly c.c0) c.rdly ∧ x' = { c with c0 := c.c1, c1 := 0x00000000, dly := v.lin, rdly := v.ring }

/-- Substep k of a lane of FLT_TICK (46_ode_filter.md R440 to R442) with the tick's values t, as a relation: x is the lane
before it, x' the lane after it but for IN, and y the sample it writes to IN. -/
def FltSubstep (t : FltTick) (meth : OdeMethod) (k : ℕ) (x x' : Channel) (y : F32) : Prop :=
  let v := t.integrate meth k x.x
  let aEnd := fsub (inputAt t.prev t.cur (fmul (i2f (k + 1 : ℕ)) (fPow2 (-(t.l : ℤ))))) (fmul t.kf (entry v (t.n - 1)))
  let tap := t.output v aEnd
  y = (if t.saten then adaaFormula x.xp tap else tap) ∧ x' = { x with x := v, xp := if t.saten then tap else x.xp }

/-- The values of a tick of FLT_TICK (46_ode_filter.md R431 to R433) from the globals, the lane and the sanitized input;
a TOPO or TAP above 2, which no run reaches, is read as entry 8 says. -/
def fltTickFormulas (g : Globals) (c : Channel) (cur : F32) : FltTick :=
  { n := if c.par.topo = 0 then 1 else if c.par.topo = 1 then 2 else 4
    cur := cur
    prev := c.prev
    w := fclamp (fmul (fdiv (fmul 0x40C90FDB (fclamp c.par.cutoff 0x00000000 0x4B800000))
      (fclamp g.fs 0x3F800000 0x4B800000)) (fPow2 (-(g.osrLog2.toNat : ℤ)))) 0x00000000 0x3F800000
    kf := fclamp c.par.reso 0x00000000 0x40800000
    tap := if c.par.tap = 0 then .lp else if c.par.tap = 1 then .hp else .bp
    saten := c.par.saten.getLsbD 0
    l := g.osrLog2.toNat }

end Sys2Proof.Machine
end

