-- ==== Sys2Proof/Certificates/Slice0/Obligations.lean ====
section
/-! DEFINITION. The statements for the provers. Each docstring names the rule or the section it formalises; a statement
whose hypotheses could fail has its witness in Tests/Slice0.lean. -/

open Sys2Proof Sys2Proof.Machine

/-! ## Encoding -/

/-- Every well-formed command decodes from its word to itself (30_encoding.md R141 to R157). -/
def Obligations.DecodeOfEncode : Prop :=
  ∀ i : Instr, i.WellFormed → decode (encode i) = .command i

/-- A word that decodes is the word of the command it decodes to, and that command is well formed: each word has one
meaning and no bit of it is dropped (30_encoding.md R140 to R157). -/
def Obligations.EncodeOfDecode : Prop :=
  ∀ (w : Word) (i : Instr), decode w = .command i → i.WellFormed ∧ encode i = w

/-- Words written out in the spec decode to the commands they stand for (30_encoding.md R171 and the examples of the
command rules). -/
def Obligations.SampleWordsDecode : Prop :=
  decode 0x09500000 = .command (.rstOsc 1 0x5) ∧ decode 0x0CF80000 = .command (.rstDec 0 0xF .both)
    ∧ decode 0x20100000 = .command (.wrParam 0 0x1 .freq1) ∧ decode 0x21100002 = .command (.wrParam 1 0x1 .shape)
    ∧ decode 0x2C000008 = .command (.rdGlobal .id) ∧ decode 0x30107002 = .command (.rdState 0 0x1 .x 2)
    ∧ decode 0x40180000 = .command (.paAdd 0 0x1 .ps) ∧ decode 0x44240000 = .command (.paLoad 0 0x2 .p2)
    ∧ decode 0x50100001 = .command (.blepIns 0 0x1 .blamp) ∧ decode 0x60100000 = .command (.sat 0 0x1)
    ∧ decode 0x70140005 = .command (.decWr 0 0x1 .flt 5) ∧ decode 0x74100003 = .command (.decProc 0 0x1 .osc 3)
    ∧ decode 0x80F00001 = .command (.oscTick 0 0xF .corr) ∧ decode 0x92300002 = .command (.fltTick 2 0x3 .rk4)

/-- R159: the 44 unlisted OP values are ILLEGAL_OP (code 1) and the listed ones are not; a reserved-zero bit that is set
is RESERVED_BITS (code 2); neither executes as anything: only STATUS.ERR changes. -/
def Obligations.IllegalAndReservedEncodings : Prop :=
  (∀ w : Word, decode w = .rejected .illegalOp ↔ (opField w).toNat ∈ illegalOps)
    ∧ illegalOps.length = 44
    ∧ (∀ (w : Word) (op : Opcode), opField w = op.code → w &&& op.format.resvMask ≠ 0 →
        decode w = .rejected .reservedBits)
    ∧ (∀ (w : Word) (s : State), decode w = .rejected .illegalOp → executeCommand w s = .next (s.withErr 1))
    ∧ (∀ (w : Word) (s : State), decode w = .rejected .reservedBits → executeCommand w s = .next (s.withErr 2))

/-- R160: a word of a listed opcode with no reserved bit set ends with BAD_FIELD (code 3) exactly when one of the field
values that R160 lists stands in it, whatever its lane mask is. -/
def Obligations.BadFieldValues : Prop :=
  ∀ (w : Word) (op : Opcode) (s : State), configWellFormed s.cfg = true → opField w = op.code →
    w &&& op.format.resvMask = 0 →
    ((∃ t, executeCommand w s = .next t ∧ t.status.err = 3) ↔ fieldsBad s.cfg op w)

/-! ## Steps -/

/-- A step whose next access writes a command word to CMD is the command that the word decodes to, on the state with that
access served and no word returned (30_encoding.md R140, 10_state.md R42). The list of accesses and the reply are the model's own
fields, entry 1. -/
def Obligations.StepRunsDecodedCommand : Prop :=
  ∀ (s : State) (w : Word) (i : Instr) (rest : List HostAccess), s.bus = .write 0x000 4 w :: rest →
    decode w = .command i → step s = exec i { s with bus := rest, reply := none }

/-- A step whose next access writes to CMD a word that the decoder rejects changes STATUS.ERR alone, beside the host's
side (30_encoding.md R140, 60_exceptions.md R482). -/
def Obligations.StepOfRejectedWord : Prop :=
  ∀ (s : State) (w : Word) (e : ErrorCode) (rest : List HostAccess), s.bus = .write 0x000 4 w :: rest →
    decode w = .rejected e → step s = .next (State.withErr { s with bus := rest, reply := none } e.code)

/-- R107 for the bad accesses of R484: STATUS.ERR ← 6, a write is discarded, a read returns 0, nothing else changes. -/
def Obligations.BadAccessEffects : Prop :=
  ∀ (s : State) (a : HostAccess) (rest : List HostAccess), s.bus = a :: rest → a.bad = true →
    step s = .next (State.withErr { s with bus := rest, reply := a.badReply } 6)

/-- The readable registers of 20_memory.md R101: a 32-bit read returns the register, and changes nothing in the core
(R109). -/
def Obligations.ReadsReturnRegisters : Prop :=
  ∀ (s : State) (rest : List HostAccess),
    (s.bus = .read 0x004 4 :: rest → step s = .next { s with bus := rest, reply := some s.status.word })
    ∧ (s.bus = .read 0x008 4 :: rest → step s = .next { s with bus := rest, reply := some 0x4D555358 })
    ∧ (∀ l : Lane, s.bus = .read (BitVec.ofNat 12 (0x010 + 4 * l.val)) 4 :: rest →
        step s = .next { s with bus := rest, reply := some (s.opaOf l) })
    ∧ (∀ l : Lane, s.bus = .read (BitVec.ofNat 12 (0x020 + 4 * l.val)) 4 :: rest →
        step s = .next { s with bus := rest, reply := some (s.opbOf l) })
    ∧ (∀ l : Lane, s.bus = .read (BitVec.ofNat 12 (0x030 + 4 * l.val)) 4 :: rest →
        step s = .next { s with bus := rest, reply := some (s.resOf l) })

/-- A 32-bit write to OPA[l] or OPB[l] stores the word there and changes nothing else in the core (20_memory.md R101,
R109). -/
def Obligations.OperandWritesStore : Prop :=
  ∀ (s : State) (rest : List HostAccess) (l : Lane) (v : Word),
    (s.bus = .write (BitVec.ofNat 12 (0x010 + 4 * l.val)) 4 v :: rest →
      ∃ t, step s = .next t ∧ t = { s with bus := rest, reply := none, opa := t.opa }
        ∧ ∀ k : Lane, t.opaOf k = if k = l then v else s.opaOf k)
    ∧ (s.bus = .write (BitVec.ofNat 12 (0x020 + 4 * l.val)) 4 v :: rest →
      ∃ t, step s = .next t ∧ t = { s with bus := rest, reply := none, opb := t.opb }
        ∧ ∀ k : Lane, t.opbOf k = if k = l then v else s.opbOf k)

/-- With no access pending a step changes nothing (60_exceptions.md R495; the idle step is the model's, entry 3). -/
def Obligations.IdleStepKeepsState : Prop :=
  ∀ s : State, s.bus = [] → step s = .next s

/-- No step stops: every state has a next state (60_exceptions.md R483, R487, R488). -/
def Obligations.EveryStepAnswersNext : Prop :=
  ∀ s : State, ∃ t, step s = .next t

/-- R482: a command that ends with an error code has changed STATUS.ERR and nothing else. -/
def Obligations.RejectionChangesOnlyErr : Prop :=
  ∀ (w : Word) (s t : State), executeCommand w s = .next t → t.status.err ≠ 0 → t = s.withErr t.status.err

/-- The layout of STATUS in 10_state.md R43: ERR 3:0, WRAP 7:4, SYNCED 11:8, and 31:12 reading 0. -/
def Obligations.StatusWordLayout : Prop :=
  ∀ t : Status, t.word.extractLsb' 0 4 = t.err ∧ t.word.extractLsb' 4 4 = t.wrap ∧ t.word.extractLsb' 8 4 = t.synced
    ∧ t.word.extractLsb' 12 20 = 0

/-! ## Control commands -/

/-- R200: NOP writes STATUS.ERR ← 0 and changes nothing else. -/
def Obligations.NopClearsErr : Prop :=
  ∀ s : State, exec .nop s = .next (s.withErr 0)

/-- R201: RST_ALL zeroes the dynamic state and the decimators of every lane and STATUS, and keeps the parameter file, the
globals, OPA, OPB and RES. -/
def Obligations.RstAllZeroesDynamicState : Prop :=
  ∀ s : State, ∃ t, exec .rstAll s = .next t
    ∧ (∀ (b : Batch) (l : Lane), t.channel b l = { Channel.zero with par := (s.channel b l).par })
    ∧ t.status.err = 0 ∧ t.status.wrap = 0 ∧ t.status.synced = 0
    ∧ t.cfg = s.cfg ∧ t.glob = s.glob ∧ t.opa = s.opa ∧ t.opb = s.opb ∧ t.res = s.res ∧ t.bus = s.bus ∧ t.reply = s.reply

/-- R202: RST_OSC zeroes P1, P2, PS, C0, C1, DLY and RDLY of the selected lanes and changes nothing else but ERR. -/
def Obligations.RstOscZeroesOscillator : Prop :=
  ∀ (b : Batch) (m : LaneMask) (s : State), ∃ t, exec (.rstOsc b m) s = .next t
    ∧ s.OnlyLanes t b m ∧ s.StatusOk t ∧ s.ResKept t
    ∧ ∀ l : Lane, laneBit m l = true →
        t.channel b l = { s.channel b l with p1 := 0, p2 := 0, ps := 0, c0 := 0, c1 := 0, dly := 0, rdly := 0 }

/-- R203: RST_DEC zeroes the decimator instances DSEL names, of the selected lanes, and changes nothing else but ERR. -/
def Obligations.RstDecZeroesInstances : Prop :=
  ∀ (b : Batch) (m : LaneMask) (d : DecSel) (s : State), ∃ t, exec (.rstDec b m d) s = .next t
    ∧ s.OnlyLanes t b m ∧ s.StatusOk t ∧ s.ResKept t
    ∧ ∀ l : Lane, laneBit m l = true →
        t.channel b l = { s.channel b l with
          osc := if d = .flt then (s.channel b l).osc else Decimator.zero
          flt := if d = .osc then (s.channel b l).flt else Decimator.zero }

/-- R204: RST_FLT zeroes X[0..3] and PREV of the selected lanes and changes nothing else but ERR. -/
def Obligations.RstFltZeroesFilter : Prop :=
  ∀ (b : Batch) (m : LaneMask) (s : State), ∃ t, exec (.rstFlt b m) s = .next t
    ∧ s.OnlyLanes t b m ∧ s.StatusOk t ∧ s.ResKept t
    ∧ ∀ l : Lane, laneBit m l = true →
        t.channel b l = { s.channel b l with x := #v[0, 0, 0, 0], prev := 0 }

/-- R205: RST_SAT zeroes XP of the selected lanes and changes nothing else but ERR. -/
def Obligations.RstSatZeroesShaper : Prop :=
  ∀ (b : Batch) (m : LaneMask) (s : State), ∃ t, exec (.rstSat b m) s = .next t
    ∧ s.OnlyLanes t b m ∧ s.StatusOk t ∧ s.ResKept t
    ∧ ∀ l : Lane, laneBit m l = true → t.channel b l = { s.channel b l with xp := 0 }

/-- R207: WR_PARAM with legal values stores, for every selected lane, its own OPA[l] in its entry PID (bit 0 of it for
SYNC and SATEN); no other entry and no other state of the lane changes. -/
def Obligations.WrParamStoresEntry : Prop :=
  ∀ (b : Batch) (m : LaneMask) (pid : ParamId) (s : State),
    ((pid = .topo ∨ pid = .tap) → ∀ l : Lane, laneBit m l = true → (s.opaOf l).toNat ≤ 2) →
    ∃ t, exec (.wrParam b m pid) s = .next t ∧ s.OnlyLanes t b m ∧ s.StatusOk t ∧ s.ResKept t
      ∧ ∀ l : Lane, laneBit m l = true →
          t.channel b l = { s.channel b l with par := (t.channel b l).par }
          ∧ ∀ k : ParamId, (t.channel b l).par.read k =
              if k ≠ pid then (s.channel b l).par.read k
              else if pid = .sync ∨ pid = .saten then (if (s.opaOf l).getLsbD 0 then 1 else 0)
              else s.opaOf l

/-- R208: RD_PARAM returns the raw stored word of each selected lane in RES[l] and changes nothing else but ERR. -/
def Obligations.RdParamReturnsEntry : Prop :=
  ∀ (b : Batch) (m : LaneMask) (pid : ParamId) (s : State), ∃ t, exec (.rdParam b m pid) s = .next t
    ∧ s.OnlyLanes t b m ∧ s.StatusOk t
    ∧ ∀ l : Lane, laneBit m l = true →
        t.channel b l = s.channel b l ∧ t.resOf l = (s.channel b l).par.read pid

/-- R209, and R289 for OSR_LOG2: WR_GLOBAL stores OPA[0] raw in FS, FMIN or FMAX and changes nothing else but ERR; an
accepted write of OSR_LOG2, of the current value too, stores OPA[0] and zeroes both decimators of every lane of every
batch, and changes nothing else but ERR. -/
def Obligations.WrGlobalStoresRegister : Prop :=
  ∀ s : State,
    exec (.wrGlobal .fs) s = .next (State.withErr { s with glob := { s.glob with fs := s.opaOf 0 } } 0)
    ∧ exec (.wrGlobal .fmin) s = .next (State.withErr { s with glob := { s.glob with fmin := s.opaOf 0 } } 0)
    ∧ exec (.wrGlobal .fmax) s = .next (State.withErr { s with glob := { s.glob with fmax := s.opaOf 0 } } 0)
    ∧ ((s.opaOf 0).toNat ≤ 10 → ∃ t, exec (.wrGlobal .osrLog2) s = .next t
      ∧ t = { s.withErr 0 with glob := { s.glob with osrLog2 := s.opaOf 0 }, chans := t.chans }
      ∧ ∀ (b : Batch) (l : Lane),
          t.channel b l = { s.channel b l with osc := Decimator.zero, flt := Decimator.zero })

/-- R210: RD_GLOBAL returns the global, or the constant ID, in RES[0]; RES[1..3] and everything else but ERR is kept. -/
def Obligations.RdGlobalReturnsRegister : Prop :=
  ∀ (gid : GlobalId) (s : State), ∃ t, exec (.rdGlobal gid) s = .next t
    ∧ t = { s.withErr 0 with res := t.res }
    ∧ (∀ l : Lane, l ≠ 0 → t.resOf l = s.resOf l)
    ∧ t.resOf 0 = (match gid with
        | .osrLog2 => s.glob.osrLog2
        | .fs => s.glob.fs
        | .fmin => s.glob.fmin
        | .fmax => s.glob.fmax
        | .id => 0x4D555358)

/-- R211: RD_STATE with a SID and IDX of 10_state.md R77 returns the item's word in RES[l] of each selected lane and
changes nothing else but ERR; an IDX outside the item's range is BAD_FIELD. -/
def Obligations.RdStateReturnsItem : Prop :=
  ∀ (b : Batch) (m : LaneMask) (sid : StateId) (idx : BitVec 12) (s : State),
    (idx.toNat < stateSize s.cfg sid → ∃ t, exec (.rdState b m sid idx) s = .next t
      ∧ s.OnlyLanes t b m ∧ s.StatusOk t
      ∧ ∀ l : Lane, laneBit m l = true →
          t.channel b l = s.channel b l ∧
          let c := s.channel b l
          t.resOf l = (match sid with
            | .p1 => c.p1 | .p2 => c.p2 | .ps => c.ps | .c0 => c.c0 | .c1 => c.c1 | .dly => c.dly | .rdly => c.rdly
            | .x => c.x.toList.getD idx.toNat 0
            | .prev => c.prev | .xp => c.xp
            | .input .osc => c.osc.input.read idx.toNat
            | .input .flt => c.flt.input.read idx.toNat
            | .ring .osc j => c.osc.stages[j.val].buf.read idx.toNat
            | .ring .flt j => c.flt.stages[j.val].buf.read idx.toNat
            | .index .osc j => c.osc.stages[j.val].w
            | .index .flt j => c.flt.stages[j.val].w))
    ∧ (stateSize s.cfg sid ≤ idx.toNat → exec (.rdState b m sid idx) s = .next (s.withErr 3))

/-- R161: which commands end with BAD_VALUE (code 5): WR_PARAM of TOPO or TAP and FLT_TICK with a forbidden value in some
selected lane, and WR_GLOBAL of OSR_LOG2 with a forbidden OPA[0]; the whole command is rejected, and no other command, and
none of these for a lane outside the mask, ends so. -/
def Obligations.IllegalOperandValues : Prop :=
  ∀ (i : Instr) (s : State),
    let bad : Prop := match i with
      | .wrParam _ m pid => (pid = .topo ∨ pid = .tap) ∧ ∃ l : Lane, laneBit m l = true ∧ 2 < (s.opaOf l).toNat
      | .wrGlobal gid => gid = .osrLog2 ∧ 10 < (s.opaOf 0).toNat
      | .fltTick b m _ => ∃ l : Lane, laneBit m l = true ∧ (s.channel b l).par.tap = 2 ∧ (s.channel b l).par.topo = 0
      | _ => False
    (bad → exec i s = .next (s.withErr 5)) ∧ ∀ t : State, exec i s = .next t → (t.status.err = 5 ↔ bad)

/-! ## The phase accumulator -/

/-- R250 and R251: the new value is the sum mod 2^32, the wrap is the flip from non-negative to negative, U is the sum of
the cycle position and the increment as natural numbers, and for inc < 2^31 the wrap is exactly its carry out of 32 bits. -/
def Obligations.PhaseStepWrapsModulo : Prop :=
  ∀ p inc : Word,
    (paStep p inc).new.toNat = (p.toNat + inc.toNat) % 2 ^ 32
    ∧ (paStep p inc).wrap = (decide (0 ≤ p.toInt) && decide ((paStep p inc).new.toInt < 0))
    ∧ ((paStep p inc).uOld : ℤ) = p.toInt + 2 ^ 31
    ∧ (paStep p inc).uSum = (paStep p inc).uOld + inc.toNat
    ∧ (inc.toNat < 2 ^ 31 → ((paStep p inc).wrap = true ↔ 2 ^ 32 ≤ (paStep p inc).uSum))

/-- R256: after n steps of d the accumulator is p0 + n·d mod 2^32; where d divides 2^32, after 2^32/d steps it is p0. -/
def Obligations.PhaseClosure : Prop :=
  ∀ p0 d : Word,
    (∀ n : ℕ, ((fun p => (paStep p d).new)^[n] p0).toNat = (p0.toNat + n * d.toNat) % 2 ^ 32)
    ∧ (0 < d.toNat → d.toNat < 2 ^ 31 → d.toNat ∣ 2 ^ 32 →
        (fun p => (paStep p d).new)^[2 ^ 32 / d.toNat] p0 = p0)

/-- R254 and the last sentence of R255: the step crosses the cycle position Q exactly when Q lies in the half-open interval
(u_old, u_old + inc] modulo 2^32; the fraction is that of the rest of the step; an event at Q = 0 is exactly a wrap. -/
def Obligations.EventCrossingInterval : Prop :=
  ∀ (p inc : Word) (q : ℕ), inc.toNat < 2 ^ 31 → q < 2 ^ 32 →
    (crossing (paStep p inc) inc q ≠ none ↔
      ∃ j : ℕ, 0 < j ∧ j ≤ inc.toNat ∧ ((paStep p inc).uOld + j) % 2 ^ 32 = q)
    ∧ (∀ j : ℕ, j < inc.toNat → ((paStep p inc).uOld + (inc.toNat - j)) % 2 ^ 32 = q →
        crossing (paStep p inc) inc q = some (fdiv (i2f j) (i2f inc.toNat)))
    ∧ (crossing (paStep p inc) inc 0 ≠ none ↔ (paStep p inc).wrap = true)

/-- R252, written out: the increment of a frequency. R253: every increment a tick uses is at most INC_MAX(L), so that the R
substeps of a tick advance a phase by less than half a period: oscillator 1's, oscillator 2's base and modulated ones, and
the sub-oscillator's (R257). -/
def Obligations.IncrementBound : Prop :=
  (∀ (g : Globals) (f : F32),
    let fu := fclamp f (fclamp g.fmin 0x00000000 0x4B800000) (fclamp g.fmax 0x00000000 0x4B800000)
    let q := fmul (fdiv fu (fclamp g.fs 0x3F800000 0x4B800000)) (fPow2 (32 - (g.osrLog2.toNat : ℤ)))
    increment g f = BitVec.ofInt 32 (f2uSat q 0 (2 ^ (31 - g.osrLog2.toNat) - 1 : ℕ)))
  ∧ ∀ (g : Globals) (par : Params) (wave1 : F32), g.osrLog2.toNat ≤ 10 →
    let t := oscTickValues g par
    t.inc1 = increment g par.freq1 ∧ t.inc2b = increment g par.freq2 ∧ t.incs = t.inc1 >>> 1 ∧
    let top := 2 ^ (31 - g.osrLog2.toNat) - 1
    t.inc1.toNat ≤ top ∧ t.inc2b.toNat ≤ top ∧ t.incs.toNat ≤ top ∧ (t.modulated wave1).toNat ≤ top
      ∧ t.inc1.toNat * 2 ^ g.osrLog2.toNat < 2 ^ 31

/-- R260: PA_ADD advances the selected accumulator of each selected lane by OPA[l], a negative OPA[l] counting as 0, and
records the new value in RES[l] and the wrap in STATUS.WRAP[l]; nothing else changes but ERR. -/
def Obligations.PaAddAdvancesAccumulator : Prop :=
  ∀ (b : Batch) (m : LaneMask) (a : AccSel) (s : State), ∃ t, exec (.paAdd b m a) s = .next t
    ∧ s.OnlyLanes t b m ∧ t.status.err = 0 ∧ t.status.synced = s.status.synced ∧ s.WrapOnly t m
    ∧ ∀ l : Lane, laneBit m l = true →
        let c := s.channel b l
        let old : Word := match a with
          | .p1 => c.p1
          | .p2 => c.p2
          | .ps => c.ps
        let new : Word := old + (if (s.opaOf l).toInt < 0 then 0 else s.opaOf l)
        t.channel b l = (match a with
          | .p1 => { c with p1 := new }
          | .p2 => { c with p2 := new }
          | .ps => { c with ps := new })
        ∧ t.resOf l = new
        ∧ laneBit t.status.wrap l = (decide (0 ≤ old.toInt) && decide (new.toInt < 0))

/-- R261: PA_LOAD stores OPA[l] in the selected accumulator of each selected lane; nothing else changes but ERR. -/
def Obligations.PaLoadStoresPhase : Prop :=
  ∀ (b : Batch) (m : LaneMask) (a : AccSel) (s : State), ∃ t, exec (.paLoad b m a) s = .next t
    ∧ s.OnlyLanes t b m ∧ s.StatusOk t ∧ s.ResKept t
    ∧ ∀ l : Lane, laneBit m l = true →
        t.channel b l = (match a with
          | .p1 => { s.channel b l with p1 := s.opaOf l }
          | .p2 => { s.channel b l with p2 := s.opaOf l }
          | .ps => { s.channel b l with ps := s.opaOf l })

/-! ## The BLEP/BLAMP generator and the waveshaper -/

/-- R330 with R321 and R322: BLEP_INS adds the two corrections of the event to C0 and C1 of each selected lane; nothing
else changes but ERR. -/
def Obligations.BlepInsAddsCorrections : Prop :=
  ∀ (b : Batch) (m : LaneMask) (k : BlepKind) (s : State), ∃ t, exec (.blepIns b m k) s = .next t
    ∧ s.OnlyLanes t b m ∧ s.StatusOk t ∧ s.ResKept t
    ∧ ∀ l : Lane, laneBit m l = true →
        let c := s.channel b l
        let d := fclamp (s.opaOf l) 0x00000000 0x3F800000
        let a := sanitize (s.opbOf l)
        let e := fsub 0x3F800000 d
        t.channel b l = (match k with
          | .blep => { c with
              c0 := fadd c.c0 (fmul a (fmul (fmul d d) 0x3F000000))
              c1 := fsub c.c1 (fmul a (fmul (fmul e e) 0x3F000000)) }
          | .blamp => { c with
              c0 := fadd c.c0 (fmul a (fdiv (fmul (fmul d d) d) 0x40C00000))
              c1 := fadd c.c1 (fmul a (fdiv (fmul (fmul e e) e) 0x40C00000)) })

/-- R331 with R323: BLEP_PROC returns DLY + C0 of each selected lane and moves the sample and the corrections on; RDLY
and everything else but ERR is kept. -/
def Obligations.BlepProcDelaysSample : Prop :=
  ∀ (b : Batch) (m : LaneMask) (s : State), ∃ t, exec (.blepProc b m) s = .next t
    ∧ s.OnlyLanes t b m ∧ s.StatusOk t
    ∧ ∀ l : Lane, laneBit m l = true →
        let c := s.channel b l
        t.resOf l = fadd c.dly c.c0
        ∧ t.channel b l = { c with c0 := c.c1, c1 := 0x00000000, dly := sanitize (s.opaOf l) }

/-- R360 with R350, R351 and R352: SAT returns the antiderivative-antialiased saturation of the sanitized OPA[l] of each
selected lane and keeps it in XP; nothing else changes but ERR. -/
def Obligations.SatShapesSample : Prop :=
  ∀ (b : Batch) (m : LaneMask) (s : State), ∃ t, exec (.sat b m) s = .next t
    ∧ s.OnlyLanes t b m ∧ s.StatusOk t
    ∧ ∀ l : Lane, laneBit m l = true →
        let c := s.channel b l
        let x := sanitize (s.opaOf l)
        let root := fun v : F32 => fsqrt (fadd 0x3F800000 (fmul v v))
        let sat := fun v : F32 =>
          if isNaN v then 0x7FC00000#32
          else if fgeq (fabs v) 0x4B800000 then (if fSign v then 0xBF800000 else 0x3F800000)
          else fdiv v (root v)
        let integral := fun v : F32 =>
          if isNaN v then 0x7FC00000#32 else if fgeq (fabs v) 0x4B800000 then fabs v else root v
        let dx := fsub x c.xp
        t.resOf l = (if fgreater (fabs dx) 0x3A800000 then fdiv (fsub (integral x) (integral c.xp)) dx
          else sat (fmul (fadd x c.xp) 0x3F000000))
        ∧ t.channel b l = { c with xp := x }

/-! ## The decimator -/

/-- R282: the ring of a stage has the smallest power of two at least four times its order; the final stage's has 128. -/
def Obligations.RingSizes : Prop :=
  ∀ (cfg : Configuration) (j : ℕ), configWellFormed cfg = true → j < 10 →
    (∃ k : ℕ, ringSize cfg j = 2 ^ k) ∧ 4 * order cfg j ≤ ringSize cfg j
    ∧ (∀ k : ℕ, 4 * order cfg j ≤ 2 ^ k → ringSize cfg j ≤ 2 ^ k)
    ∧ ringSize cfg 0 = 128

/-- R286: a push stores the sample at the write index and moves the index on around the ring; X(0) is then the sample
pushed, and X(n + 1) what X(n) was. -/
def Obligations.PushThenTap : Prop :=
  ∀ (k : ℕ) (st : Stage) (x : F32), k ≤ 7 → st.legal (2 ^ k) = true →
    (∀ i : ℕ, (st.push (2 ^ k) x).buf.read i = if i = st.w.toNat then x else st.buf.read i)
    ∧ (st.push (2 ^ k) x).w.toNat = (st.w.toNat + 1) % 2 ^ k
    ∧ (∀ n : ℕ, n < 2 ^ k → st.tap (2 ^ k) n = st.buf.read ((st.w.toNat + 2 ^ k - 1 - n) % 2 ^ k))
    ∧ (st.push (2 ^ k) x).tap (2 ^ k) 0 = x
    ∧ (∀ n : ℕ, n + 1 < 2 ^ k → (st.push (2 ^ k) x).tap (2 ^ k) (n + 1) = st.tap (2 ^ k) n)

/-- One stage of R290 over a block: output m is the convolution of R287, written out, after the samples 0 to 2m + 1 have
been pushed: the centre tap halved, then each coefficient, innermost first, times the sum of its two samples. There is one
output for every two samples, and the stage is left with every pair pushed. -/
def Obligations.StageHalvesRate : Prop :=
  ∀ (cfg : Configuration) (j : ℕ) (v : List F32) (st : Stage),
    let push := fun (u : Stage) (x : F32) => u.push (ringSize cfg j) x
    let conv := fun u : Stage =>
      let sample := u.tap (ringSize cfg j)
      let centre := 2 * order cfg j - 1
      (List.range (order cfg j)).foldl (fun acc k => fadd acc (fmul (coef cfg j k)
        (fadd (sample (centre - (2 * k + 1))) (sample (centre + (2 * k + 1)))))) (fmul 0x3F000000 (sample centre))
    (halve cfg j v st).1.length = v.length / 2
    ∧ (∀ m : ℕ, m < v.length / 2 →
        (halve cfg j v st).1[m]? = some (conv ((v.take (2 * m + 2)).foldl push st)))
    ∧ (halve cfg j v st).2 = (v.take (2 * (v.length / 2))).foldl push st

/-- R294: a cascade whose input and rings hold +0.0 returns +0.0 and leaves every ring so, for any coefficients; a zeroed
decimator is one. -/
def Obligations.CascadeSilence : Prop :=
  Decimator.zero.Silent ∧
  ∀ (cfg : Configuration) (n : ℕ) (d : Decimator), configWellFormed cfg = true → n ≤ 10 → d.Silent →
    (cascade cfg n d).1 = 0x00000000 ∧ (cascade cfg n d).2.Silent

/-- R291: DEC_WR writes the sanitized OPA[l] at IN[IDX] of the selected instance of each selected lane; every other
element of IN, the stages, and everything else but ERR is kept. -/
def Obligations.DecWrStoresSample : Prop :=
  ∀ (b : Batch) (m : LaneMask) (inst : DecInst) (idx : BitVec 10) (s : State),
    ∃ t, exec (.decWr b m inst idx) s = .next t
    ∧ s.OnlyLanes t b m ∧ s.StatusOk t ∧ s.ResKept t
    ∧ ∀ l : Lane, laneBit m l = true →
        let d := (s.channel b l).dec inst
        let d' := (t.channel b l).dec inst
        t.channel b l = (s.channel b l).setDec d' inst
        ∧ d'.stages = d.stages
        ∧ (d.input.wf = true →
            ∀ k : ℕ, d'.input.read k = if k = idx.toNat then sanitize (s.opaOf l) else d.input.read k)

/-- R292 with R290: DEC_PROC with LOG2N = OSR_LOG2 = L runs IN[0..2^L − 1] through stage L − 1 first and stage 0 last, each
stage over the outputs of the one before it, from v(L) to v(0) with 2^j samples in v(j); the one sample of v(0) is the
result, and each stage keeps its new contents. IN, the stages from L on and everything else but ERR are kept; with L = 0 it
returns IN[0] and changes no stage. What `halve` does with one stage is StageHalvesRate. -/
def Obligations.DecProcRunsCascade : Prop :=
  ∀ (b : Batch) (m : LaneMask) (inst : DecInst) (log2n : BitVec 4) (s : State),
    log2n.toNat ≤ 10 → log2n.toNat = s.glob.osrLog2.toNat →
    ∃ t, exec (.decProc b m inst log2n) s = .next t
    ∧ s.OnlyLanes t b m ∧ s.StatusOk t
    ∧ ∀ l : Lane, laneBit m l = true →
        let d := (s.channel b l).dec inst
        let d' := (t.channel b l).dec inst
        t.channel b l = (s.channel b l).setDec d' inst
        ∧ (t.resOf l, d') = cascade s.cfg log2n.toNat d
        ∧ (∃ v : ℕ → List F32, v log2n.toNat = (List.range (2 ^ log2n.toNat)).map d.input.read
          ∧ (∀ j : ℕ, j < log2n.toNat → (v j, d'.stage j) = halve s.cfg j (v (j + 1)) (d.stage j) ∧ (v j).length = 2 ^ j)
          ∧ v 0 = [t.resOf l])
        ∧ d'.input = d.input
        ∧ (∀ j : ℕ, log2n.toNat ≤ j → d'.stage j = d.stage j)
        ∧ (log2n = 0 → t.resOf l = d.input.read 0 ∧ d' = d)

/-- The errors of R292: LOG2N above 10 is BAD_FIELD (3), and any other LOG2N that is not OSR_LOG2 is OSR_MISMATCH (4). -/
def Obligations.DecProcRejectsRate : Prop :=
  ∀ (b : Batch) (m : LaneMask) (inst : DecInst) (log2n : BitVec 4) (s : State),
    (10 < log2n.toNat → exec (.decProc b m inst log2n) s = .next (s.withErr 3))
    ∧ (log2n.toNat ≤ 10 → log2n.toNat ≠ s.glob.osrLog2.toNat →
        exec (.decProc b m inst log2n) s = .next (s.withErr 4))

/-! ## The oscillator -/

/-- R400: OSC_TICK completes; each selected lane's P1 and PS advance by R increments, WRAP[l] says whether oscillator 1
wrapped in some substep and SYNCED[l] whether it did with SYNC set, RES[l] is the cascade over the new IN, and of the
lane only the phases, the BLEP state (in the corrected variant alone, R397), IN[0..R − 1] and the stages below L of the
OSC instance may change. The lane goes from its state before the tick to the one after it in R substeps, each as
`OscSubstep` writes it out (R386 to R396; entries 13 and 15), and IN[k] holds the sample of substep k. -/
def Obligations.OscTickAdvancesLanes : Prop :=
  ∀ (b : Batch) (m : LaneMask) (v : OscVariant) (s : State), ∃ t, exec (.oscTick b m v) s = .next t
    ∧ s.OnlyLanes t b m ∧ t.status.err = 0 ∧ s.WrapOnly t m ∧ s.SyncedOnly t m
    ∧ ∀ l : Lane, laneBit m l = true →
        let c := s.channel b l
        let c' := t.channel b l
        let n := s.glob.osrLog2.toNat
        let inc1 := increment s.glob c.par.freq1
        let phase := fun k : ℕ => c.p1 + BitVec.ofNat 32 k * inc1
        c' = { c with p1 := phase (2 ^ n), ps := c.ps + BitVec.ofNat 32 (2 ^ n) * (inc1 >>> 1), p2 := c'.p2,
                      c0 := c'.c0, c1 := c'.c1, dly := c'.dly, rdly := c'.rdly, osc := c'.osc }
        ∧ (v = .plain → c'.c0 = c.c0 ∧ c'.c1 = c.c1 ∧ c'.dly = c.dly ∧ c'.rdly = c.rdly)
        ∧ (laneBit t.status.wrap l = true ↔ ∃ k : ℕ, k < 2 ^ n ∧ 0 ≤ (phase k).toInt ∧ (phase (k + 1)).toInt < 0)
        ∧ laneBit t.status.synced l = (c.par.sync.getLsbD 0 && laneBit t.status.wrap l)
        ∧ (t.resOf l, c'.osc) = cascade s.cfg n { c'.osc with stages := c.osc.stages }
        ∧ (∀ j : ℕ, n ≤ j → c'.osc.stage j = c.osc.stage j)
        ∧ (c.osc.input.wf = true → ∀ k : ℕ, 2 ^ n ≤ k → c'.osc.input.read k = c.osc.input.read k)
        ∧ ∃ (x : ℕ → Channel) (y : ℕ → F32), x 0 = c ∧ c' = { x (2 ^ n) with osc := c'.osc }
          ∧ (∀ k : ℕ, k < 2 ^ n → OscSubstep s.glob c.par v (x k) (x (k + 1)) (y k))
          ∧ (c.osc.input.wf = true → ∀ k : ℕ, k < 2 ^ n → c'.osc.input.read k = y k)

/-- One plain substep at the base rate (L = 0) with its waveforms, modulation, sync and mix written out (R382 to R389):
the result of OSC_TICK in RES[l] and in P2. `increment` is R252, written out in IncrementBound. The sync value is R387's
reference formula (entry 13), and integer literals among binary32 operands are binary32 numbers (DEDUCED, entry 15). -/
def Obligations.PlainTickAtBaseRate : Prop :=
  ∀ (b : Batch) (m : LaneMask) (s : State) (l : Lane), s.glob.osrLog2 = 0 → laneBit m l = true →
    (s.channel b l).osc.input.wf = true →
    ∃ t, exec (.oscTick b m .plain) s = .next t ∧
      let c := s.channel b l
      let unit := fun v : Word => fclamp v 0x00000000 0x3F800000
      let sh := fclamp c.par.shape 0xBF800000 0x3F800000
      let wtri := if fless sh 0x00000000 then fneg sh else 0x00000000
      let wsq := if fless 0x00000000 sh then sh else 0x00000000
      let wsaw := fsub 0x3F800000 (fabs sh)
      let dlt := (f2uSat (fmul (fmul (fadd (fclamp c.par.pw 0xBF800000 0x3F800000) 0x3F800000) 0x3F000000) 0x4F800000)
        0 4294967295).toNat
      let wave := fun p : Word =>
        let x := fmul (i2f p.toInt) (fPow2 (-31))
        let tri := fsub (fmul (fabs x) 0x40000000) 0x3F800000
        let sq : F32 := if dlt ≠ 0 ∧ 2 ^ 32 - dlt ≤ (p ^^^ 0x80000000).toNat then 0x3F800000 else 0xBF800000
        fadd (fadd (fmul wtri tri) (fmul wsaw x)) (fmul wsq sq)
      let inc1 := increment s.glob c.par.freq1
      let p1 := c.p1 + inc1
      let ps := c.ps + (inc1 >>> 1)
      let sub : F32 := if 0 ≤ ps.toInt then 0x3F800000 else 0xBF800000
      let inc2 := BitVec.ofInt 32 (f2uSat (fmul (i2f (increment s.glob c.par.freq2).toNat)
        (fadd 0x3F800000 (fmul (unit c.par.fmamt) (wave p1)))) 0 (2 ^ 31 - 1))
      let synced := c.par.sync.getLsbD 0 && decide (0 ≤ c.p1.toInt) && decide (p1.toInt < 0)
      let d1 := fdiv (i2f ((c.p1 ^^^ 0x80000000).toNat + inc1.toNat - 2 ^ 32 : ℤ)) (i2f inc1.toNat)
      let p2 : Word := if synced then BitVec.ofInt 32 (f2uSat (fmul d1 (i2f inc2.toNat)) 0 (2 ^ 31 - 1))
        else c.p2 + inc2
      let lin := fadd (fadd (fmul (unit c.par.volsub) sub) (fmul (unit c.par.vol1) (wave p1)))
        (fmul (unit c.par.vol2) (wave p2))
      t.resOf l = fadd lin (fmul (unit c.par.volring) (fmul (wave p1) (wave p2)))
        ∧ (t.channel b l).p2 = p2

/-- One corrected substep at the base rate (L = 0): the events of R391 to R394 in the order of R395, and the output and the
state of R390, for the phases and the mix of R389. The sync value is R394's reference formula (entry 13), and literals are
read as entry 15 says. -/
def Obligations.CorrectedTickAtBaseRate : Prop :=
  ∀ (b : Batch) (m : LaneMask) (s : State) (l : Lane), s.glob.osrLog2 = 0 → laneBit m l = true →
    (s.channel b l).osc.input.wf = true →
    ∃ t, exec (.oscTick b m .corr) s = .next t ∧
      let c := s.channel b l
      let v := oscTickValues s.glob c.par
      let w := v.values c
      let oscEvents := fun (st : PhaseStep) (inc : Word) (vol : F32) =>
        let g := fmul (i2f inc.toNat) (fPow2 (-29))
        let pulse : F32 := if v.dlt ≠ 0 then v.wsq else 0x00000000
        [(BlepKind.blep, crossing st inc 0, fmul vol (fmul (fadd v.wsaw pulse) 0xC0000000)),
          (.blamp, crossing st inc 0, fmul vol (fmul v.wtri (fneg g))),
          (.blamp, crossing st inc (2 ^ 31), fmul vol (fmul v.wtri g))]
        ++ (if v.dlt ≠ 0 then [(.blep, crossing st inc (2 ^ 32 - v.dlt), fmul vol (fmul v.wsq 0x40000000))] else [])
      let subEvents :=
        [(BlepKind.blep, crossing w.sts v.incs 0, fmul v.vs 0xC0000000),
          (.blep, crossing w.sts v.incs (2 ^ 31), fmul v.vs 0x40000000)]
      let pe := c.p2 + BitVec.ofInt 32 (f2uSat (fmul (fsub 0x3F800000 w.d1) (i2f w.inc2.toNat)) 0 (2 ^ 31 - 1))
      let lastEvents :=
        if w.synced then [(BlepKind.blep, some w.d1, fmul v.v2 (fsub (v.wave 0) (v.wave pe)))]
        else oscEvents w.st2 w.inc2 v.v2
      let ci := insertEvents (oscEvents w.st1 v.inc1 v.v1 ++ subEvents ++ lastEvents) c
      t.resOf l = fadd (fadd c.dly ci.c0) c.rdly
        ∧ (t.channel b l).c0 = ci.c1 ∧ (t.channel b l).c1 = 0x00000000
        ∧ (t.channel b l).dly = w.lin ∧ (t.channel b l).rdly = w.ring
        ∧ (t.channel b l).p1 = w.st1.new ∧ (t.channel b l).ps = w.sts.new ∧ (t.channel b l).p2 = w.p2

/-! ## The filter -/

/-- R434 to R439: the derivative of the N stages, the input at the three times of substep k, and one substep of each method,
entry by entry; entries from N on are kept (R443). The input is R435's binary32 formula, not its remark that inp(0) = prev
and inp(1) = cur exactly, which the formula misses in corners (DEDUCED, entry 12). Literals are read as entry 15 says
(DEDUCED). -/
def Obligations.LadderMethods : Prop :=
  ∀ (t : FltTick) (k : ℕ) (x : OdeVec), 1 ≤ t.n → t.n ≤ 4 →
    let D := fun (y : OdeVec) (u : F32) (i : Fin 4) =>
      fmul t.w (fsub
        (satFormula (if i.val = 0 then fsub u (fmul t.kf (entry y (t.n - 1))) else entry y (i.val - 1)))
        (satFormula y[i.val]))
    let inp := fun time : F32 => fadd t.prev (fmul time (fsub t.cur t.prev))
    let u0 := inp (fmul (i2f k) (fPow2 (-(t.l : ℤ))))
    let um := inp (fmul (i2f (2 * k + 1 : ℕ)) (fPow2 (-((t.l : ℤ) + 1))))
    let u1 := inp (fmul (i2f (k + 1 : ℕ)) (fPow2 (-(t.l : ℤ))))
    (∀ i : Fin 4, (t.integrate .euler k x)[i.val] = if i.val < t.n then fadd x[i.val] (D x u0 i) else x[i.val])
    ∧ (∃ xm : OdeVec,
        (∀ i : Fin 4, i.val < t.n → xm[i.val] = fadd x[i.val] (fmul 0x3F000000 (D x u0 i)))
        ∧ ∀ i : Fin 4, (t.integrate .rk2 k x)[i.val] = if i.val < t.n then fadd x[i.val] (D xm um i) else x[i.val])
    ∧ (∃ xa xb xc : OdeVec,
        (∀ i : Fin 4, i.val < t.n → xa[i.val] = fadd x[i.val] (fmul 0x3F000000 (D x u0 i)))
        ∧ (∀ i : Fin 4, i.val < t.n → xb[i.val] = fadd x[i.val] (fmul 0x3F000000 (D xa um i)))
        ∧ (∀ i : Fin 4, i.val < t.n → xc[i.val] = fadd x[i.val] (D xb um i))
        ∧ ∀ i : Fin 4, (t.integrate .rk4 k x)[i.val] =
            if i.val < t.n then
              fadd x[i.val] (fdiv (fadd (fadd (fadd (D x u0 i) (fmul 0x40000000 (D xa um i)))
                (fmul 0x40000000 (D xb um i))) (D xc u1 i)) 0x40C00000)
            else x[i.val])

/-- R440: the output taps of the three topologies, with the fed-back input a at the end of the substep. The factors
2, 4 and 6 are binary32 numbers and each product is one multiplication (DEDUCED, entry 15). -/
def Obligations.OutputTaps : Prop :=
  ∀ (t : FltTick) (x : OdeVec) (a : F32),
    (t.n = 1 → t.tap = .lp → t.output x a = x[0])
    ∧ (t.n = 1 → t.tap = .hp → t.output x a = fsub a x[0])
    ∧ (t.n = 2 → t.tap = .lp → t.output x a = x[1])
    ∧ (t.n = 2 → t.tap = .hp → t.output x a = fadd (fsub a (fmul 0x40000000 x[0])) x[1])
    ∧ (t.n = 2 → t.tap = .bp → t.output x a = fsub x[0] x[1])
    ∧ (t.n = 4 → t.tap = .lp → t.output x a = x[3])
    ∧ (t.n = 4 → t.tap = .hp → t.output x a =
        fadd (fsub (fadd (fsub a (fmul 0x40800000 x[0])) (fmul 0x40C00000 x[1])) (fmul 0x40800000 x[2])) x[3])
    ∧ (t.n = 4 → t.tap = .bp → t.output x a = fadd (fsub x[1] (fmul 0x40000000 x[2])) x[3])

/-- R450: FLT_TICK with no band-pass on a 1-pole completes; each selected lane's PREV is the sanitized OPA[l], RES[l] is
the cascade over the new IN, and of the lane only X[0..N − 1], PREV, XP (with SATEN alone), IN[0..R − 1] and the stages
below L of the FLT instance may change. With the values of the tick written out by `fltTickFormulas` (R431 to R433), the
lane goes from its state before the tick to the one after it in R substeps of any method, each as `FltSubstep` writes it
out (R440 to R442): X and XP are those after the last one, and IN[k] holds the sample of substep k. LadderMethods says
what `integrate` does and OutputTaps what `output` does. The model's readings: a_end takes inp(t1), at the last substep
inp(1), by R435's binary32 formula and not by its remark that inp(1) = cur exactly (DEDUCED, entry 12); literals are
binary32 numbers (DEDUCED, entry 15); a TOPO or TAP above 2, in no reachable state, selects 4 stages or the band-pass
(DESIGN CHOICE, entry 8). -/
def Obligations.FltTickAdvancesLanes : Prop :=
  ∀ (b : Batch) (m : LaneMask) (meth : OdeMethod) (s : State),
    (∀ l : Lane, laneBit m l = true → ¬ ((s.channel b l).par.tap = 2 ∧ (s.channel b l).par.topo = 0)) →
    ∃ t, exec (.fltTick b m meth) s = .next t
    ∧ s.OnlyLanes t b m ∧ s.StatusOk t
    ∧ ∀ l : Lane, laneBit m l = true →
        let c := s.channel b l
        let c' := t.channel b l
        let n := s.glob.osrLog2.toNat
        c' = { c with x := c'.x, prev := sanitize (s.opaOf l), xp := c'.xp, flt := c'.flt }
        ∧ (c.par.saten.getLsbD 0 = false → c'.xp = c.xp)
        ∧ (c.par.topo = 0 → c'.x[1] = c.x[1])
        ∧ (c.par.topo = 0 ∨ c.par.topo = 1 → c'.x[2] = c.x[2] ∧ c'.x[3] = c.x[3])
        ∧ (t.resOf l, c'.flt) = cascade s.cfg n { c'.flt with stages := c.flt.stages }
        ∧ (∀ j : ℕ, n ≤ j → c'.flt.stage j = c.flt.stage j)
        ∧ (c.flt.input.wf = true → ∀ k : ℕ, 2 ^ n ≤ k → c'.flt.input.read k = c.flt.input.read k)
        ∧ ∃ (x : ℕ → Channel) (y : ℕ → F32), x 0 = c ∧ c'.x = (x (2 ^ n)).x ∧ c'.xp = (x (2 ^ n)).xp
          ∧ (∀ k : ℕ, k < 2 ^ n →
              FltSubstep (fltTickFormulas s.glob c (sanitize (s.opaOf l))) meth k (x k) (x (k + 1)) (y k))
          ∧ (c.flt.input.wf = true → ∀ k : ℕ, k < 2 ^ n → c'.flt.input.read k = y k)

/-- One Euler substep of a 1-pole at the base rate (L = 0), low-pass or high-pass, with or without the saturator stage, with
its cutoff, input, derivative, tap and saturator written out (R433 to R436, R440 to R442). The ticks of the other methods,
topologies, taps and rates are FltTickAdvancesLanes with LadderMethods and OutputTaps. inp(0) and inp(1) are R435's binary32
formula, the model's reading where R435 remarks that they are prev and cur exactly (DEDUCED, entry 12); literals are read
as entry 15 says (DEDUCED). -/
def Obligations.EulerTickAtBaseRate : Prop :=
  ∀ (b : Batch) (m : LaneMask) (s : State) (l : Lane), s.glob.osrLog2 = 0 → laneBit m l = true →
    (∀ k : Lane, laneBit m k = true → ¬ ((s.channel b k).par.tap = 2 ∧ (s.channel b k).par.topo = 0)) →
    (s.channel b l).par.topo = 0 → (s.channel b l).par.tap = 0 ∨ (s.channel b l).par.tap = 1 →
    (s.channel b l).flt.input.wf = true →
    ∃ t, exec (.fltTick b m .euler) s = .next t ∧
      let c := s.channel b l
      let w := fclamp (fmul (fdiv (fmul 0x40C90FDB (fclamp c.par.cutoff 0x00000000 0x4B800000))
        (fclamp s.glob.fs 0x3F800000 0x4B800000)) 0x3F800000) 0x00000000 0x3F800000
      let kf := fclamp c.par.reso 0x00000000 0x40800000
      let inp := fun time : F32 => fadd c.prev (fmul time (fsub (sanitize (s.opaOf l)) c.prev))
      let x := fadd c.x[0] (fmul w (fsub (satFormula (fsub (inp 0x00000000) (fmul kf c.x[0]))) (satFormula c.x[0])))
      let tap := if c.par.tap = 0 then x else fsub (fsub (inp 0x3F800000) (fmul kf x)) x
      (t.channel b l).x[0] = x
        ∧ (c.par.saten.getLsbD 0 = false → t.resOf l = tap ∧ (t.channel b l).xp = c.xp)
        ∧ (c.par.saten.getLsbD 0 = true → t.resOf l = adaaFormula c.xp tap ∧ (t.channel b l).xp = tap)

/-! ## Numbers -/

/-- R20, and R21 for the sanitized samples: a clamp treats a NaN as +0.0, and within bounds in order its result lies between
them; a sanitized sample is finite with magnitude at most 65536. -/
def Obligations.ClampStaysInRange : Prop :=
  (∀ v lo hi : F32, isNaN lo = false → isNaN hi = false →
    (isNaN v = true → fclamp v lo hi = fclamp 0x00000000 lo hi)
    ∧ (isNaN v = false → fclamp v lo hi = if fless v lo then lo else if fless hi v then hi else v)
    ∧ (fless hi lo = false → fgeq (fclamp v lo hi) lo = true ∧ fgeq hi (fclamp v lo hi) = true)
    ∧ (fless hi lo = false → fclamp 0x7F800000 lo hi = hi ∧ fclamp 0xFF800000 lo hi = lo))
  ∧ ∀ v : F32, isFinite (sanitize v) = true ∧ |fValue (sanitize v)| ≤ 65536
    ∧ (isFinite v = true → |fValue v| ≤ 65536 → sanitize v = v)

/-- R18: rounding an exact binary number m · 2^e to binary32 is rounding to nearest, ties to even. That a number from half a
unit past the largest finite one on rounds to an infinity, and that the sign of a rounded zero is the number's, is IEEE 754
(PRESUMED, entry 11). -/
def Obligations.RoundingIsNearestEven : Prop :=
  ∀ (neg : Bool) (m : ℕ) (e : ℤ), RoundsTo (fRound neg m e) ((if neg then -1 else 1) * (m : ℝ) * (2 : ℝ) ^ e)

/-- R18 and R19: the sum, the difference and the product of finite numbers are the exact ones rounded once; a result that is
a NaN is the canonical one, and so is that of a NaN operand, of inf − inf and of 0 · inf; the sign operations are exact, so
is a power of two, and the comparisons are those of the exact values, false with a NaN. The results with an infinity, and
rounding to one, are IEEE 754 (PRESUMED, entry 11). -/
def Obligations.SumAndProductRoundOnce : Prop :=
  (∀ a b : F32, isFinite a = true → isFinite b = true →
    RoundsTo (fadd a b) ((fValue a : ℝ) + fValue b)
    ∧ RoundsTo (fsub a b) ((fValue a : ℝ) - fValue b)
    ∧ RoundsTo (fmul a b) ((fValue a : ℝ) * fValue b))
  ∧ (∀ a b : F32, (isNaN (fadd a b) = true → fadd a b = 0x7FC00000) ∧ (isNaN (fsub a b) = true → fsub a b = 0x7FC00000)
    ∧ (isNaN (fmul a b) = true → fmul a b = 0x7FC00000))
  ∧ (∀ a b : F32, isNaN a = true ∨ isNaN b = true →
    fadd a b = 0x7FC00000 ∧ fsub a b = 0x7FC00000 ∧ fmul a b = 0x7FC00000)
  ∧ (∀ a b : F32, isInf a = true →
    (isInf b = true → fadd a b = (if fSign a = fSign b then a else 0x7FC00000)
      ∧ fsub a b = (if fSign a = fSign b then 0x7FC00000 else a))
    ∧ (isFinite b = true → fadd a b = a ∧ fadd b a = a ∧ fsub a b = a ∧ fsub b a = fneg a)
    ∧ (b = 0x00000000 ∨ b = 0x80000000 → fmul a b = 0x7FC00000 ∧ fmul b a = 0x7FC00000)
    ∧ (isNaN b = false → b ≠ 0x00000000 → b ≠ 0x80000000 →
      let inf : F32 := if fSign a = fSign b then 0x7F800000 else 0xFF800000
      fmul a b = inf ∧ fmul b a = inf))
  ∧ (∀ a : F32, isFinite a = true → isFinite (fneg a) = true ∧ isFinite (fabs a) = true
    ∧ fValue (fneg a) = -fValue a ∧ fValue (fabs a) = |fValue a|)
  ∧ (∀ k : ℤ, -149 ≤ k → k ≤ 127 → isFinite (fPow2 k) = true ∧ (fValue (fPow2 k) : ℝ) = (2 : ℝ) ^ k)
  ∧ (∀ a b : F32, isFinite a = true → isFinite b = true →
    fless a b = decide (fValue a < fValue b) ∧ fgreater a b = decide (fValue b < fValue a)
    ∧ fgeq a b = decide (fValue b ≤ fValue a))
  ∧ ∀ a b : F32, isNaN a = true ∨ isNaN b = true → fless a b = false ∧ fgreater a b = false ∧ fgeq a b = false

/-- R18 and R19: the quotient of finite numbers by a number other than 0, and the square root of a number of no negative
sign, are the exact ones rounded once; a result that is a NaN is the canonical one, and so is that of a NaN operand, of
0 / 0, of inf / inf and of the root of a negative number. Division by zero, the results with an infinity, the root of −0
and rounding to an infinity are IEEE 754 (PRESUMED, entry 11). -/
def Obligations.QuotientAndRootRoundOnce : Prop :=
  (∀ a b : F32, isFinite a = true → isFinite b = true → fValue b ≠ 0 →
    RoundsTo (fdiv a b) ((fValue a : ℝ) / fValue b))
  ∧ (∀ a : F32, isFinite a = true → fSign a = false → RoundsTo (fsqrt a) (Real.sqrt (fValue a)))
  ∧ (∀ a b : F32, isNaN (fdiv a b) = true → fdiv a b = 0x7FC00000)
  ∧ (∀ a : F32, isNaN (fsqrt a) = true → fsqrt a = 0x7FC00000)
  ∧ (∀ a b : F32, isNaN a = true ∨ isNaN b = true → fdiv a b = 0x7FC00000)
  ∧ (∀ a b : F32, isFinite a = true → isFinite b = true → fValue b = 0 →
    (fValue a = 0 → fdiv a b = 0x7FC00000)
    ∧ (fValue a ≠ 0 → fdiv a b = if fSign a = fSign b then 0x7F800000 else 0xFF800000))
  ∧ (∀ a b : F32, isInf a = true →
    (isInf b = true → fdiv a b = 0x7FC00000)
    ∧ (isFinite b = true → fdiv a b = (if fSign a = fSign b then 0x7F800000 else 0xFF800000)
      ∧ fdiv b a = (if fSign a = fSign b then 0x00000000 else 0x80000000)))
  ∧ (∀ a : F32, isNaN a = true ∨ (fSign a = true ∧ a ≠ 0x80000000) → fsqrt a = 0x7FC00000)
  ∧ fsqrt 0x80000000 = 0x80000000 ∧ fsqrt 0x7F800000 = 0x7F800000

/-- R22: an integer converts to the nearest binary32 number, ties to even; a binary32 number converts to the nearest
integer, ties to even, clamped into [lo, hi]; a NaN gives lo and an infinity the bound of its sign. -/
def Obligations.ConversionsRoundOnce : Prop :=
  (∀ n : ℤ, |n| < 2 ^ 33 → RoundsTo (i2f n) (n : ℝ))
  ∧ ∀ (v : F32) (lo hi : ℤ), lo ≤ hi →
    (isNaN v = true → f2uSat v lo hi = lo)
    ∧ (isInf v = true → f2uSat v lo hi = if fSign v then lo else hi)
    ∧ (isFinite v = true → ∃ n : ℤ, NearestInteger n (fValue v) ∧ f2uSat v lo hi = max lo (min hi n))

/-! ## The whole machine -/

/-- Every step keeps the legal states legal: the error code is one that the spec writes, OSR_LOG2 is at most 10, TOPO, TAP
and the flags hold stored values, PREV a sanitized sample, and every internal array is canonical (the model's form, entry 7)
and inside its size. -/
def Obligations.StepKeepsLegal : Prop :=
  ∀ s t : State, s.Legal → step s = .next t → t.Legal

/-- The machine after reset is legal. -/
def Obligations.ResetIsLegal : Prop := State.reset.Legal

/-- R80: every item of the power-on state, for a core of any configuration; the machine after reset is one (the model holds
the configuration in State, entry 4). -/
def Obligations.ResetValues : Prop :=
  (∃ c : Configuration, State.reset = State.powerOn c) ∧
  ∀ c : Configuration,
    let s := State.powerOn c
    (∀ l : Lane, s.opaOf l = 0 ∧ s.opbOf l = 0 ∧ s.resOf l = 0)
    ∧ s.status.word = 0 ∧ idWord = 0x4D555358
    ∧ s.glob.osrLog2 = 0 ∧ s.glob.fs = 0x473B8000 ∧ s.glob.fmin = 0 ∧ s.glob.fmax = 0x469C4000
    ∧ ∀ (b : Batch) (l : Lane),
        let ch := s.channel b l
        (∀ p : ParamId, ch.par.read p = 0)
        ∧ ch.p1 = 0 ∧ ch.p2 = 0 ∧ ch.ps = 0
        ∧ ch.c0 = 0 ∧ ch.c1 = 0 ∧ ch.dly = 0 ∧ ch.rdly = 0
        ∧ (∀ i : Fin 4, ch.x[i.val] = 0) ∧ ch.prev = 0 ∧ ch.xp = 0
        ∧ ∀ inst : DecInst, (∀ k : ℕ, (ch.dec inst).input.read k = 0)
            ∧ ∀ j : Fin 10, ((ch.dec inst).stage j.val).w = 0 ∧ ∀ k : ℕ, ((ch.dec inst).stage j.val).buf.read k = 0

/-- R143: a completed command does to lane l of its batch what that lane's own state, its own OPA[l] and OPB[l] and the
globals determine, whatever the other lanes of the mask and their states are; and with M = 0 it changes STATUS.ERR
alone. -/
def Obligations.LanesAreIndependent : Prop :=
  (∀ (i : Instr) (b : Batch) (m₁ m₂ : LaneMask) (l : Lane) (s₁ s₂ t₁ t₂ : State), i.batch? = some b →
    laneBit m₁ l = true → laneBit m₂ l = true →
    s₁.cfg = s₂.cfg → s₁.glob = s₂.glob → s₁.channel b l = s₂.channel b l → s₁.opaOf l = s₂.opaOf l →
    s₁.opbOf l = s₂.opbOf l → s₁.resOf l = s₂.resOf l →
    laneBit s₁.status.wrap l = laneBit s₂.status.wrap l → laneBit s₁.status.synced l = laneBit s₂.status.synced l →
    exec (i.withMask m₁) s₁ = .next t₁ → exec (i.withMask m₂) s₂ = .next t₂ →
    t₁.status.err = 0 → t₂.status.err = 0 →
    t₁.channel b l = t₂.channel b l ∧ t₁.resOf l = t₂.resOf l
      ∧ laneBit t₁.status.wrap l = laneBit t₂.status.wrap l
      ∧ laneBit t₁.status.synced l = laneBit t₂.status.synced l)
  ∧ ∀ (i : Instr) (b : Batch) (s t : State), i.batch? = some b → exec (i.withMask 0) s = .next t →
      t = s.withErr t.status.err

/-- R142 and R41: a command that has a batch leaves the channels of every other batch, and the globals, as they were; no
command writes OPA, OPB or the configuration, and none but the resets and writes named in R50 and R201 has no batch. -/
def Obligations.CommandsStayInTheirBatch : Prop :=
  ∀ (i : Instr) (s t : State), exec i s = .next t →
    t.cfg = s.cfg ∧ t.opa = s.opa ∧ t.opb = s.opb ∧ t.bus = s.bus ∧ t.reply = s.reply
    ∧ ∀ b : Batch, i.batch? = some b →
        t.glob = s.glob ∧ ∀ (b' : Batch) (l : Lane), b' ≠ b → t.channel b' l = s.channel b' l

/-- Which commands may change which state, as 10_state.md lists its writers (R41, R46, R47, R50, R55, R70 to R74): any other
command leaves it as it was. -/
def Obligations.OnlyNamedCommandsWrite : Prop :=
  ∀ (i : Instr) (s t : State), exec i s = .next t →
    (i.opcode ∉ [.paAdd, .oscTick, .rstAll] → t.status.wrap = s.status.wrap)
    ∧ (i.opcode ∉ [.oscTick, .rstAll] → t.status.synced = s.status.synced)
    ∧ (i.opcode ≠ .wrGlobal → t.glob = s.glob)
    ∧ (i.opcode ∉ [.rdParam, .rdGlobal, .rdState, .paAdd, .blepProc, .sat, .decProc, .oscTick, .fltTick] → t.res = s.res)
    ∧ ∀ (b : Batch) (l : Lane),
        let c := s.channel b l
        let c' := t.channel b l
        (i.opcode ≠ .wrParam → c'.par = c.par)
        ∧ (i.opcode ∉ [.oscTick, .paAdd, .paLoad, .rstOsc, .rstAll] → c'.p1 = c.p1 ∧ c'.p2 = c.p2 ∧ c'.ps = c.ps)
        ∧ (i.opcode ∉ [.oscTick, .blepIns, .blepProc, .rstOsc, .rstAll] →
            c'.c0 = c.c0 ∧ c'.c1 = c.c1 ∧ c'.dly = c.dly)
        ∧ (i.opcode ∉ [.oscTick, .rstOsc, .rstAll] → c'.rdly = c.rdly)
        ∧ (i.opcode ∉ [.fltTick, .rstFlt, .rstAll] → c'.x = c.x ∧ c'.prev = c.prev)
        ∧ (i.opcode ∉ [.sat, .fltTick, .rstSat, .rstAll] → c'.xp = c.xp)
        ∧ (i.opcode ∉ [.oscTick, .decWr, .decProc, .rstDec, .rstAll, .wrGlobal] → c'.osc = c.osc)
        ∧ (i.opcode ∉ [.fltTick, .decWr, .decProc, .rstDec, .rstAll, .wrGlobal] → c'.flt = c.flt)
end

