-- ==== Sys2Proof/Laws/Bus.lean ====
section
/-! SUPPORT. The register window (20_memory.md): what each offset is, and what a command word can end with. -/

namespace Sys2Proof.Machine

/-- Aligned is a multiple of 4. -/
theorem aligned_iff (off : BitVec 12) : off.extractLsb' 0 2 = 0 ↔ off.toNat % 4 = 0 := by
  rw [← BitVec.toNat_inj]; simp

/-- The mapped offsets, one by one. -/
theorem offsetMapped_iff (off : BitVec 12) : offsetMapped off.toNat = true ↔ ∃ r ∈ HostReg.all, r.offset = off := by
  constructor
  · intro h
    obtain ⟨n, hn, h⟩ : ∃ n < 64, n = off.toNat ∧ offsetMapped n = true :=
      ⟨off.toNat, by simp only [offsetMapped, Bool.or_eq_true, beq_iff_eq, Bool.and_eq_true, decide_eq_true_eq] at h; omega,
        rfl, h⟩
    have key : ∀ n < 64, offsetMapped n = true → ∃ r ∈ HostReg.all, r.offset = BitVec.ofNat 12 n := by decide
    simpa [h.1] using key n hn h.2
  · rintro ⟨r, hr, rfl⟩
    revert r; decide

/-- The offsets that R101 does not list are unmapped. -/
theorem at_eq_none (off : BitVec 12) : HostReg.at? off = none ↔ offsetMapped off.toNat = false := by
  rw [← Bool.not_eq_true, offsetMapped_iff, HostReg.at?, List.find?_eq_none]
  simp

/-- A register mapped at an offset has that offset. -/
theorem offset_of_at {off : BitVec 12} {r : HostReg} (h : HostReg.at? off = some r) : r.offset = off := by
  simpa using List.find?_some h

theorem at_eq_cmd (off : BitVec 12) : HostReg.at? off = some .cmd ↔ off = 0 :=
  ⟨fun h => (offset_of_at h).symm, fun h => by subst h; decide⟩

/-- The mapped registers that the host cannot write. -/
theorem at_readOnly (off : BitVec 12) (hm : offsetMapped off.toNat = true) :
    ((off == 0x004 || off == 0x008 || (0x030 ≤ off.toNat && off.toNat < 0x040)) = true ↔
      (match HostReg.at? off with
        | some .status => true
        | some .id => true
        | some (.res _) => true
        | _ => false) = true) := by
  obtain ⟨r, hr, rfl⟩ := (offsetMapped_iff off).1 hm
  clear hm
  revert r
  decide

/-- Every register is mapped at its own offset. -/
theorem at_offset (r : HostReg) : HostReg.at? r.offset = some r := by
  cases r with
  | cmd => decide
  | status => decide
  | id => decide
  | opa l => revert l; decide
  | opb l => revert l; decide
  | res l => revert l; decide

/-- What a command can end with: a next state, in which it has completed (ERR is 0) or has only been rejected. -/
theorem exec_cases (i : Instr) (s : State) :
    ∃ t, exec i s = .next t ∧ (t.status.err = 0 ∨ ∃ e : ErrorCode, t = s.raise e) := by
  cases i <;> simp only [exec, execNop, execRstAll, execRstOsc, execRstDec, execRstFlt, execRstSat, execWrParam, execRdParam,
    execWrGlobal, execRdGlobal, execRdState, execPaAdd, execPaLoad, execBlepIns, execBlepProc, execSat, execDecWr, execDecProc,
    execOscTick, execFltTick]
  all_goals (try split) <;> (try split)
  all_goals first | exact ⟨_, rfl, .inl rfl⟩ | exact ⟨_, rfl, .inr ⟨_, rfl⟩⟩

/-- What a command word can end with. -/
theorem executeCommand_cases (w : Word) (s : State) :
    ∃ t, executeCommand w s = .next t ∧ (t.status.err = 0 ∨ ∃ e : ErrorCode, t = s.raise e) := by
  unfold executeCommand
  split
  · exact ⟨_, rfl, .inr ⟨_, rfl⟩⟩
  · exact exec_cases _ _

/-- What one step can do: idle, read a register, write an operand, run a command word, or reject the access. -/
theorem step_cases (s : State) :
    (s.bus = [] ∧ step s = .next s)
    ∨ ∃ a rest, s.bus = a :: rest ∧
      let u : State := { s with bus := rest }
      ((∃ v, step s = .next { u with reply := some v })
        ∨ (∃ l v, step s = .next { (u.setOpa l v) with reply := none })
        ∨ (∃ l v, step s = .next { (u.setOpb l v) with reply := none })
        ∨ (∃ w, step s = executeCommand w { u with reply := none })
        ∨ (∃ r, step s = .next { (u.raise .badAccess) with reply := r })) := by
  unfold step serveNext
  split
  · next h => exact .inl ⟨h, rfl⟩
  · next a rest h =>
    refine .inr ⟨a, rest, h, ?_⟩
    unfold serve
    split
    · split
      · exact .inl ⟨_, rfl⟩
      · exact .inr (.inr (.inr (.inr ⟨_, rfl⟩)))
    · split
      · exact .inr (.inr (.inr (.inl ⟨_, rfl⟩)))
      · exact .inr (.inl ⟨_, _, rfl⟩)
      · exact .inr (.inr (.inl ⟨_, _, rfl⟩))
      all_goals exact .inr (.inr (.inr (.inr ⟨_, rfl⟩)))

end Sys2Proof.Machine
end

