-- ==== Sys2Proof/Laws/Memory.lean ====
section
/-! SUPPORT. The laws of the internal arrays: a read after a write, the canonical form, and the bound on indices. -/

namespace Sys2Proof.Machine

theorem cellsRead_insert (i : Nat) (v : Word) (cs : List (Nat × Word)) (j : Nat) :
    cellsRead (cellsInsert i v cs) j = if j = i then v else cellsRead cs j := by
  induction cs with
  | nil => simp only [cellsInsert, cellsRead, eq_comm]
  | cons c rest ih =>
    obtain ⟨k, x⟩ := c
    simp only [cellsInsert]
    split_ifs with h1 h2 <;> simp only [cellsRead, ih] <;> split_ifs <;> first | rfl | (exfalso; omega)

theorem cellsWf_cons (k : Nat) (v : Word) (rest : List (Nat × Word)) :
    cellsWf ((k, v) :: rest) = true ↔ v ≠ 0 ∧ (∀ c ∈ rest, k < c.1) ∧ cellsWf rest = true := by
  simp [cellsWf, and_assoc]

theorem cellsRead_of_lt (cs : List (Nat × Word)) (j : Nat) (h : ∀ c ∈ cs, j < c.1) : cellsRead cs j = 0 := by
  induction cs with
  | nil => rfl
  | cons c rest ih =>
    have := h c (by simp)
    simp only [cellsRead]
    rw [if_neg (by omega)]
    exact ih fun d hd => h d (by simp [hd])

theorem cellsRead_erase (i : Nat) (cs : List (Nat × Word)) (hw : cellsWf cs = true) (j : Nat) :
    cellsRead (cellsErase i cs) j = if j = i then 0 else cellsRead cs j := by
  induction cs with
  | nil => simp [cellsErase, cellsRead]
  | cons c rest ih =>
    obtain ⟨k, x⟩ := c
    obtain ⟨-, hlt, hr⟩ := (cellsWf_cons k x rest).1 hw
    simp only [cellsErase]
    by_cases hik : i = k
    · subst hik
      simp only [if_true, cellsRead]
      by_cases hj : j = i
      · subst hj; simp [cellsRead_of_lt rest j hlt]
      · simp [hj, Ne.symm hj]
    · simp only [if_neg hik, cellsRead, ih hr]
      split_ifs <;> first | rfl | (exfalso; omega)

/-- A read after a write to the same element gives the value written. -/
@[simp] theorem Memory.read_write_same (m : Memory) (i : Nat) (v : Word) (hw : m.wf = true) :
    (m.write i v).read i = v := by
  unfold Memory.write Memory.read
  split
  · simp_all [cellsRead_erase _ _ hw]
  · simp [cellsRead_insert]

/-- A write leaves every other element alone. -/
theorem Memory.read_write_ne (m : Memory) (i j : Nat) (v : Word) (hw : m.wf = true) (h : j ≠ i) :
    (m.write i v).read j = m.read j := by
  unfold Memory.write Memory.read
  split
  · simp [cellsRead_erase _ _ hw, h]
  · simp [cellsRead_insert, h]

/-- Reading any element after a write. -/
theorem Memory.read_write (m : Memory) (i j : Nat) (v : Word) (hw : m.wf = true) :
    (m.write i v).read j = if j = i then v else m.read j := by
  split
  · next h => rw [h, m.read_write_same i v hw]
  · next h => exact m.read_write_ne i j v hw h

@[simp] theorem Memory.read_empty (i : Nat) : Memory.empty.read i = 0 := rfl

@[simp] theorem Memory.wf_empty : Memory.empty.wf = true := rfl

@[simp] theorem Memory.below_empty (n : Nat) : Memory.empty.below n = true := rfl

theorem mem_cellsInsert (i : Nat) (v : Word) (cs : List (Nat × Word)) (c : Nat × Word)
    (h : c ∈ cellsInsert i v cs) : c = (i, v) ∨ c ∈ cs := by
  induction cs with
  | nil => simpa [cellsInsert] using h
  | cons d rest ih =>
    obtain ⟨k, x⟩ := d
    simp only [cellsInsert] at h
    split_ifs at h
    · simpa using h
    · rcases List.mem_cons.1 h with h | h
      · exact .inl h
      · exact .inr (by simp [h])
    · rcases List.mem_cons.1 h with h | h
      · exact .inr (by simp [h])
      · rcases ih h with h | h
        · exact .inl h
        · exact .inr (by simp [h])

theorem mem_cellsErase (i : Nat) (cs : List (Nat × Word)) (c : Nat × Word) (h : c ∈ cellsErase i cs) : c ∈ cs := by
  induction cs with
  | nil => exact h
  | cons d rest ih =>
    obtain ⟨k, x⟩ := d
    simp only [cellsErase] at h
    split_ifs at h
    · simp [h]
    · rcases List.mem_cons.1 h with h | h
      · simp [h]
      · simp [ih h]

theorem cellsWf_insert (i : Nat) (v : Word) (hv : v ≠ 0) (cs : List (Nat × Word)) (hw : cellsWf cs = true) :
    cellsWf (cellsInsert i v cs) = true := by
  induction cs with
  | nil => simpa [cellsInsert, cellsWf] using hv
  | cons d rest ih =>
    obtain ⟨k, x⟩ := d
    obtain ⟨hx, hlt, hr⟩ := (cellsWf_cons k x rest).1 hw
    simp only [cellsInsert]
    split_ifs with h1 h2
    · refine (cellsWf_cons ..).2 ⟨hv, fun c hc => ?_, hw⟩
      rcases List.mem_cons.1 hc with rfl | hc
      · exact h1
      · exact h1.trans (hlt c hc)
    · subst h2; exact (cellsWf_cons ..).2 ⟨hv, hlt, hr⟩
    · refine (cellsWf_cons ..).2 ⟨hx, fun c hc => ?_, ih hr⟩
      rcases mem_cellsInsert i v rest c hc with rfl | hc
      · exact show k < i by omega
      · exact hlt c hc

theorem cellsWf_erase (i : Nat) (cs : List (Nat × Word)) (hw : cellsWf cs = true) : cellsWf (cellsErase i cs) = true := by
  induction cs with
  | nil => rfl
  | cons d rest ih =>
    obtain ⟨k, x⟩ := d
    obtain ⟨hx, hlt, hr⟩ := (cellsWf_cons k x rest).1 hw
    simp only [cellsErase]
    split_ifs
    · exact hr
    · exact (cellsWf_cons ..).2 ⟨hx, fun c hc => hlt c (mem_cellsErase i rest c hc), ih hr⟩

/-- Every write keeps the canonical form. -/
@[simp] theorem Memory.wf_write (m : Memory) (i : Nat) (v : Word) (hw : m.wf = true) : (m.write i v).wf = true := by
  unfold Memory.write Memory.wf
  split
  · exact cellsWf_erase i _ hw
  · next h => exact cellsWf_insert i v h _ hw

/-- A write below the array's length keeps every listed index below it. -/
theorem Memory.below_write (m : Memory) (i n : Nat) (v : Word) (hb : m.below n = true) (hi : i < n) :
    (m.write i v).below n = true := by
  simp only [Memory.below, List.all_eq_true, decide_eq_true_eq] at hb ⊢
  intro c hc
  unfold Memory.write at hc
  split at hc
  · exact hb c (mem_cellsErase i _ c hc)
  · rcases mem_cellsInsert i v _ c hc with rfl | hc
    · exact hi
    · exact hb c hc

theorem cellsRead_head (k : Nat) (v : Word) (rest : List (Nat × Word)) : cellsRead ((k, v) :: rest) k = v := by
  simp [cellsRead]

theorem cells_ext : ∀ (as bs : List (Nat × Word)), cellsWf as = true → cellsWf bs = true →
    (∀ i, cellsRead as i = cellsRead bs i) → as = bs
  | [], [], _, _, _ => rfl
  | [], (k, v) :: bs, _, hb, h => by
    have := h k
    rw [cellsRead_head] at this
    exact absurd this.symm ((cellsWf_cons ..).1 hb).1
  | (k, v) :: as, [], ha, _, h => by
    have := h k
    rw [cellsRead_head] at this
    exact absurd this ((cellsWf_cons ..).1 ha).1
  | (k, v) :: as, (k', v') :: bs, ha, hb, h => by
    obtain ⟨hv, hlt, hr⟩ := (cellsWf_cons ..).1 ha
    obtain ⟨hv', hlt', hr'⟩ := (cellsWf_cons ..).1 hb
    have hk : k = k' := by
      rcases Nat.lt_trichotomy k k' with hl | hl | hl
      · have := h k
        rw [cellsRead_head, cellsRead_of_lt _ _ (by
          intro c hc
          rcases List.mem_cons.1 hc with rfl | hc
          · exact hl
          · exact hl.trans (hlt' c hc))] at this
        exact absurd this hv
      · exact hl
      · have := h k'
        rw [cellsRead_head, cellsRead_of_lt ((k, v) :: as) _ (by
          intro c hc
          rcases List.mem_cons.1 hc with rfl | hc
          · exact hl
          · exact hl.trans (hlt c hc))] at this
        exact absurd this.symm hv'
    subst hk
    have hvv : v = v' := by simpa [cellsRead_head] using h k
    subst hvv
    rw [cells_ext as bs hr hr' fun i => ?_]
    by_cases hi : i ≤ k
    · rw [cellsRead_of_lt as i fun c hc => lt_of_le_of_lt hi (hlt c hc),
        cellsRead_of_lt bs i fun c hc => lt_of_le_of_lt hi (hlt' c hc)]
    · have := h i
      simpa [cellsRead, show k ≠ i by omega] using this

/-- Arrays in canonical form with the same elements are the same data. -/
theorem Memory.ext_of_read (m n : Memory) (hm : m.wf = true) (hn : n.wf = true) (h : ∀ i, m.read i = n.read i) :
    m = n := by
  cases m; cases n
  congr
  exact cells_ext _ _ hm hn h

end Sys2Proof.Machine
end

