-- ==== Sys2Proof/Laws/State.lean ====
section
/-! SUPPORT. One lemma for each field and each update of the state's records, true by rfl, so that no proof unfolds a
record update. -/

namespace Sys2Proof.Machine

/-! ### State.setChannel -/
@[simp] theorem State.setChannel_cfg (s : State) (b : Batch) (l : Lane) (c : Channel) :
    (s.setChannel b l c).cfg = s.cfg := rfl
@[simp] theorem State.setChannel_opa (s : State) (b : Batch) (l : Lane) (c : Channel) :
    (s.setChannel b l c).opa = s.opa := rfl
@[simp] theorem State.setChannel_opb (s : State) (b : Batch) (l : Lane) (c : Channel) :
    (s.setChannel b l c).opb = s.opb := rfl
@[simp] theorem State.setChannel_res (s : State) (b : Batch) (l : Lane) (c : Channel) :
    (s.setChannel b l c).res = s.res := rfl
@[simp] theorem State.setChannel_status (s : State) (b : Batch) (l : Lane) (c : Channel) :
    (s.setChannel b l c).status = s.status := rfl
@[simp] theorem State.setChannel_glob (s : State) (b : Batch) (l : Lane) (c : Channel) :
    (s.setChannel b l c).glob = s.glob := rfl
@[simp] theorem State.setChannel_chans (s : State) (b : Batch) (l : Lane) (c : Channel) :
    (s.setChannel b l c).chans = s.chans.set b.val ((s.chans[b.val]).set l.val c) := rfl
@[simp] theorem State.setChannel_bus (s : State) (b : Batch) (l : Lane) (c : Channel) :
    (s.setChannel b l c).bus = s.bus := rfl
@[simp] theorem State.setChannel_reply (s : State) (b : Batch) (l : Lane) (c : Channel) :
    (s.setChannel b l c).reply = s.reply := rfl


/-! ### State.mapChannels -/
@[simp] theorem State.mapChannels_cfg (s : State) (f : Channel → Channel) : (s.mapChannels f).cfg = s.cfg := rfl
@[simp] theorem State.mapChannels_opa (s : State) (f : Channel → Channel) : (s.mapChannels f).opa = s.opa := rfl
@[simp] theorem State.mapChannels_opb (s : State) (f : Channel → Channel) : (s.mapChannels f).opb = s.opb := rfl
@[simp] theorem State.mapChannels_res (s : State) (f : Channel → Channel) : (s.mapChannels f).res = s.res := rfl
@[simp] theorem State.mapChannels_status (s : State) (f : Channel → Channel) :
    (s.mapChannels f).status = s.status := rfl
@[simp] theorem State.mapChannels_glob (s : State) (f : Channel → Channel) : (s.mapChannels f).glob = s.glob := rfl
@[simp] theorem State.mapChannels_chans (s : State) (f : Channel → Channel) :
    (s.mapChannels f).chans = map4 (map4 f) s.chans := rfl
@[simp] theorem State.mapChannels_bus (s : State) (f : Channel → Channel) : (s.mapChannels f).bus = s.bus := rfl
@[simp] theorem State.mapChannels_reply (s : State) (f : Channel → Channel) : (s.mapChannels f).reply = s.reply := rfl


/-! ### State.setRes -/
@[simp] theorem State.setRes_cfg (s : State) (l : Lane) (v : Word) : (s.setRes l v).cfg = s.cfg := rfl
@[simp] theorem State.setRes_opa (s : State) (l : Lane) (v : Word) : (s.setRes l v).opa = s.opa := rfl
@[simp] theorem State.setRes_opb (s : State) (l : Lane) (v : Word) : (s.setRes l v).opb = s.opb := rfl
@[simp] theorem State.setRes_res (s : State) (l : Lane) (v : Word) : (s.setRes l v).res = s.res.set l.val v := rfl
@[simp] theorem State.setRes_status (s : State) (l : Lane) (v : Word) : (s.setRes l v).status = s.status := rfl
@[simp] theorem State.setRes_glob (s : State) (l : Lane) (v : Word) : (s.setRes l v).glob = s.glob := rfl
@[simp] theorem State.setRes_chans (s : State) (l : Lane) (v : Word) : (s.setRes l v).chans = s.chans := rfl
@[simp] theorem State.setRes_bus (s : State) (l : Lane) (v : Word) : (s.setRes l v).bus = s.bus := rfl
@[simp] theorem State.setRes_reply (s : State) (l : Lane) (v : Word) : (s.setRes l v).reply = s.reply := rfl


/-! ### State.raise -/
@[simp] theorem State.raise_cfg (s : State) (e : ErrorCode) : (s.raise e).cfg = s.cfg := rfl
@[simp] theorem State.raise_opa (s : State) (e : ErrorCode) : (s.raise e).opa = s.opa := rfl
@[simp] theorem State.raise_opb (s : State) (e : ErrorCode) : (s.raise e).opb = s.opb := rfl
@[simp] theorem State.raise_res (s : State) (e : ErrorCode) : (s.raise e).res = s.res := rfl
@[simp] theorem State.raise_status (s : State) (e : ErrorCode) : (s.raise e).status = s.status.setErr e.code := rfl
@[simp] theorem State.raise_glob (s : State) (e : ErrorCode) : (s.raise e).glob = s.glob := rfl
@[simp] theorem State.raise_chans (s : State) (e : ErrorCode) : (s.raise e).chans = s.chans := rfl
@[simp] theorem State.raise_bus (s : State) (e : ErrorCode) : (s.raise e).bus = s.bus := rfl
@[simp] theorem State.raise_reply (s : State) (e : ErrorCode) : (s.raise e).reply = s.reply := rfl


/-! ### State.complete -/
@[simp] theorem State.complete_cfg (s : State) : (s.complete).cfg = s.cfg := rfl
@[simp] theorem State.complete_opa (s : State) : (s.complete).opa = s.opa := rfl
@[simp] theorem State.complete_opb (s : State) : (s.complete).opb = s.opb := rfl
@[simp] theorem State.complete_res (s : State) : (s.complete).res = s.res := rfl
@[simp] theorem State.complete_status (s : State) : (s.complete).status = s.status.setErr 0 := rfl
@[simp] theorem State.complete_glob (s : State) : (s.complete).glob = s.glob := rfl
@[simp] theorem State.complete_chans (s : State) : (s.complete).chans = s.chans := rfl
@[simp] theorem State.complete_bus (s : State) : (s.complete).bus = s.bus := rfl
@[simp] theorem State.complete_reply (s : State) : (s.complete).reply = s.reply := rfl


/-! ### State.setOsr -/
@[simp] theorem State.setOsr_cfg (s : State) (v : Word) : (s.setOsr v).cfg = s.cfg := rfl
@[simp] theorem State.setOsr_opa (s : State) (v : Word) : (s.setOsr v).opa = s.opa := rfl
@[simp] theorem State.setOsr_opb (s : State) (v : Word) : (s.setOsr v).opb = s.opb := rfl
@[simp] theorem State.setOsr_res (s : State) (v : Word) : (s.setOsr v).res = s.res := rfl
@[simp] theorem State.setOsr_status (s : State) (v : Word) : (s.setOsr v).status = s.status := rfl
@[simp] theorem State.setOsr_glob (s : State) (v : Word) : (s.setOsr v).glob = { s.glob with osrLog2 := v } := rfl
@[simp] theorem State.setOsr_chans (s : State) (v : Word) :
    (s.setOsr v).chans = map4 (map4 fun c => c.zeroSel .both) s.chans := rfl
@[simp] theorem State.setOsr_bus (s : State) (v : Word) : (s.setOsr v).bus = s.bus := rfl
@[simp] theorem State.setOsr_reply (s : State) (v : Word) : (s.setOsr v).reply = s.reply := rfl


/-! ### State.setOpa -/
@[simp] theorem State.setOpa_cfg (s : State) (l : Lane) (v : Word) : (s.setOpa l v).cfg = s.cfg := rfl
@[simp] theorem State.setOpa_opa (s : State) (l : Lane) (v : Word) : (s.setOpa l v).opa = s.opa.set l.val v := rfl
@[simp] theorem State.setOpa_opb (s : State) (l : Lane) (v : Word) : (s.setOpa l v).opb = s.opb := rfl
@[simp] theorem State.setOpa_res (s : State) (l : Lane) (v : Word) : (s.setOpa l v).res = s.res := rfl
@[simp] theorem State.setOpa_status (s : State) (l : Lane) (v : Word) : (s.setOpa l v).status = s.status := rfl
@[simp] theorem State.setOpa_glob (s : State) (l : Lane) (v : Word) : (s.setOpa l v).glob = s.glob := rfl
@[simp] theorem State.setOpa_chans (s : State) (l : Lane) (v : Word) : (s.setOpa l v).chans = s.chans := rfl
@[simp] theorem State.setOpa_bus (s : State) (l : Lane) (v : Word) : (s.setOpa l v).bus = s.bus := rfl
@[simp] theorem State.setOpa_reply (s : State) (l : Lane) (v : Word) : (s.setOpa l v).reply = s.reply := rfl


/-! ### State.setOpb -/
@[simp] theorem State.setOpb_cfg (s : State) (l : Lane) (v : Word) : (s.setOpb l v).cfg = s.cfg := rfl
@[simp] theorem State.setOpb_opa (s : State) (l : Lane) (v : Word) : (s.setOpb l v).opa = s.opa := rfl
@[simp] theorem State.setOpb_opb (s : State) (l : Lane) (v : Word) : (s.setOpb l v).opb = s.opb.set l.val v := rfl
@[simp] theorem State.setOpb_res (s : State) (l : Lane) (v : Word) : (s.setOpb l v).res = s.res := rfl
@[simp] theorem State.setOpb_status (s : State) (l : Lane) (v : Word) : (s.setOpb l v).status = s.status := rfl
@[simp] theorem State.setOpb_glob (s : State) (l : Lane) (v : Word) : (s.setOpb l v).glob = s.glob := rfl
@[simp] theorem State.setOpb_chans (s : State) (l : Lane) (v : Word) : (s.setOpb l v).chans = s.chans := rfl
@[simp] theorem State.setOpb_bus (s : State) (l : Lane) (v : Word) : (s.setOpb l v).bus = s.bus := rfl
@[simp] theorem State.setOpb_reply (s : State) (l : Lane) (v : Word) : (s.setOpb l v).reply = s.reply := rfl


/-! ### State.withFetchWord -/
@[simp] theorem State.withFetchWord_cfg (s : State) (n w : Nat) : (s.withFetchWord n w).cfg = s.cfg := rfl
@[simp] theorem State.withFetchWord_opa (s : State) (n w : Nat) : (s.withFetchWord n w).opa = s.opa := rfl
@[simp] theorem State.withFetchWord_opb (s : State) (n w : Nat) : (s.withFetchWord n w).opb = s.opb := rfl
@[simp] theorem State.withFetchWord_res (s : State) (n w : Nat) : (s.withFetchWord n w).res = s.res := rfl
@[simp] theorem State.withFetchWord_status (s : State) (n w : Nat) : (s.withFetchWord n w).status = s.status := rfl
@[simp] theorem State.withFetchWord_glob (s : State) (n w : Nat) : (s.withFetchWord n w).glob = s.glob := rfl
@[simp] theorem State.withFetchWord_chans (s : State) (n w : Nat) : (s.withFetchWord n w).chans = s.chans := rfl
@[simp] theorem State.withFetchWord_bus (s : State) (n w : Nat) :
    (s.withFetchWord n w).bus = cmdWrite (BitVec.ofNat 32 (w % 2 ^ n)) :: s.bus := rfl
@[simp] theorem State.withFetchWord_reply (s : State) (n w : Nat) : (s.withFetchWord n w).reply = s.reply := rfl


/-! ### State.issue -/
@[simp] theorem State.issue_cfg (s : State) (as : List HostAccess) : (s.issue as).cfg = s.cfg := rfl
@[simp] theorem State.issue_opa (s : State) (as : List HostAccess) : (s.issue as).opa = s.opa := rfl
@[simp] theorem State.issue_opb (s : State) (as : List HostAccess) : (s.issue as).opb = s.opb := rfl
@[simp] theorem State.issue_res (s : State) (as : List HostAccess) : (s.issue as).res = s.res := rfl
@[simp] theorem State.issue_status (s : State) (as : List HostAccess) : (s.issue as).status = s.status := rfl
@[simp] theorem State.issue_glob (s : State) (as : List HostAccess) : (s.issue as).glob = s.glob := rfl
@[simp] theorem State.issue_chans (s : State) (as : List HostAccess) : (s.issue as).chans = s.chans := rfl
@[simp] theorem State.issue_bus (s : State) (as : List HostAccess) : (s.issue as).bus = s.bus ++ as := rfl
@[simp] theorem State.issue_reply (s : State) (as : List HostAccess) : (s.issue as).reply = s.reply := rfl


/-! ### Channel.zeroOsc -/
@[simp] theorem Channel.zeroOsc_par (c : Channel) : (c.zeroOsc).par = c.par := rfl
@[simp] theorem Channel.zeroOsc_p1 (c : Channel) : (c.zeroOsc).p1 = 0 := rfl
@[simp] theorem Channel.zeroOsc_p2 (c : Channel) : (c.zeroOsc).p2 = 0 := rfl
@[simp] theorem Channel.zeroOsc_ps (c : Channel) : (c.zeroOsc).ps = 0 := rfl
@[simp] theorem Channel.zeroOsc_c0 (c : Channel) : (c.zeroOsc).c0 = 0 := rfl
@[simp] theorem Channel.zeroOsc_c1 (c : Channel) : (c.zeroOsc).c1 = 0 := rfl
@[simp] theorem Channel.zeroOsc_dly (c : Channel) : (c.zeroOsc).dly = 0 := rfl
@[simp] theorem Channel.zeroOsc_rdly (c : Channel) : (c.zeroOsc).rdly = 0 := rfl
@[simp] theorem Channel.zeroOsc_x (c : Channel) : (c.zeroOsc).x = c.x := rfl
@[simp] theorem Channel.zeroOsc_prev (c : Channel) : (c.zeroOsc).prev = c.prev := rfl
@[simp] theorem Channel.zeroOsc_xp (c : Channel) : (c.zeroOsc).xp = c.xp := rfl
@[simp] theorem Channel.zeroOsc_osc (c : Channel) : (c.zeroOsc).osc = c.osc := rfl
@[simp] theorem Channel.zeroOsc_flt (c : Channel) : (c.zeroOsc).flt = c.flt := rfl


/-! ### Channel.zeroFlt -/
@[simp] theorem Channel.zeroFlt_par (c : Channel) : (c.zeroFlt).par = c.par := rfl
@[simp] theorem Channel.zeroFlt_p1 (c : Channel) : (c.zeroFlt).p1 = c.p1 := rfl
@[simp] theorem Channel.zeroFlt_p2 (c : Channel) : (c.zeroFlt).p2 = c.p2 := rfl
@[simp] theorem Channel.zeroFlt_ps (c : Channel) : (c.zeroFlt).ps = c.ps := rfl
@[simp] theorem Channel.zeroFlt_c0 (c : Channel) : (c.zeroFlt).c0 = c.c0 := rfl
@[simp] theorem Channel.zeroFlt_c1 (c : Channel) : (c.zeroFlt).c1 = c.c1 := rfl
@[simp] theorem Channel.zeroFlt_dly (c : Channel) : (c.zeroFlt).dly = c.dly := rfl
@[simp] theorem Channel.zeroFlt_rdly (c : Channel) : (c.zeroFlt).rdly = c.rdly := rfl
@[simp] theorem Channel.zeroFlt_x (c : Channel) : (c.zeroFlt).x = Vector.replicate 4 fPlusZero := rfl
@[simp] theorem Channel.zeroFlt_prev (c : Channel) : (c.zeroFlt).prev = fPlusZero := rfl
@[simp] theorem Channel.zeroFlt_xp (c : Channel) : (c.zeroFlt).xp = c.xp := rfl
@[simp] theorem Channel.zeroFlt_osc (c : Channel) : (c.zeroFlt).osc = c.osc := rfl
@[simp] theorem Channel.zeroFlt_flt (c : Channel) : (c.zeroFlt).flt = c.flt := rfl


/-! ### Channel.zeroSat -/
@[simp] theorem Channel.zeroSat_par (c : Channel) : (c.zeroSat).par = c.par := rfl
@[simp] theorem Channel.zeroSat_p1 (c : Channel) : (c.zeroSat).p1 = c.p1 := rfl
@[simp] theorem Channel.zeroSat_p2 (c : Channel) : (c.zeroSat).p2 = c.p2 := rfl
@[simp] theorem Channel.zeroSat_ps (c : Channel) : (c.zeroSat).ps = c.ps := rfl
@[simp] theorem Channel.zeroSat_c0 (c : Channel) : (c.zeroSat).c0 = c.c0 := rfl
@[simp] theorem Channel.zeroSat_c1 (c : Channel) : (c.zeroSat).c1 = c.c1 := rfl
@[simp] theorem Channel.zeroSat_dly (c : Channel) : (c.zeroSat).dly = c.dly := rfl
@[simp] theorem Channel.zeroSat_rdly (c : Channel) : (c.zeroSat).rdly = c.rdly := rfl
@[simp] theorem Channel.zeroSat_x (c : Channel) : (c.zeroSat).x = c.x := rfl
@[simp] theorem Channel.zeroSat_prev (c : Channel) : (c.zeroSat).prev = c.prev := rfl
@[simp] theorem Channel.zeroSat_xp (c : Channel) : (c.zeroSat).xp = fPlusZero := rfl
@[simp] theorem Channel.zeroSat_osc (c : Channel) : (c.zeroSat).osc = c.osc := rfl
@[simp] theorem Channel.zeroSat_flt (c : Channel) : (c.zeroSat).flt = c.flt := rfl


/-! ### Channel.blepIns -/
@[simp] theorem Channel.blepIns_par (c : Channel) (d a : F32) : (c.blepIns d a).par = c.par := rfl
@[simp] theorem Channel.blepIns_p1 (c : Channel) (d a : F32) : (c.blepIns d a).p1 = c.p1 := rfl
@[simp] theorem Channel.blepIns_p2 (c : Channel) (d a : F32) : (c.blepIns d a).p2 = c.p2 := rfl
@[simp] theorem Channel.blepIns_ps (c : Channel) (d a : F32) : (c.blepIns d a).ps = c.ps := rfl
@[simp] theorem Channel.blepIns_c0 (c : Channel) (d a : F32) : (c.blepIns d a).c0 = fadd c.c0 (blepBefore d a) := rfl
@[simp] theorem Channel.blepIns_c1 (c : Channel) (d a : F32) : (c.blepIns d a).c1 = fsub c.c1 (blepAfter d a) := rfl
@[simp] theorem Channel.blepIns_dly (c : Channel) (d a : F32) : (c.blepIns d a).dly = c.dly := rfl
@[simp] theorem Channel.blepIns_rdly (c : Channel) (d a : F32) : (c.blepIns d a).rdly = c.rdly := rfl
@[simp] theorem Channel.blepIns_x (c : Channel) (d a : F32) : (c.blepIns d a).x = c.x := rfl
@[simp] theorem Channel.blepIns_prev (c : Channel) (d a : F32) : (c.blepIns d a).prev = c.prev := rfl
@[simp] theorem Channel.blepIns_xp (c : Channel) (d a : F32) : (c.blepIns d a).xp = c.xp := rfl
@[simp] theorem Channel.blepIns_osc (c : Channel) (d a : F32) : (c.blepIns d a).osc = c.osc := rfl
@[simp] theorem Channel.blepIns_flt (c : Channel) (d a : F32) : (c.blepIns d a).flt = c.flt := rfl


/-! ### Channel.blampIns -/
@[simp] theorem Channel.blampIns_par (c : Channel) (d a : F32) : (c.blampIns d a).par = c.par := rfl
@[simp] theorem Channel.blampIns_p1 (c : Channel) (d a : F32) : (c.blampIns d a).p1 = c.p1 := rfl
@[simp] theorem Channel.blampIns_p2 (c : Channel) (d a : F32) : (c.blampIns d a).p2 = c.p2 := rfl
@[simp] theorem Channel.blampIns_ps (c : Channel) (d a : F32) : (c.blampIns d a).ps = c.ps := rfl
@[simp] theorem Channel.blampIns_c0 (c : Channel) (d a : F32) :
    (c.blampIns d a).c0 = fadd c.c0 (blampBefore d a) := rfl
@[simp] theorem Channel.blampIns_c1 (c : Channel) (d a : F32) :
    (c.blampIns d a).c1 = fadd c.c1 (blampAfter d a) := rfl
@[simp] theorem Channel.blampIns_dly (c : Channel) (d a : F32) : (c.blampIns d a).dly = c.dly := rfl
@[simp] theorem Channel.blampIns_rdly (c : Channel) (d a : F32) : (c.blampIns d a).rdly = c.rdly := rfl
@[simp] theorem Channel.blampIns_x (c : Channel) (d a : F32) : (c.blampIns d a).x = c.x := rfl
@[simp] theorem Channel.blampIns_prev (c : Channel) (d a : F32) : (c.blampIns d a).prev = c.prev := rfl
@[simp] theorem Channel.blampIns_xp (c : Channel) (d a : F32) : (c.blampIns d a).xp = c.xp := rfl
@[simp] theorem Channel.blampIns_osc (c : Channel) (d a : F32) : (c.blampIns d a).osc = c.osc := rfl
@[simp] theorem Channel.blampIns_flt (c : Channel) (d a : F32) : (c.blampIns d a).flt = c.flt := rfl


/-! ### Channel.blepShift -/
@[simp] theorem Channel.blepShift_par (c : Channel) (v : F32) : (c.blepShift v).par = c.par := rfl
@[simp] theorem Channel.blepShift_p1 (c : Channel) (v : F32) : (c.blepShift v).p1 = c.p1 := rfl
@[simp] theorem Channel.blepShift_p2 (c : Channel) (v : F32) : (c.blepShift v).p2 = c.p2 := rfl
@[simp] theorem Channel.blepShift_ps (c : Channel) (v : F32) : (c.blepShift v).ps = c.ps := rfl
@[simp] theorem Channel.blepShift_c0 (c : Channel) (v : F32) : (c.blepShift v).c0 = c.c1 := rfl
@[simp] theorem Channel.blepShift_c1 (c : Channel) (v : F32) : (c.blepShift v).c1 = fPlusZero := rfl
@[simp] theorem Channel.blepShift_dly (c : Channel) (v : F32) : (c.blepShift v).dly = v := rfl
@[simp] theorem Channel.blepShift_rdly (c : Channel) (v : F32) : (c.blepShift v).rdly = c.rdly := rfl
@[simp] theorem Channel.blepShift_x (c : Channel) (v : F32) : (c.blepShift v).x = c.x := rfl
@[simp] theorem Channel.blepShift_prev (c : Channel) (v : F32) : (c.blepShift v).prev = c.prev := rfl
@[simp] theorem Channel.blepShift_xp (c : Channel) (v : F32) : (c.blepShift v).xp = c.xp := rfl
@[simp] theorem Channel.blepShift_osc (c : Channel) (v : F32) : (c.blepShift v).osc = c.osc := rfl
@[simp] theorem Channel.blepShift_flt (c : Channel) (v : F32) : (c.blepShift v).flt = c.flt := rfl


/-! ### Channel.correctedShift -/
@[simp] theorem Channel.correctedShift_par (c : Channel) (lin ring : F32) :
    (c.correctedShift lin ring).par = c.par := rfl
@[simp] theorem Channel.correctedShift_p1 (c : Channel) (lin ring : F32) :
    (c.correctedShift lin ring).p1 = c.p1 := rfl
@[simp] theorem Channel.correctedShift_p2 (c : Channel) (lin ring : F32) :
    (c.correctedShift lin ring).p2 = c.p2 := rfl
@[simp] theorem Channel.correctedShift_ps (c : Channel) (lin ring : F32) :
    (c.correctedShift lin ring).ps = c.ps := rfl
@[simp] theorem Channel.correctedShift_c0 (c : Channel) (lin ring : F32) :
    (c.correctedShift lin ring).c0 = c.c1 := rfl
@[simp] theorem Channel.correctedShift_c1 (c : Channel) (lin ring : F32) :
    (c.correctedShift lin ring).c1 = fPlusZero := rfl
@[simp] theorem Channel.correctedShift_dly (c : Channel) (lin ring : F32) :
    (c.correctedShift lin ring).dly = lin := rfl
@[simp] theorem Channel.correctedShift_rdly (c : Channel) (lin ring : F32) :
    (c.correctedShift lin ring).rdly = ring := rfl
@[simp] theorem Channel.correctedShift_x (c : Channel) (lin ring : F32) : (c.correctedShift lin ring).x = c.x := rfl
@[simp] theorem Channel.correctedShift_prev (c : Channel) (lin ring : F32) :
    (c.correctedShift lin ring).prev = c.prev := rfl
@[simp] theorem Channel.correctedShift_xp (c : Channel) (lin ring : F32) :
    (c.correctedShift lin ring).xp = c.xp := rfl
@[simp] theorem Channel.correctedShift_osc (c : Channel) (lin ring : F32) :
    (c.correctedShift lin ring).osc = c.osc := rfl
@[simp] theorem Channel.correctedShift_flt (c : Channel) (lin ring : F32) :
    (c.correctedShift lin ring).flt = c.flt := rfl


/-! ### Channel.setAcc -/
@[simp] theorem Channel.setAcc_par (c : Channel) (v : Word) (a : AccSel) : (c.setAcc v a).par = c.par := by cases a <;> rfl
@[simp] theorem Channel.setAcc_c0 (c : Channel) (v : Word) (a : AccSel) : (c.setAcc v a).c0 = c.c0 := by cases a <;> rfl
@[simp] theorem Channel.setAcc_c1 (c : Channel) (v : Word) (a : AccSel) : (c.setAcc v a).c1 = c.c1 := by cases a <;> rfl
@[simp] theorem Channel.setAcc_dly (c : Channel) (v : Word) (a : AccSel) : (c.setAcc v a).dly = c.dly := by cases a <;> rfl
@[simp] theorem Channel.setAcc_rdly (c : Channel) (v : Word) (a : AccSel) : (c.setAcc v a).rdly = c.rdly := by cases a <;> rfl
@[simp] theorem Channel.setAcc_x (c : Channel) (v : Word) (a : AccSel) : (c.setAcc v a).x = c.x := by cases a <;> rfl
@[simp] theorem Channel.setAcc_prev (c : Channel) (v : Word) (a : AccSel) : (c.setAcc v a).prev = c.prev := by cases a <;> rfl
@[simp] theorem Channel.setAcc_xp (c : Channel) (v : Word) (a : AccSel) : (c.setAcc v a).xp = c.xp := by cases a <;> rfl
@[simp] theorem Channel.setAcc_osc (c : Channel) (v : Word) (a : AccSel) : (c.setAcc v a).osc = c.osc := by cases a <;> rfl
@[simp] theorem Channel.setAcc_flt (c : Channel) (v : Word) (a : AccSel) : (c.setAcc v a).flt = c.flt := by cases a <;> rfl


/-! ### Channel.setDec -/
@[simp] theorem Channel.setDec_par (c : Channel) (d : Decimator) (i : DecInst) : (c.setDec d i).par = c.par := by cases i <;> rfl
@[simp] theorem Channel.setDec_p1 (c : Channel) (d : Decimator) (i : DecInst) : (c.setDec d i).p1 = c.p1 := by cases i <;> rfl
@[simp] theorem Channel.setDec_p2 (c : Channel) (d : Decimator) (i : DecInst) : (c.setDec d i).p2 = c.p2 := by cases i <;> rfl
@[simp] theorem Channel.setDec_ps (c : Channel) (d : Decimator) (i : DecInst) : (c.setDec d i).ps = c.ps := by cases i <;> rfl
@[simp] theorem Channel.setDec_c0 (c : Channel) (d : Decimator) (i : DecInst) : (c.setDec d i).c0 = c.c0 := by cases i <;> rfl
@[simp] theorem Channel.setDec_c1 (c : Channel) (d : Decimator) (i : DecInst) : (c.setDec d i).c1 = c.c1 := by cases i <;> rfl
@[simp] theorem Channel.setDec_dly (c : Channel) (d : Decimator) (i : DecInst) : (c.setDec d i).dly = c.dly := by cases i <;> rfl
@[simp] theorem Channel.setDec_rdly (c : Channel) (d : Decimator) (i : DecInst) : (c.setDec d i).rdly = c.rdly := by cases i <;> rfl
@[simp] theorem Channel.setDec_x (c : Channel) (d : Decimator) (i : DecInst) : (c.setDec d i).x = c.x := by cases i <;> rfl
@[simp] theorem Channel.setDec_prev (c : Channel) (d : Decimator) (i : DecInst) : (c.setDec d i).prev = c.prev := by cases i <;> rfl
@[simp] theorem Channel.setDec_xp (c : Channel) (d : Decimator) (i : DecInst) : (c.setDec d i).xp = c.xp := by cases i <;> rfl


/-! ### Channel.zeroSel -/
@[simp] theorem Channel.zeroSel_par (c : Channel) (d : DecSel) : (c.zeroSel d).par = c.par := by cases d <;> rfl
@[simp] theorem Channel.zeroSel_p1 (c : Channel) (d : DecSel) : (c.zeroSel d).p1 = c.p1 := by cases d <;> rfl
@[simp] theorem Channel.zeroSel_p2 (c : Channel) (d : DecSel) : (c.zeroSel d).p2 = c.p2 := by cases d <;> rfl
@[simp] theorem Channel.zeroSel_ps (c : Channel) (d : DecSel) : (c.zeroSel d).ps = c.ps := by cases d <;> rfl
@[simp] theorem Channel.zeroSel_c0 (c : Channel) (d : DecSel) : (c.zeroSel d).c0 = c.c0 := by cases d <;> rfl
@[simp] theorem Channel.zeroSel_c1 (c : Channel) (d : DecSel) : (c.zeroSel d).c1 = c.c1 := by cases d <;> rfl
@[simp] theorem Channel.zeroSel_dly (c : Channel) (d : DecSel) : (c.zeroSel d).dly = c.dly := by cases d <;> rfl
@[simp] theorem Channel.zeroSel_rdly (c : Channel) (d : DecSel) : (c.zeroSel d).rdly = c.rdly := by cases d <;> rfl
@[simp] theorem Channel.zeroSel_x (c : Channel) (d : DecSel) : (c.zeroSel d).x = c.x := by cases d <;> rfl
@[simp] theorem Channel.zeroSel_prev (c : Channel) (d : DecSel) : (c.zeroSel d).prev = c.prev := by cases d <;> rfl
@[simp] theorem Channel.zeroSel_xp (c : Channel) (d : DecSel) : (c.zeroSel d).xp = c.xp := by cases d <;> rfl

@[simp] theorem Channel.acc_setAcc (c : Channel) (v : Word) (a : AccSel) : (c.setAcc v a).acc a = v := by cases a <;> rfl

theorem Channel.acc_setAcc_ne (c : Channel) (v : Word) (a a' : AccSel) (h : a' ≠ a) : (c.setAcc v a).acc a' = c.acc a' := by
  cases a <;> cases a' <;> first | rfl | exact absurd rfl h
@[simp] theorem Channel.dec_setDec (c : Channel) (d : Decimator) (i : DecInst) : (c.setDec d i).dec i = d := by
  cases i <;> rfl

theorem Channel.dec_setDec_ne (c : Channel) (d : Decimator) (i i' : DecInst) (h : i' ≠ i) :
    (c.setDec d i).dec i' = c.dec i' := by
  cases i <;> cases i' <;> first | rfl | exact absurd rfl h
@[simp] theorem Params.read_put (p : Params) (v : Word) (k : ParamId) : (p.put v k).read k = v := by cases k <;> rfl

theorem Params.read_put_ne (p : Params) (v : Word) (k k' : ParamId) (h : k' ≠ k) : (p.put v k).read k' = p.read k' := by
  cases k <;> cases k' <;> first | rfl | exact absurd rfl h

/-! ### Status -/
@[simp] theorem Status.setErr_err (t : Status) (e : BitVec 4) : (t.setErr e).err = e := rfl
@[simp] theorem Status.setErr_wrap (t : Status) (e : BitVec 4) : (t.setErr e).wrap = t.wrap := rfl
@[simp] theorem Status.setErr_synced (t : Status) (e : BitVec 4) : (t.setErr e).synced = t.synced := rfl
@[simp] theorem Status.setWrap_err (t : Status) (l : Lane) (v : Bool) : (t.setWrap l v).err = t.err := rfl
@[simp] theorem Status.setWrap_wrap (t : Status) (l : Lane) (v : Bool) :
    (t.setWrap l v).wrap = writeBit t.wrap l v := rfl
@[simp] theorem Status.setWrap_synced (t : Status) (l : Lane) (v : Bool) : (t.setWrap l v).synced = t.synced := rfl
@[simp] theorem Status.setSynced_err (t : Status) (l : Lane) (v : Bool) : (t.setSynced l v).err = t.err := rfl
@[simp] theorem Status.setSynced_wrap (t : Status) (l : Lane) (v : Bool) : (t.setSynced l v).wrap = t.wrap := rfl
@[simp] theorem Status.setSynced_synced (t : Status) (l : Lane) (v : Bool) :
    (t.setSynced l v).synced = writeBit t.synced l v := rfl

/-! ### Decimators -/
@[simp] theorem Decimator.setStage_input (d : Decimator) (j : Nat) (st : Stage) :
    (d.setStage j st).input = d.input := rfl
@[simp] theorem Decimator.setStage_stages (d : Decimator) (j : Nat) (st : Stage) :
    (d.setStage j st).stages = d.stages.setIfInBounds j st := rfl
@[simp] theorem Decimator.writeInput_input (d : Decimator) (i : Nat) (v : F32) :
    (d.writeInput i v).input = d.input.write i v := rfl
@[simp] theorem Decimator.writeInput_stages (d : Decimator) (i : Nat) (v : F32) :
    (d.writeInput i v).stages = d.stages := rfl
@[simp] theorem Decimator.writeInput_stage (d : Decimator) (i j : Nat) (v : F32) :
    (d.writeInput i v).stage j = d.stage j := rfl

end Sys2Proof.Machine
end

