-- ==== Sys2Proof/Laws/Cascade.lean ====
section
/-! SUPPORT. The decimator (42_decimator.md): the stages of an instance as an array, the rings, one stage over a block, and
what the cascade leaves unchanged. -/

namespace Sys2Proof.Machine

/-! ## Stages of an instance -/

theorem Decimator.stage_eq_getElem (d : Decimator) (j : ℕ) (h : j < 10) : d.stage j = d.stages[j] := by
  simp [Decimator.stage, List.getD_eq_getElem?_getD, h]

theorem Decimator.stage_of_le (d : Decimator) (j : ℕ) (h : 10 ≤ j) : d.stage j = Stage.zero := by
  simp [Decimator.stage, List.getD_eq_getElem?_getD, h]

/-- Reading a stage after a stage is replaced. -/
theorem Decimator.stage_setStage (d : Decimator) (j k : ℕ) (st : Stage) :
    (d.setStage j st).stage k = if k = j ∧ j < 10 then st else d.stage k := by
  by_cases hk : k < 10
  · rw [Decimator.stage_eq_getElem _ _ hk, Decimator.stage_eq_getElem _ _ hk]
    simp only [Decimator.setStage]
    rw [Vector.getElem_setIfInBounds]
    by_cases h : j = k
    · subst h; simp [hk]
    · simp [h, Ne.symm h]
  · rw [Decimator.stage_of_le _ _ (by omega), Decimator.stage_of_le _ _ (by omega), if_neg (by omega)]

/-! ## Rings (42_decimator.md R282, R286; 20_memory.md R113) -/

/-- For a positive order, the ring size is the smallest power of two at least four times the order. -/
theorem ringSizeOfOrder_bounds (k : ℕ) (hk : 1 ≤ k) :
    4 * k ≤ ringSizeOfOrder k ∧ ∀ e : ℕ, 4 * k ≤ 2 ^ e → ringSizeOfOrder k ≤ 2 ^ e := by
  unfold ringSizeOfOrder
  have h0 : 4 * k - 1 ≠ 0 := by omega
  constructor
  · have := Nat.lt_log2_self (n := 4 * k - 1)
    omega
  · intro e he
    apply Nat.pow_le_pow_right (by norm_num)
    have : Nat.log2 (4 * k - 1) < e := (Nat.log2_lt h0).2 (by omega)
    omega

/-- Masking by 2^k − 1 is the remainder modulo 2^k. -/
theorem ringIndex_toNat (k : ℕ) (hk : k ≤ 31) (w i : Word) :
    (ringIndex (2 ^ k) w i).toNat = (w + i).toNat % 2 ^ k := by
  have hlt : 2 ^ k < 2 ^ 32 := Nat.pow_lt_pow_right (by norm_num) (by omega)
  have hpos : 0 < 2 ^ k := by positivity
  have : (BitVec.ofNat 32 (2 ^ k) - 1 : Word).toNat = 2 ^ k - 1 := by
    rw [BitVec.toNat_sub_of_le]
    · rw [BitVec.toNat_ofNat, Nat.mod_eq_of_lt hlt]; simp
    · rw [BitVec.le_def, BitVec.toNat_ofNat, Nat.mod_eq_of_lt hlt]
      exact hpos
  rw [ringIndex, BitVec.toNat_and, this]
  exact Nat.and_two_pow_sub_one_eq_mod _ _

/-- The slot a tap reads: n + 1 places before the write index. -/
theorem Stage.tap_eq (k : ℕ) (hk : k ≤ 31) (st : Stage) (n : ℕ) (hn : n < 2 ^ k) :
    st.tap (2 ^ k) n = st.buf.read ((st.w.toNat + 2 ^ k - 1 - n) % 2 ^ k) := by
  unfold Stage.tap
  have h31 : 2 ^ k ≤ 2 ^ 31 := Nat.pow_le_pow_right (by norm_num) hk
  have h32 : 2 ^ 32 = 2 ^ (32 - k) * 2 ^ k := by rw [← pow_add]; congr 1; omega
  rw [ringIndex_toNat k hk]
  refine congrArg st.buf.read ?_
  have e0 : (-1 - BitVec.ofNat 32 n : Word).toNat = 2 ^ 32 - 1 - n := by
    have : (-1 : Word) = BitVec.ofNat 32 (2 ^ 32 - 1) := by decide
    rw [this, BitVec.toNat_sub, BitVec.toNat_ofNat, BitVec.toNat_ofNat]
    omega
  have e1 : (st.w + (-1 - BitVec.ofNat 32 n)).toNat = (st.w.toNat + (2 ^ 32 - 1 - n)) % 2 ^ 32 := by
    rw [BitVec.toNat_add, e0]
  rw [e1, Nat.mod_mod_of_dvd _ (Dvd.intro_left _ h32.symm)]
  have e2 : st.w.toNat + (2 ^ 32 - 1 - n) = st.w.toNat + 2 ^ k - 1 - n + (2 ^ (32 - k) - 1) * 2 ^ k := by
    have : (2 ^ (32 - k) - 1) * 2 ^ k = 2 ^ 32 - 2 ^ k := by rw [Nat.sub_mul, ← h32]; omega
    omega
  rw [e2, Nat.add_mul_mod_self_right]

/-- The write index after a push. -/
theorem Stage.push_w (k : ℕ) (hk : k ≤ 31) (st : Stage) (x : F32) (hw : st.w.toNat < 2 ^ k) :
    (st.push (2 ^ k) x).w.toNat = (st.w.toNat + 1) % 2 ^ k := by
  have h31 : 2 ^ k ≤ 2 ^ 31 := Nat.pow_le_pow_right (by norm_num) hk
  simp only [Stage.push]
  rw [ringIndex_toNat k hk, BitVec.toNat_add]
  congr 1
  simp; omega

theorem Stage.push_buf (size : ℕ) (st : Stage) (x : F32) : (st.push size x).buf = st.buf.write st.w.toNat x := rfl

/-- A push keeps a stage legal. -/
theorem Stage.push_legal (k : ℕ) (hk : k ≤ 31) (st : Stage) (x : F32) (h : st.legal (2 ^ k) = true) :
    (st.push (2 ^ k) x).legal (2 ^ k) = true := by
  simp only [Stage.legal, Bool.and_eq_true, decide_eq_true_eq] at h ⊢
  obtain ⟨⟨h1, h2⟩, h3⟩ := h
  refine ⟨⟨?_, ?_⟩, ?_⟩
  · exact Memory.wf_write _ _ _ h1
  · exact Memory.below_write _ _ _ _ h2 h3
  · rw [st.push_w k hk x h3]; exact Nat.mod_lt _ (by positivity)

/-! ## One stage over a block -/

/-- A property that two pushes keep is kept by a stage over a block. -/
theorem halve_keeps (P : Stage → Prop) (cfg : Configuration) (j : ℕ)
    (hp : ∀ (u : Stage) (x : F32), P u → P (u.push (ringSize cfg j) x)) :
    ∀ (v : List F32) (u : Stage), P u → P (halve cfg j v u).2
  | [], _, h => h
  | [_], _, h => h
  | x :: y :: rest, _, h => halve_keeps P cfg j hp rest _ (hp _ y (hp _ x h))

theorem halve_length (cfg : Configuration) (j : ℕ) :
    ∀ (v : List F32) (st : Stage), (halve cfg j v st).1.length = v.length / 2
  | [], _ => rfl
  | [_], _ => by simp [halve]
  | x :: y :: rest, st => by
    have := halve_length cfg j rest ((st.push (ringSize cfg j) x).push (ringSize cfg j) y)
    simp only [halve, List.length_cons, this]
    omega

/-! ## The cascade (42_decimator.md R290) -/

/-- What replacing a stage below n by its successor under `halve` keeps, the stages n − 1 to 0 keep. -/
theorem runStages_keeps (P : Decimator → Prop) (cfg : Configuration) (n : ℕ)
    (hp : ∀ (j : ℕ) (v : List F32) (d : Decimator), j < n → P d → P (d.setStage j (halve cfg j v (d.stage j)).2)) :
    ∀ (v : List F32) (d : Decimator), P d → P (runStages cfg n v d).2 := by
  induction n with
  | zero => exact fun v d h => h
  | succ n ih =>
    intro v d h
    exact ih (fun j v d hj h => hp j v d (by omega) h) _ _ (hp n v d (by omega) h)

/-- The cascade does not change IN. -/
@[simp] theorem cascade_input (cfg : Configuration) (n : ℕ) (d : Decimator) : (cascade cfg n d).2.input = d.input :=
  runStages_keeps (fun e => e.input = d.input) cfg n (fun _ _ _ _ h => h) _ d rfl

/-- The cascade at L changes no stage from L on. -/
theorem cascade_stage (cfg : Configuration) (n : ℕ) (d : Decimator) (j : ℕ) (h : n ≤ j) :
    (cascade cfg n d).2.stage j = d.stage j := by
  refine runStages_keeps (fun e => e.stage j = d.stage j) cfg n (fun i v e hi he => ?_) _ d rfl
  rw [Decimator.stage_setStage, if_neg (by omega)]; exact he

/-- With L = 0 the cascade returns IN[0] and touches nothing. -/
theorem cascade_zero (cfg : Configuration) (d : Decimator) : cascade cfg 0 d = (d.input.read 0, d) := by
  simp [cascade, runStages]

/-- The cascade's result is that of the decimator rebuilt from the input after it and the stages before it. -/
theorem cascade_rebuild (cfg : Configuration) (n : ℕ) (d : Decimator) :
    cascade cfg n { (cascade cfg n d).2 with stages := d.stages } = cascade cfg n d := by
  have : ({ (cascade cfg n d).2 with stages := d.stages } : Decimator) = d := by
    simp only [cascade_input]
  rw [this]

/-- The cascade keeps a decimator legal. -/
theorem cascade_legal (cfg : Configuration) (n : ℕ) (d : Decimator) (hn : n ≤ 10)
    (hs : ∀ j < 10, ∃ k ≤ 31, ringSize cfg j = 2 ^ k) (h : d.legal cfg = true) : (cascade cfg n d).2.legal cfg = true := by
  refine runStages_keeps (fun e => e.legal cfg = true) cfg n (fun j v e hj he => ?_) _ d h
  obtain ⟨k, hk, hsz⟩ := hs j (by omega)
  simp only [Decimator.legal, Bool.and_eq_true, List.all_eq_true] at he ⊢
  refine ⟨he.1, fun i hi => ?_⟩
  rw [Decimator.stage_setStage]
  split
  · next hij =>
    rw [hij.1]
    refine halve_keeps (fun st => st.legal (ringSize cfg j) = true) cfg j (fun u x hst => ?_) v _ ?_
    · rw [hsz] at hst ⊢; exact u.push_legal k hk x hst
    · have := he.2 i hi
      rwa [hij.1] at this
  · exact he.2 i hi

/-! ## Silence (42_decimator.md R294) -/

theorem Memory.write_zero_empty (i : ℕ) : Memory.empty.write i 0 = Memory.empty := rfl

/-- A stage whose ring holds +0.0 only keeps it so when +0.0 is pushed. -/
theorem Stage.push_silent (size : ℕ) (st : Stage) (h : st.buf = Memory.empty) :
    (st.push size 0).buf = Memory.empty := by
  rw [Stage.push_buf, h]; rfl

theorem Stage.tap_silent (size : ℕ) (st : Stage) (h : st.buf = Memory.empty) (n : ℕ) : st.tap size n = 0 := by
  rw [Stage.tap, h]; rfl

end Sys2Proof.Machine
end

