-- ==== Sys2Proof/Laws/Decode.lean ====
section
/-! SUPPORT. The fields of a command word as `encode` lays them out, and the code tables read backwards. -/

namespace Sys2Proof

/-! ## Fields of a command word -/

theorem getLsbD_commandWord (op : Opcode) (b : Batch) (m : LaneMask) (low : BitVec 20) (i : Nat) :
    (commandWord op b m low).getLsbD i =
      if i < 20 then low.getLsbD i else if i < 24 then m.getLsbD (i - 20)
      else if i < 26 then (BitVec.ofFin (w := 2) b).getLsbD (i - 24) else op.code.getLsbD (i - 26) := by
  unfold commandWord
  simp only [BitVec.getLsbD_append]
  by_cases h : i < 20 <;> by_cases h2 : i < 24 <;> by_cases h3 : i < 26 <;>
    simp [h, h2, h3, show i - 20 < 4 ↔ i < 24 by omega, show i - 20 - 4 = i - 24 by omega,
      show i - 24 - 2 = i - 26 by omega] <;> omega

@[simp] theorem opField_commandWord (op : Opcode) (b : Batch) (m : LaneMask) (low : BitVec 20) :
    opField (commandWord op b m low) = op.code := by
  apply BitVec.eq_of_getLsbD_eq
  intro i hi
  simp [opField, getLsbD_commandWord, hi, show ¬ 26 + i < 20 by omega, show ¬ 26 + i < 24 by omega]

@[simp] theorem batchField_commandWord (op : Opcode) (b : Batch) (m : LaneMask) (low : BitVec 20) :
    batchField (commandWord op b m low) = b := by
  have : (commandWord op b m low).extractLsb' 24 2 = BitVec.ofFin (w := 2) b := by
    apply BitVec.eq_of_getLsbD_eq
    intro i hi
    simp [getLsbD_commandWord, hi, show ¬ 24 + i < 20 by omega, show 24 + i < 26 by omega]
  rw [batchField, this]

@[simp] theorem maskField_commandWord (op : Opcode) (b : Batch) (m : LaneMask) (low : BitVec 20) :
    maskField (commandWord op b m low) = m := by
  apply BitVec.eq_of_getLsbD_eq
  intro i hi
  simp [maskField, getLsbD_commandWord, hi, show ¬ 20 + i < 20 by omega, show 20 + i < 24 by omega]

/-- A field inside bits 19:0 comes from the format-specific part. -/
theorem lowField_commandWord (op : Opcode) (b : Batch) (m : LaneMask) (low : BitVec 20) (k n : Nat)
    (h : k + n ≤ 20) : (commandWord op b m low).extractLsb' k n = low.extractLsb' k n := by
  apply BitVec.eq_of_getLsbD_eq
  intro i hi
  simp [getLsbD_commandWord, show k + i < 20 by omega]

/-- Reserved bits inside 19:0 are those of the format-specific part. -/
theorem and_commandWord (op : Opcode) (b : Batch) (m : LaneMask) (low mask : BitVec 20) (h : low &&& mask = 0) :
    commandWord op b m low &&& (0#12 ++ mask) = 0 := by
  apply BitVec.eq_of_getLsbD_eq
  intro i hi
  have := congrArg (fun v => v.getLsbD i) h
  simp only [BitVec.getLsbD_and] at this
  simp only [BitVec.getLsbD_and, getLsbD_commandWord, BitVec.getLsbD_append]
  by_cases h : i < 20 <;> simp_all

/-! ## Code tables -/

theorem Opcode.ofCode_eq_some (c : BitVec 6) (o : Opcode) : Opcode.ofCode c = some o ↔ o.code = c := by
  constructor
  · intro h; simpa using List.find?_some h
  · rintro rfl; cases o <;> decide

theorem ParamId.ofCode_eq_some (c : BitVec 8) (p : ParamId) : ParamId.ofCode c = some p ↔ p.code = c := by
  constructor
  · intro h; simpa using List.find?_some h
  · rintro rfl; cases p <;> decide

theorem GlobalId.ofCode_eq_some (c : BitVec 8) (g : GlobalId) : GlobalId.ofCode c = some g ↔ g.code = c := by
  constructor
  · intro h; simpa using List.find?_some h
  · rintro rfl; cases g <;> decide

theorem StateId.ofCode_eq_some (c : BitVec 8) (item : StateId) :
    StateId.ofCode c = some item ↔ item.code = c := by
  constructor
  · intro h; simpa using List.find?_some h
  · rintro rfl
    cases item with
    | input i => cases i <;> decide
    | ring i j => cases i <;> (revert j; decide)
    | index i j => cases i <;> (revert j; decide)
    | _ => decide

theorem AccSel.ofCode_eq_some (c : BitVec 2) (a : AccSel) : AccSel.ofCode c = some a ↔ a.code = c := by
  revert c; cases a <;> decide

theorem DecSel.ofCode_eq_some (c : BitVec 2) (d : DecSel) : DecSel.ofCode c = some d ↔ d.code = c := by
  revert c; cases d <;> decide

theorem DecInst.ofCode_eq_some (c : BitVec 2) (d : DecInst) : DecInst.ofCode c = some d ↔ d.code = c := by
  revert c; cases d <;> decide

theorem BlepKind.ofCode_eq_some (c : BitVec 1) (k : BlepKind) : BlepKind.ofCode c = some k ↔ k.code = c := by
  revert c; cases k <;> decide

theorem OscVariant.ofCode_eq_some (c : BitVec 1) (v : OscVariant) : OscVariant.ofCode c = some v ↔ v.code = c := by
  revert c; cases v <;> decide

theorem OdeMethod.ofCode_eq_some (c : BitVec 2) (k : OdeMethod) : OdeMethod.ofCode c = some k ↔ k.code = c := by
  revert c; cases k <;> decide

/-! ## Fields of an encoded word -/

theorem selField_commandWord (op : Opcode) (b : Batch) (m : LaneMask) (c : BitVec 2) (low : BitVec 18) :
    selField (commandWord op b m (c ++ low)) = c := by
  rw [selField, lowField_commandWord _ _ _ _ _ _ (by omega)]
  apply BitVec.eq_of_getLsbD_eq; intro i hi
  rw [BitVec.getLsbD_extractLsb', BitVec.getLsbD_append]
  simp [hi]

theorem selField_inputWord (op : Opcode) (b : Batch) (m : LaneMask) (c : BitVec 2) (idx : BitVec 10) :
    selField (commandWord op b m (c ++ 0#8 ++ idx)) = c := by
  rw [selField, lowField_commandWord _ _ _ _ _ _ (by omega)]
  apply BitVec.eq_of_getLsbD_eq; intro i hi
  rw [BitVec.getLsbD_extractLsb', BitVec.getLsbD_append, BitVec.getLsbD_append]
  simp [hi, show ¬ 18 + i < 10 by omega, show ¬ 18 + i - 10 < 8 by omega, show 18 + i - 10 - 8 = i by omega]

theorem selField_rateWord (op : Opcode) (b : Batch) (m : LaneMask) (c : BitVec 2) (n : BitVec 4) :
    selField (commandWord op b m (c ++ 0#14 ++ n)) = c := by
  rw [selField, lowField_commandWord _ _ _ _ _ _ (by omega)]
  apply BitVec.eq_of_getLsbD_eq; intro i hi
  rw [BitVec.getLsbD_extractLsb', BitVec.getLsbD_append, BitVec.getLsbD_append]
  simp [hi, show ¬ 18 + i < 4 by omega, show ¬ 18 + i - 4 < 14 by omega, show 18 + i - 4 - 14 = i by omega]

theorem idField_commandWord (op : Opcode) (b : Batch) (m : LaneMask) (c : BitVec 8) :
    idField (commandWord op b m (0#12 ++ c)) = c := by
  rw [idField, lowField_commandWord _ _ _ _ _ _ (by omega)]; revert c; decide

theorem sidField_commandWord (op : Opcode) (b : Batch) (m : LaneMask) (c : BitVec 8) (idx : BitVec 12) :
    sidField (commandWord op b m (c ++ idx)) = c := by
  rw [sidField, lowField_commandWord _ _ _ _ _ _ (by omega)]
  apply BitVec.eq_of_getLsbD_eq; intro i hi
  rw [BitVec.getLsbD_extractLsb', BitVec.getLsbD_append]
  simp [hi]

theorem stateIdxField_commandWord (op : Opcode) (b : Batch) (m : LaneMask) (c : BitVec 8) (idx : BitVec 12) :
    stateIdxField (commandWord op b m (c ++ idx)) = idx := by
  rw [stateIdxField, lowField_commandWord _ _ _ _ _ _ (by omega)]
  apply BitVec.eq_of_getLsbD_eq; intro i hi
  rw [BitVec.getLsbD_extractLsb', BitVec.getLsbD_append]
  simp [hi]

theorem bitField_commandWord (op : Opcode) (b : Batch) (m : LaneMask) (c : BitVec 1) :
    bitField (commandWord op b m (0#19 ++ c)) = c := by
  rw [bitField, lowField_commandWord _ _ _ _ _ _ (by omega)]; revert c; decide

theorem methField_commandWord (op : Opcode) (b : Batch) (m : LaneMask) (c : BitVec 2) :
    methField (commandWord op b m (0#18 ++ c)) = c := by
  rw [methField, lowField_commandWord _ _ _ _ _ _ (by omega)]; revert c; decide

theorem inputIdxField_commandWord (op : Opcode) (b : Batch) (m : LaneMask) (c : BitVec 2) (idx : BitVec 10) :
    inputIdxField (commandWord op b m (c ++ 0#8 ++ idx)) = idx := by
  rw [inputIdxField, lowField_commandWord _ _ _ _ _ _ (by omega)]
  apply BitVec.eq_of_getLsbD_eq; intro i hi
  rw [BitVec.getLsbD_extractLsb', BitVec.getLsbD_append]
  simp [hi]

theorem log2nField_commandWord (op : Opcode) (b : Batch) (m : LaneMask) (c : BitVec 2) (n : BitVec 4) :
    log2nField (commandWord op b m (c ++ 0#14 ++ n)) = n := by
  rw [log2nField, lowField_commandWord _ _ _ _ _ _ (by omega)]
  apply BitVec.eq_of_getLsbD_eq; intro i hi
  rw [BitVec.getLsbD_extractLsb', BitVec.getLsbD_append]
  simp [hi]

end Sys2Proof
end

