-- ==== Sys2Proof/Laws/Engines.lean ====
section
/-! SUPPORT. What one tick of the two engines does to a lane: the frame of a substep, of a run of substeps, and of the whole
tick (45_oscillator.md R389, R400; 46_ode_filter.md R442, R450). -/

namespace Sys2Proof.Machine

/-! ## Corrections -/

/-- c' differs from c in C0 and C1 at most. -/
structure Channel.SameButCorrections (c c' : Channel) : Prop where
  par : c'.par = c.par
  p1 : c'.p1 = c.p1
  p2 : c'.p2 = c.p2
  ps : c'.ps = c.ps
  dly : c'.dly = c.dly
  rdly : c'.rdly = c.rdly
  x : c'.x = c.x
  prev : c'.prev = c.prev
  xp : c'.xp = c.xp
  osc : c'.osc = c.osc
  flt : c'.flt = c.flt

theorem Channel.SameButCorrections.rfl' (c : Channel) : c.SameButCorrections c :=
  ⟨rfl, rfl, rfl, rfl, rfl, rfl, rfl, rfl, rfl, rfl, rfl⟩

theorem Channel.SameButCorrections.insBlep {a c : Channel} (h : a.SameButCorrections c) (e : Option F32) (v : F32) :
    a.SameButCorrections (insBlep e v c) := by
  cases e
  · exact h
  · exact ⟨h.par, h.p1, h.p2, h.ps, h.dly, h.rdly, h.x, h.prev, h.xp, h.osc, h.flt⟩

theorem Channel.SameButCorrections.insBlamp {a c : Channel} (h : a.SameButCorrections c) (e : Option F32) (v : F32) :
    a.SameButCorrections (insBlamp e v c) := by
  cases e
  · exact h
  · exact ⟨h.par, h.p1, h.p2, h.ps, h.dly, h.rdly, h.x, h.prev, h.xp, h.osc, h.flt⟩

/-- The events of one oscillator change C0 and C1 alone. -/
theorem OscTick.insertOsc_frame (t : OscTick) (p : PhaseStep) (inc : Word) (v : F32) {a c : Channel}
    (h : a.SameButCorrections c) : a.SameButCorrections (t.insertOsc p inc v c) := by
  unfold OscTick.insertOsc
  dsimp only
  split
  · exact (((h.insBlep _ _).insBlamp _ _).insBlamp _ _).insBlep _ _
  · exact ((h.insBlep _ _).insBlamp _ _).insBlamp _ _

/-- The corrections of a substep change C0 and C1 alone. -/
theorem OscTick.insertAll_frame (t : OscTick) (v : OscValues) (p2Old : Word) (c : Channel) :
    c.SameButCorrections (t.insertAll v p2Old c) := by
  unfold OscTick.insertAll OscTick.insertSub
  have h := ((t.insertOsc_frame v.st1 t.inc1 t.v1 (Channel.SameButCorrections.rfl' c)).insBlep
    (crossing v.sts t.incs 0) (fmul t.vs fMinusTwo)).insBlep (crossing v.sts t.incs (2 ^ 31)) (fmul t.vs fTwo)
  dsimp only
  split
  · exact h.insBlep (some v.d1) _
  · exact t.insertOsc_frame _ _ _ h

/-! ## The oscillator -/

/-- The part of a lane that the oscillator never writes: the parameters and the filter's side. -/
structure Channel.FilterSideKept (c c' : Channel) : Prop where
  par : c'.par = c.par
  x : c'.x = c.x
  prev : c'.prev = c.prev
  xp : c'.xp = c.xp
  flt : c'.flt = c.flt

/-- The BLEP state as it was. -/
structure Channel.BlepKept (c c' : Channel) : Prop where
  c0 : c'.c0 = c.c0
  c1 : c'.c1 = c.c1
  dly : c'.dly = c.dly
  rdly : c'.rdly = c.rdly

/-- What one substep of the oscillator does: it moves the phases on, records the wrap and the sync, writes IN[k], and
changes nothing else but the BLEP state, and that in the corrected variant only. -/
theorem OscTick.substep_spec (t : OscTick) (var : OscVariant) (r : OscRun) (k : ℕ) :
    let r' := t.substep var r k
    r.chan.FilterSideKept r'.chan
    ∧ r'.chan.p1 = r.chan.p1 + t.inc1 ∧ r'.chan.ps = r.chan.ps + t.incs
    ∧ (∃ y : F32, r'.chan.osc = r.chan.osc.writeInput k y)
    ∧ (var = .plain → r.chan.BlepKept r'.chan)
    ∧ r'.anyWrap = (r.anyWrap || wrapTest r.chan.p1 (r.chan.p1 + t.inc1))
    ∧ r'.anySync = (r.anySync || (t.sync && wrapTest r.chan.p1 (r.chan.p1 + t.inc1))) := by
  cases var with
  | plain => exact ⟨⟨rfl, rfl, rfl, rfl, rfl⟩, rfl, rfl, ⟨_, rfl⟩, fun _ => ⟨rfl, rfl, rfl, rfl⟩, rfl, rfl⟩
  | corr =>
    have h := t.insertAll_frame (t.values r.chan) r.chan.p2
      { r.chan with p1 := (t.values r.chan).st1.new, ps := (t.values r.chan).sts.new, p2 := (t.values r.chan).p2 }
    refine ⟨⟨h.par, h.x, h.prev, h.xp, h.flt⟩, h.p1, h.ps, ?_, fun hv => by simp at hv, rfl, rfl⟩
    exact ⟨_, congrArg (fun d => Decimator.writeInput d k _) h.osc⟩

theorem add_succ_mul (a i : Word) (n : ℕ) : a + BitVec.ofNat 32 n * i + i = a + BitVec.ofNat 32 (n + 1) * i := by
  have h1 : BitVec.ofNat 32 (n + 1) = BitVec.ofNat 32 n + 1 := BitVec.ofNat_add n 1
  rw [h1, BitVec.add_mul, BitVec.add_assoc]
  congr 2
  exact (BitVec.one_mul i).symm

/-- What n substeps of the oscillator do, starting with no wrap recorded. -/
theorem OscTick.run_spec (t : OscTick) (var : OscVariant) (n : ℕ) (c : Channel) :
    let r := t.run var n c
    c.FilterSideKept r.chan
    ∧ r.chan.p1 = c.p1 + BitVec.ofNat 32 n * t.inc1 ∧ r.chan.ps = c.ps + BitVec.ofNat 32 n * t.incs
    ∧ r.chan.osc.stages = c.osc.stages
    ∧ (c.osc.input.wf = true →
        r.chan.osc.input.wf = true ∧ ∀ k, n ≤ k → r.chan.osc.input.read k = c.osc.input.read k)
    ∧ (var = .plain → c.BlepKept r.chan)
    ∧ (r.anyWrap = true ↔ ∃ k < n, wrapTest (c.p1 + BitVec.ofNat 32 k * t.inc1)
        (c.p1 + BitVec.ofNat 32 (k + 1) * t.inc1) = true)
    ∧ r.anySync = (t.sync && r.anyWrap) := by
  induction n with
  | zero =>
    refine ⟨⟨rfl, rfl, rfl, rfl, rfl⟩, ?_, ?_, rfl, fun h => ⟨h, fun _ _ => rfl⟩, fun _ => ⟨rfl, rfl, rfl, rfl⟩, ?_, ?_⟩ <;>
      simp [OscTick.run]
  | succ n ih =>
    have hstep : t.run var (n + 1) c = t.substep var (t.run var n c) n := by
      simp [OscTick.run, List.range_succ]
    dsimp only at ih ⊢
    rw [hstep]
    generalize t.run var n c = r at ih ⊢
    obtain ⟨k1, k2, k3, h2, h3, h4, h5, h6⟩ := ih
    obtain ⟨e1, e2, e3, ⟨y, g1⟩, g2, g3, g4⟩ := t.substep_spec var r n
    generalize t.substep var r n = r' at e1 e2 e3 g1 g2 g3 g4 ⊢
    refine ⟨⟨e1.par.trans k1.par, e1.x.trans k1.x, e1.prev.trans k1.prev, e1.xp.trans k1.xp, e1.flt.trans k1.flt⟩,
      ?_, ?_, ?_, ?_, ?_, ?_, ?_⟩
    · rw [e2, k2, add_succ_mul]
    · rw [e3, k3, add_succ_mul]
    · rw [g1]; exact h2
    · intro hw
      obtain ⟨a, b⟩ := h3 hw
      rw [g1]
      refine ⟨Memory.wf_write _ _ _ a, fun k hk => ?_⟩
      simp only [Decimator.writeInput_input]
      rw [Memory.read_write_ne _ _ _ _ a (by omega)]
      exact b k (by omega)
    · intro hv
      exact ⟨(g2 hv).c0.trans (h4 hv).c0, (g2 hv).c1.trans (h4 hv).c1, (g2 hv).dly.trans (h4 hv).dly,
        (g2 hv).rdly.trans (h4 hv).rdly⟩
    · rw [g3, k2, add_succ_mul, Bool.or_eq_true, h5]
      constructor
      · rintro (⟨k, hk, hw⟩ | hw)
        · exact ⟨k, by omega, hw⟩
        · exact ⟨n, by omega, hw⟩
      · rintro ⟨k, hk, hw⟩
        rcases Nat.lt_succ_iff_lt_or_eq.1 hk with hk | rfl
        · exact .inl ⟨k, hk, hw⟩
        · exact .inr hw
    · rw [g4, g3, h6]
      cases t.sync <;> simp

/-! ## The filter -/

/-- The part of a lane that the filter's substeps never write: the parameters, the oscillator's side, and PREV. -/
structure Channel.OscSideKept (c c' : Channel) : Prop where
  par : c'.par = c.par
  p1 : c'.p1 = c.p1
  p2 : c'.p2 = c.p2
  ps : c'.ps = c.ps
  c0 : c'.c0 = c.c0
  c1 : c'.c1 = c.c1
  dly : c'.dly = c.dly
  rdly : c'.rdly = c.rdly
  prev : c'.prev = c.prev
  osc : c'.osc = c.osc

/-- What one substep of the filter does: X, XP and IN[k] may change, and nothing else; XP only with SATEN. -/
theorem FltTick.substep_spec (t : FltTick) (meth : OdeMethod) (c : Channel) (k : ℕ) :
    let c' := t.substep meth c k
    c.OscSideKept c' ∧ c'.x = t.integrate meth k c.x
    ∧ (∃ y : F32, c'.flt = c.flt.writeInput k y)
    ∧ (t.saten = false → c'.xp = c.xp) := by
  refine ⟨⟨rfl, rfl, rfl, rfl, rfl, rfl, rfl, rfl, rfl, rfl⟩, rfl, ⟨_, rfl⟩, fun h => ?_⟩
  simp [FltTick.substep, h]

theorem getElem_update (t : FltTick) (x : OdeVec) (f : ℕ → F32) (i : Fin 4) :
    (t.update x f)[i.val] = if i.val < t.n then f i.val else x[i.val] := by
  match i with
  | 0 => rfl
  | 1 => rfl
  | 2 => rfl
  | 3 => rfl

/-- Every method keeps the entries the topology does not use (R443). -/
theorem FltTick.integrate_kept (t : FltTick) (meth : OdeMethod) (k : ℕ) (x : OdeVec) (i : Fin 4) (h : t.n ≤ i.val) :
    (t.integrate meth k x)[i.val] = x[i.val] := by
  cases meth <;> simp only [FltTick.integrate, FltTick.euler, FltTick.rk2, FltTick.rk4] <;>
    rw [getElem_update, if_neg (by omega)]

/-- What n substeps of the filter do before PREV is written. -/
theorem FltTick.fold_spec (t : FltTick) (meth : OdeMethod) (n : ℕ) (c : Channel) :
    let c' := (List.range n).foldl (t.substep meth) c
    c.OscSideKept c'
    ∧ (t.saten = false → c'.xp = c.xp)
    ∧ (∀ i : Fin 4, t.n ≤ i.val → c'.x[i.val] = c.x[i.val])
    ∧ c'.flt.stages = c.flt.stages
    ∧ (c.flt.input.wf = true →
        c'.flt.input.wf = true ∧ ∀ k, n ≤ k → c'.flt.input.read k = c.flt.input.read k) := by
  induction n with
  | zero =>
    exact ⟨⟨rfl, rfl, rfl, rfl, rfl, rfl, rfl, rfl, rfl, rfl⟩, fun _ => rfl, fun _ _ => rfl, rfl,
      fun h => ⟨h, fun _ _ => rfl⟩⟩
  | succ n ih =>
    dsimp only at ih ⊢
    rw [List.range_succ, List.foldl_append]
    simp only [List.foldl_cons, List.foldl_nil]
    generalize (List.range n).foldl (t.substep meth) c = d at ih ⊢
    obtain ⟨h1, h2, h3, h4, h5⟩ := ih
    obtain ⟨e1, e2, ⟨y, g1⟩, g2⟩ := t.substep_spec meth d n
    refine ⟨⟨e1.par.trans h1.par, e1.p1.trans h1.p1, e1.p2.trans h1.p2, e1.ps.trans h1.ps, e1.c0.trans h1.c0,
      e1.c1.trans h1.c1, e1.dly.trans h1.dly, e1.rdly.trans h1.rdly, e1.prev.trans h1.prev, e1.osc.trans h1.osc⟩,
      fun hs => (g2 hs).trans (h2 hs), fun i hi => ?_, ?_, ?_⟩
    · exact (t.integrate_kept meth n d.x i hi).trans (h3 i hi)
    · exact h4
    · intro hw
      obtain ⟨a, b⟩ := h5 hw
      rw [g1]
      refine ⟨Memory.wf_write _ _ _ a, fun k hk => ?_⟩
      simp only [Decimator.writeInput_input]
      rw [Memory.read_write_ne _ _ _ _ a (by omega)]
      exact b k (by omega)

end Sys2Proof.Machine
end

