-- ==== Sys2Proof/Laws/Phase.lean ====
section
/-! SUPPORT. The phase accumulator as arithmetic (41_phase_accumulator.md R250, R251): the cycle position, the wrap test,
and the clamps of an increment. -/

namespace Sys2Proof.Machine

/-- A word is its top bit followed by the other 31. -/
theorem word_split (p : Word) : ∃ (b : BitVec 1) (r : BitVec 31), p = b ++ r := by
  refine ⟨p.extractLsb' 31 1, p.extractLsb' 0 31, ?_⟩
  apply BitVec.eq_of_getLsbD_eq
  intro i hi
  simp only [BitVec.getLsbD_append, BitVec.getLsbD_extractLsb']
  by_cases h : i < 31
  · simp [h]
  · have : i = 31 := by omega
    subst this; simp

/-- The cycle position is the phase moved by half a cycle. -/
theorem cyclePos_eq (p : Word) : cyclePos p = (p.toNat + 2 ^ 31) % 2 ^ 32 := by
  unfold cyclePos
  obtain ⟨b, r, rfl⟩ := word_split p
  rw [show (0x80000000#32 : BitVec 32) = (1#1 ++ 0#31 : BitVec 32) from rfl, BitVec.xor_append]
  have hr := r.isLt
  have h2 := Nat.two_pow_add_eq_or_of_lt hr 1
  norm_num at h2
  rcases (by revert b; decide : b = 0 ∨ b = 1) with rfl | rfl <;>
    simp only [BitVec.toNat_append, Nat.shiftLeft_eq] <;> simp <;> omega

theorem cyclePos_toInt (p : Word) : (cyclePos p : ℤ) = p.toInt + 2 ^ 31 := by
  rw [cyclePos_eq, BitVec.toInt_eq_toNat_cond]
  have := p.isLt
  split <;> omega

theorem msb_eq_toInt_neg (p : Word) : p.msb = decide (p.toInt < 0) := by
  rw [BitVec.msb_eq_decide, BitVec.toInt_eq_toNat_cond]
  have := p.isLt
  rw [decide_eq_decide]; split <;> omega

/-- The wrap test on signed values: from non-negative to negative. -/
theorem wrapTest_eq (a b : Word) : wrapTest a b = (decide (0 ≤ a.toInt) && decide (b.toInt < 0)) := by
  simp only [wrapTest, msb_eq_toInt_neg]
  congr 1
  rw [← decide_not]; simp

/-- A saturating conversion stays within its bounds. -/
theorem f2uSat_bounds (v : F32) (lo hi : ℤ) (h : lo ≤ hi) : lo ≤ f2uSat v lo hi ∧ f2uSat v lo hi ≤ hi := by
  unfold f2uSat; split_ifs <;> omega

/-- The word of a saturating conversion from 0 up. -/
theorem ofInt_f2uSat_le (v : F32) (hi : ℕ) (h : hi < 2 ^ 31) : (BitVec.ofInt 32 (f2uSat v 0 hi)).toNat ≤ hi := by
  have := f2uSat_bounds v 0 hi (by omega)
  rw [BitVec.toNat_ofInt]; omega

end Sys2Proof.Machine
end

