-- ==== Sys2Proof/Laws/Formulas.lean ====
section
/-! SUPPORT. What each function of the engines computes, as the formulas of Safety.lean write it out, and a tick as the
sequence of its substeps (45_oscillator.md R389, 46_ode_filter.md R442). -/

namespace Sys2Proof.Machine

/-! ## Values -/

theorem satFn_eq (v : F32) : satFn v = satFormula v := rfl

theorem adaaOut_eq (xp v : F32) : adaaOut xp v = adaaFormula xp v := rfl

/-- SQ(ps) by the sign of the phase. -/
theorem subWave_eq (p : Word) : subWave p = if 0 ≤ p.toInt then 0x3F800000 else 0xBF800000 := by
  rw [subWave, msb_eq_toInt_neg]
  by_cases h : p.toInt < 0
  · rw [if_pos (by simpa using h), if_neg (by omega)]; rfl
  · rw [if_neg (by simpa using h), if_pos (by omega)]; rfl

theorem pulseDelta_eq (par : Params) : pulseDelta par.pwUse = deltaFormula par := by
  have : fPow2 32 = 0x4F800000 := by decide +kernel
  rw [pulseDelta, this]; rfl

theorem wave_eq (g : Globals) (par : Params) (p : Word) : (oscTickValues g par).wave p = waveFormula par p := by
  show fadd (fadd (fmul _ _) (fmul _ _)) (fmul _ (pulseWave (pulseDelta par.pwUse) p)) = _
  rw [pulseDelta_eq]; rfl

theorem fltTickValues_eq (g : Globals) (c : Channel) (cur : F32) :
    fltTickValues g c cur = fltTickFormulas g c cur := rfl

/-! ## Corrections -/

theorem insertEvents_append (l₁ l₂ : List (BlepKind × Option F32 × F32)) (c : Channel) :
    insertEvents (l₁ ++ l₂) c = insertEvents l₂ (insertEvents l₁ c) := by
  induction l₁ generalizing c with
  | nil => rfl
  | cons e rest ih =>
    obtain ⟨k, _ | d, a⟩ := e
    · cases k <;> exact ih c
    · cases k <;> exact ih _

theorem insertEvents_blep (e : Option F32) (a : F32) (rest : List (BlepKind × Option F32 × F32)) (c : Channel) :
    insertEvents ((.blep, e, a) :: rest) c = insertEvents rest (insBlep e a c) := by cases e <;> rfl

theorem insertEvents_blamp (e : Option F32) (a : F32) (rest : List (BlepKind × Option F32 × F32)) (c : Channel) :
    insertEvents ((.blamp, e, a) :: rest) c = insertEvents rest (insBlamp e a c) := by cases e <;> rfl

/-- Insertions neither read nor write the decimators. -/
theorem insertEvents_osc (l : List (BlepKind × Option F32 × F32)) (c : Channel) (d : Decimator) :
    insertEvents l { c with osc := d } = { insertEvents l c with osc := d } := by
  induction l generalizing c with
  | nil => rfl
  | cons e rest ih =>
    obtain ⟨k, _ | f, a⟩ := e
    · cases k <;> exact ih c
    · cases k <;> simp only [insertEvents] <;> rw [← ih]

/-- The events of one oscillator, inserted in order. -/
theorem insertEvents_oscEvents (g : Globals) (par : Params) (st : PhaseStep) (inc : Word) (v : F32) (c : Channel) :
    insertEvents (oscEvents par st inc v) c = (oscTickValues g par).insertOsc st inc v c := by
  have hd : (oscTickValues g par).dlt = deltaFormula par := pulseDelta_eq par
  unfold oscEvents OscTick.insertOsc
  rw [hd]
  dsimp only
  split
  · simp only [insertEvents_append, insertEvents_blep, insertEvents_blamp]; rfl
  · simp only [insertEvents_append, insertEvents_blep, insertEvents_blamp]; rfl

/-- Every correction of a substep, in the order of R395. -/
theorem insertEvents_substepEvents (g : Globals) (par : Params) (v : OscValues) (p2Old : Word) (c : Channel) :
    insertEvents (substepEvents g par v p2Old) c = (oscTickValues g par).insertAll v p2Old c := by
  unfold substepEvents
  simp only [insertEvents_append, insertEvents_oscEvents g par, insertEvents_blep, OscTick.insertAll]
  split
  · simp only [insertEvents_blep, OscTick.insertSync, OscTick.syncInstantPhase, wave_eq]; rfl
  · rw [insertEvents_oscEvents g par]; rfl

/-! ## Substeps -/

theorem values_eq (g : Globals) (par : Params) (c : Channel) :
    (oscTickValues g par).values c = oscFormulas g par c := by
  simp only [OscTick.values, OscTick.modulated, wave_eq, subWave_eq, OscTick.lin, OscTick.ring]
  rfl

/-- One substep of the oscillator, but for IN, is that of R386 to R396; IN[k] gets its sample. -/
theorem OscTick.substep_formula (g : Globals) (par : Params) (var : OscVariant) (r : OscRun) (k : ℕ) (d : Decimator) :
    ∃ y : F32, OscSubstep g par var { r.chan with osc := d }
        { ((oscTickValues g par).substep var r k).chan with osc := d } y
      ∧ ((oscTickValues g par).substep var r k).chan.osc = r.chan.osc.writeInput k y := by
  have hv : oscFormulas g par { r.chan with osc := d } = oscFormulas g par r.chan := rfl
  unfold OscSubstep OscTick.substep
  simp only [values_eq, hv]
  generalize oscFormulas g par r.chan = v
  cases var with
  | plain => exact ⟨_, ⟨rfl, rfl⟩, rfl⟩
  | corr =>
    have hosc := ((oscTickValues g par).insertAll_frame v r.chan.p2
      { r.chan with p1 := v.st1.new, ps := v.sts.new, p2 := v.p2 }).osc
    have hins := insertEvents_osc (substepEvents g par v r.chan.p2)
      { r.chan with p1 := v.st1.new, ps := v.sts.new, p2 := v.p2 } d
    simp only [← insertEvents_substepEvents] at hosc ⊢
    dsimp only at hins hosc ⊢
    rw [hins]
    exact ⟨_, ⟨rfl, rfl⟩, congrArg (fun e => Decimator.writeInput e k _) hosc⟩

/-- A tick of the oscillator is R substeps one after the other, and IN[k] holds the sample of substep k. -/
theorem OscTick.run_formula (g : Globals) (par : Params) (var : OscVariant) (n : ℕ) (c : Channel) :
    ∃ (x : ℕ → Channel) (y : ℕ → F32), x 0 = c
      ∧ { ((oscTickValues g par).run var n c).chan with osc := c.osc } = x n
      ∧ (∀ k < n, OscSubstep g par var (x k) (x (k + 1)) (y k))
      ∧ (c.osc.input.wf = true → ∀ k < n, ((oscTickValues g par).run var n c).chan.osc.input.read k = y k) := by
  have hstep : ∀ k, (oscTickValues g par).run var (k + 1) c
      = (oscTickValues g par).substep var ((oscTickValues g par).run var k c) k := fun k => by
    simp [OscTick.run, List.range_succ]
  choose y hy hw using fun k => OscTick.substep_formula g par var ((oscTickValues g par).run var k c) k c.osc
  refine ⟨fun k => { ((oscTickValues g par).run var k c).chan with osc := c.osc }, y, rfl, rfl,
    fun k _ => by beta_reduce; rw [hstep]; exact hy k, fun hc => ?_⟩
  induction n with
  | zero => exact fun k hk => absurd hk (by omega)
  | succ n ih =>
    intro k hk
    have hwf := ((oscTickValues g par).run_spec var n c).2.2.2.2.1 hc
    rw [hstep, hw, Decimator.writeInput_input]
    rcases Nat.lt_succ_iff_lt_or_eq.1 hk with hk | rfl
    · rw [Memory.read_write_ne _ _ _ _ hwf.1 (by omega)]; exact ih k hk
    · exact Memory.read_write_same _ _ _ hwf.1

/-- One substep of the filter, but for IN, is that of R440 to R442; IN[k] gets its sample. -/
theorem FltTick.substep_formula (t : FltTick) (meth : OdeMethod) (c : Channel) (k : ℕ) (d : Decimator) :
    ∃ y : F32, FltSubstep t meth k { c with flt := d } { t.substep meth c k with flt := d } y
      ∧ (t.substep meth c k).flt = c.flt.writeInput k y := by
  unfold FltSubstep FltTick.substep
  cases t.saten
  · exact ⟨_, ⟨rfl, rfl⟩, rfl⟩
  · exact ⟨_, ⟨rfl, rfl⟩, rfl⟩

/-- The substeps of a tick of the filter one after the other; IN[k] holds the sample of substep k. -/
theorem FltTick.fold_formula (t : FltTick) (meth : OdeMethod) (n : ℕ) (c : Channel) :
    ∃ (x : ℕ → Channel) (y : ℕ → F32), x 0 = c
      ∧ { (List.range n).foldl (t.substep meth) c with flt := c.flt } = x n
      ∧ (∀ k < n, FltSubstep t meth k (x k) (x (k + 1)) (y k))
      ∧ (c.flt.input.wf = true → ∀ k < n, ((List.range n).foldl (t.substep meth) c).flt.input.read k = y k) := by
  have hstep : ∀ k, (List.range (k + 1)).foldl (t.substep meth) c
      = t.substep meth ((List.range k).foldl (t.substep meth) c) k := fun k => by
    simp [List.range_succ]
  choose y hy hw using fun k => FltTick.substep_formula t meth ((List.range k).foldl (t.substep meth) c) k c.flt
  refine ⟨fun k => { (List.range k).foldl (t.substep meth) c with flt := c.flt }, y, rfl, rfl,
    fun k _ => by beta_reduce; rw [hstep]; exact hy k, fun hc => ?_⟩
  induction n with
  | zero => exact fun k hk => absurd hk (by omega)
  | succ n ih =>
    intro k hk
    have hwf := (t.fold_spec meth n c).2.2.2.2 hc
    rw [hstep, hw, Decimator.writeInput_input]
    rcases Nat.lt_succ_iff_lt_or_eq.1 hk with hk | rfl
    · rw [Memory.read_write_ne _ _ _ _ hwf.1 (by omega)]; exact ih k hk
    · exact Memory.read_write_same _ _ _ hwf.1

/-! ## The cascade -/

/-- The stages n − 1 to 0 one after the other (42_decimator.md R290): the blocks between them, and what each leaves. -/
theorem runStages_formula (cfg : Configuration) (n : ℕ) (hn : n ≤ 10) (v : List F32) (hv : v.length = 2 ^ n)
    (d : Decimator) :
    ∃ w : ℕ → List F32, w n = v
      ∧ (∀ j < n, (w j, (runStages cfg n v d).2.stage j) = halve cfg j (w (j + 1)) (d.stage j) ∧ (w j).length = 2 ^ j)
      ∧ w 0 = [(runStages cfg n v d).1] := by
  induction n generalizing v d with
  | zero =>
    obtain ⟨a, rfl⟩ := List.length_eq_one_iff.1 hv
    exact ⟨fun _ => [a], rfl, fun j hj => absurd hj (by omega), rfl⟩
  | succ n ih =>
    have hlen : (halve cfg n v (d.stage n)).1.length = 2 ^ n := by rw [halve_length, hv, pow_succ]; omega
    obtain ⟨w, h1, h2, h3⟩ := ih (by omega) _ hlen (d.setStage n (halve cfg n v (d.stage n)).2)
    refine ⟨fun j => if j = n + 1 then v else w j, by simp, fun j hj => ?_, by beta_reduce; rw [if_neg (by omega)]; exact h3⟩
    simp only [runStages]
    rw [if_neg (by omega : j ≠ n + 1)]
    rcases Nat.lt_succ_iff_lt_or_eq.1 hj with hj | rfl
    · rw [if_neg (by omega : j + 1 ≠ n + 1)]
      have := h2 j hj
      rwa [Decimator.stage_setStage, if_neg (by omega)] at this
    · rw [if_pos rfl, h1]
      refine ⟨Prod.ext rfl ?_, hlen⟩
      have hk := runStages_keeps (fun e => e.stage j = (halve cfg j v (d.stage j)).2) cfg j
        (fun i u e hi he => by rw [Decimator.stage_setStage, if_neg (by omega)]; exact he)
        (halve cfg j v (d.stage j)).1 (d.setStage j (halve cfg j v (d.stage j)).2)
        (by rw [Decimator.stage_setStage, if_pos ⟨rfl, by omega⟩])
      exact hk

end Sys2Proof.Machine
end

