-- ==== Sys2Proof/Laws/Lanes.lean ====
section
/-! SUPPORT. What the lane operations do, said once: `setChannel`, `mapChannels`, `writeLane` and `forLanes`, field by
field. A proof about a command cites these and never unfolds the loop over the lanes. -/

namespace Sys2Proof.Machine

/-! ## Bits of a four-bit field -/

theorem laneBit_writeBit (x : BitVec 4) (l i : Lane) (v : Bool) :
    laneBit (writeBit x l v) i = if i = l then v else laneBit x i := by
  revert x l i v; decide

theorem field_ext (x y : BitVec 4) (h : ∀ l : Lane, laneBit x l = laneBit y l) : x = y :=
  BitVec.eq_of_getLsbD_eq fun i hi => h ⟨i, hi⟩

/-! ## Channels -/

theorem State.channel_setChannel (s : State) (b b' : Batch) (l l' : Lane) (c : Channel) :
    (s.setChannel b l c).channel b' l' = if b' = b ∧ l' = l then c else s.channel b' l' := by
  simp only [State.channel, State.setChannel, Vector.getElem_set]
  by_cases hb : b.val = b'.val
  · have hb' : b' = b := Fin.ext hb.symm
    subst hb'
    by_cases hl : l.val = l'.val
    · have hl' : l' = l := Fin.ext hl.symm
      subst hl'; simp
    · have : l' ≠ l := fun h => hl (by rw [h])
      simp [hl, this]
  · have : b' ≠ b := fun h => hb (by rw [h])
    simp [hb, this]

theorem getElem_map4 {α β : Type} (f : α → β) (v : Vector α 4) (i : Fin 4) : (map4 f v)[i.val] = f v[i.val] := by
  match i with
  | 0 => rfl
  | 1 => rfl
  | 2 => rfl
  | 3 => rfl

theorem getElem_build4 {α : Type} (f : Fin 4 → α) (i : Fin 4) : (build4 f)[i.val] = f i := by
  match i with
  | 0 => rfl
  | 1 => rfl
  | 2 => rfl
  | 3 => rfl

@[simp] theorem State.channel_mapChannels (s : State) (f : Channel → Channel) (b : Batch) (l : Lane) :
    (s.mapChannels f).channel b l = f (s.channel b l) := by
  simp only [State.channel, State.mapChannels, getElem_map4]

theorem State.resOf_setRes (s : State) (l l' : Lane) (v : Word) :
    (s.setRes l v).resOf l' = if l' = l then v else s.resOf l' := by
  simp only [State.resOf, State.setRes, Vector.getElem_set]
  by_cases h : l.val = l'.val
  · simp [h, Fin.ext h.symm]
  · have : l' ≠ l := fun e => h (by rw [e])
    simp [h, this]

/-- Two states' channels agree everywhere just when their channel vectors do. -/
theorem chans_ext (v w : Vector (Vector Channel 4) 4) (h : ∀ b l : Fin 4, (v[b.val])[l.val] = (w[b.val])[l.val]) :
    v = w := by
  apply Vector.ext; intro i hi
  apply Vector.ext; intro j hj
  exact h ⟨i, hi⟩ ⟨j, hj⟩

theorem vec4_ext {α : Type} (v w : Vector α 4) (h : ∀ l : Fin 4, v[l.val] = w[l.val]) : v = w := by
  apply Vector.ext; intro i hi; exact h ⟨i, hi⟩

/-! ## One lane -/

section WriteLane

variable (s : State) (b : Batch) (l : Lane) (o : LaneOut)

@[simp] theorem State.writeLane_cfg : (s.writeLane b l o).cfg = s.cfg := by
  obtain ⟨_, r, w, y⟩ := o; cases r <;> cases w <;> cases y <;> rfl
@[simp] theorem State.writeLane_opa : (s.writeLane b l o).opa = s.opa := by
  obtain ⟨_, r, w, y⟩ := o; cases r <;> cases w <;> cases y <;> rfl
@[simp] theorem State.writeLane_opb : (s.writeLane b l o).opb = s.opb := by
  obtain ⟨_, r, w, y⟩ := o; cases r <;> cases w <;> cases y <;> rfl
@[simp] theorem State.writeLane_glob : (s.writeLane b l o).glob = s.glob := by
  obtain ⟨_, r, w, y⟩ := o; cases r <;> cases w <;> cases y <;> rfl
@[simp] theorem State.writeLane_bus : (s.writeLane b l o).bus = s.bus := by
  obtain ⟨_, r, w, y⟩ := o; cases r <;> cases w <;> cases y <;> rfl
@[simp] theorem State.writeLane_reply : (s.writeLane b l o).reply = s.reply := by
  obtain ⟨_, r, w, y⟩ := o; cases r <;> cases w <;> cases y <;> rfl
@[simp] theorem State.writeLane_err : (s.writeLane b l o).status.err = s.status.err := by
  obtain ⟨_, r, w, y⟩ := o; cases r <;> cases w <;> cases y <;> rfl

theorem State.writeLane_res : (s.writeLane b l o).res = (s.writeRes l o.res).res := by
  obtain ⟨_, r, w, y⟩ := o; cases r <;> cases w <;> cases y <;> rfl
theorem State.writeLane_wrap : (s.writeLane b l o).status.wrap = (s.writeWrap l o.wrap).status.wrap := by
  obtain ⟨_, r, w, y⟩ := o; cases r <;> cases w <;> cases y <;> rfl
theorem State.writeLane_synced : (s.writeLane b l o).status.synced = (s.writeSynced l o.synced).status.synced := by
  obtain ⟨_, r, w, y⟩ := o; cases r <;> cases w <;> cases y <;> rfl

theorem State.writeLane_chans : (s.writeLane b l o).chans = (s.setChannel b l o.chan).chans := by
  obtain ⟨_, r, w, y⟩ := o; cases r <;> cases w <;> cases y <;> rfl

theorem State.channel_writeLane (b' : Batch) (l' : Lane) :
    (s.writeLane b l o).channel b' l' = if b' = b ∧ l' = l then o.chan else s.channel b' l' := by
  rw [← s.channel_setChannel b b' l l' o.chan]
  simp only [State.channel, s.writeLane_chans b l o]

theorem State.resOf_writeLane (l' : Lane) :
    (s.writeLane b l o).resOf l' = if l' = l then o.res.getD (s.resOf l') else s.resOf l' := by
  have h : (s.writeLane b l o).resOf l' = (s.writeRes l o.res).resOf l' := by
    simp only [State.resOf, s.writeLane_res b l o]
  rw [h]
  cases o.res with
  | none => simp [State.writeRes]
  | some v => simp [State.writeRes, State.resOf_setRes]

theorem State.wrapBit_writeLane (l' : Lane) :
    laneBit (s.writeLane b l o).status.wrap l' =
      if l' = l then o.wrap.getD (laneBit s.status.wrap l') else laneBit s.status.wrap l' := by
  rw [State.writeLane_wrap]
  cases o.wrap with
  | none => simp [State.writeWrap]
  | some v => simp [State.writeWrap, laneBit_writeBit]

theorem State.syncedBit_writeLane (l' : Lane) :
    laneBit (s.writeLane b l o).status.synced l' =
      if l' = l then o.synced.getD (laneBit s.status.synced l') else laneBit s.status.synced l' := by
  rw [State.writeLane_synced]
  cases o.synced with
  | none => simp [State.writeSynced]
  | some v => simp [State.writeSynced, laneBit_writeBit]

end WriteLane

/-! ## All selected lanes -/

/-- The loop of `forLanes` over any list of lanes. -/
def laneFold (b : Batch) (m : LaneMask) (f : Lane → LaneOut) (ls : List Lane) (s : State) : State :=
  ls.foldl (fun t l => if laneBit m l then t.writeLane b l (f l) else t) s

theorem State.forLanes_eq_fold (s : State) (b : Batch) (m : LaneMask) (f : Lane → LaneOut) :
    s.forLanes b m f = laneFold b m f lanes s := rfl

/-- What one lane's write leaves unchanged, the loop leaves unchanged. -/
theorem laneFold_keeps {α : Type} (g : State → α) (b : Batch) (m : LaneMask) (f : Lane → LaneOut)
    (h : ∀ t l, laneBit m l = true → g (t.writeLane b l (f l)) = g t) (ls : List Lane) (s : State) :
    g (laneFold b m f ls s) = g s := by
  induction ls generalizing s with
  | nil => rfl
  | cons l ls ih =>
    refine (ih _).trans ?_
    show g (if laneBit m l = true then s.writeLane b l (f l) else s) = g s
    split
    · next hm => exact h s l hm
    · rfl

/-- A quantity of one lane that only that lane's write sets: the loop sets it once if the lane is selected. -/
theorem laneFold_sets {α : Type} (g : State → α) (b : Batch) (m : LaneMask) (f : Lane → LaneOut) (k : Lane) (v : α → α)
    (hv : ∀ a, v (v a) = v a) (hk : ∀ t, g (t.writeLane b k (f k)) = v (g t))
    (ho : ∀ t l, l ≠ k → g (t.writeLane b l (f l)) = g t) (ls : List Lane) (s : State) :
    g (laneFold b m f ls s) = if k ∈ ls ∧ laneBit m k = true then v (g s) else g s := by
  induction ls generalizing s with
  | nil => simp [laneFold]
  | cons l ls ih =>
    have step : laneFold b m f (l :: ls) s =
        laneFold b m f ls (if laneBit m l then s.writeLane b l (f l) else s) := rfl
    rw [step, ih]
    by_cases hm : laneBit m l = true
    · rw [if_pos hm]
      by_cases hl : l = k
      · subst hl
        by_cases hin : l ∈ ls <;> simp [hin, hm, hk, hv]
      · simp [ho s l hl, Ne.symm hl]
    · rw [if_neg hm]
      by_cases hl : l = k
      · subst hl; simp [hm]
      · simp [Ne.symm hl]

theorem mem_lanes (l : Lane) : l ∈ lanes := by revert l; decide

section ForLanes

variable (s : State) (b : Batch) (m : LaneMask) (f : Lane → LaneOut)

@[simp] theorem State.forLanes_cfg : (s.forLanes b m f).cfg = s.cfg :=
  laneFold_keeps State.cfg b m f (fun t l _ => t.writeLane_cfg b l _) lanes s
@[simp] theorem State.forLanes_opa : (s.forLanes b m f).opa = s.opa :=
  laneFold_keeps State.opa b m f (fun t l _ => t.writeLane_opa b l _) lanes s
@[simp] theorem State.forLanes_opb : (s.forLanes b m f).opb = s.opb :=
  laneFold_keeps State.opb b m f (fun t l _ => t.writeLane_opb b l _) lanes s
@[simp] theorem State.forLanes_glob : (s.forLanes b m f).glob = s.glob :=
  laneFold_keeps State.glob b m f (fun t l _ => t.writeLane_glob b l _) lanes s
@[simp] theorem State.forLanes_bus : (s.forLanes b m f).bus = s.bus :=
  laneFold_keeps State.bus b m f (fun t l _ => t.writeLane_bus b l _) lanes s
@[simp] theorem State.forLanes_reply : (s.forLanes b m f).reply = s.reply :=
  laneFold_keeps State.reply b m f (fun t l _ => t.writeLane_reply b l _) lanes s
@[simp] theorem State.forLanes_err : (s.forLanes b m f).status.err = s.status.err :=
  laneFold_keeps (fun t => t.status.err) b m f (fun t l _ => t.writeLane_err b l _) lanes s

/-- The lanes' state after `forLanes`: the outcome of each selected lane of batch b, and everything else as before. -/
theorem State.channel_forLanes (b' : Batch) (l : Lane) :
    (s.forLanes b m f).channel b' l =
      if b' = b ∧ laneBit m l = true then (f l).chan else s.channel b' l := by
  by_cases hb : b' = b
  · subst hb
    rw [s.forLanes_eq_fold, laneFold_sets (fun t => t.channel b' l) b' m f l (fun _ => (f l).chan) (fun _ => rfl)
      (fun t => by simp [State.channel_writeLane])
      (fun t k hk => by simp [State.channel_writeLane, Ne.symm hk])]
    simp [mem_lanes]
  · rw [s.forLanes_eq_fold, laneFold_keeps (fun t => t.channel b' l) b m f
      (fun t k _ => by simp [State.channel_writeLane, hb])]
    simp [hb]

/-- RES after `forLanes`: written for the selected lanes whose outcome has a result. -/
theorem State.resOf_forLanes (l : Lane) :
    (s.forLanes b m f).resOf l = if laneBit m l = true then (f l).res.getD (s.resOf l) else s.resOf l := by
  rw [s.forLanes_eq_fold, laneFold_sets (fun t => t.resOf l) b m f l (fun a => (f l).res.getD a)
    (fun a => by cases (f l).res <;> rfl) (fun t => by simp [State.resOf_writeLane])
    (fun t k hk => by simp [State.resOf_writeLane, Ne.symm hk])]
  simp [mem_lanes]

/-- STATUS.WRAP[l] after `forLanes`. -/
theorem State.wrapBit_forLanes (l : Lane) :
    laneBit (s.forLanes b m f).status.wrap l =
      if laneBit m l = true then (f l).wrap.getD (laneBit s.status.wrap l) else laneBit s.status.wrap l := by
  rw [s.forLanes_eq_fold, laneFold_sets (fun t => laneBit t.status.wrap l) b m f l (fun a => (f l).wrap.getD a)
    (fun a => by cases (f l).wrap <;> rfl) (fun t => by simp [State.wrapBit_writeLane])
    (fun t k hk => by simp [State.wrapBit_writeLane, Ne.symm hk])]
  simp [mem_lanes]

/-- STATUS.SYNCED[l] after `forLanes`. -/
theorem State.syncedBit_forLanes (l : Lane) :
    laneBit (s.forLanes b m f).status.synced l =
      if laneBit m l = true then (f l).synced.getD (laneBit s.status.synced l)
      else laneBit s.status.synced l := by
  rw [s.forLanes_eq_fold, laneFold_sets (fun t => laneBit t.status.synced l) b m f l (fun a => (f l).synced.getD a)
    (fun a => by cases (f l).synced <;> rfl) (fun t => by simp [State.syncedBit_writeLane])
    (fun t k hk => by simp [State.syncedBit_writeLane, Ne.symm hk])]
  simp [mem_lanes]

/-- A command whose lanes write no result leaves RES as it was. -/
theorem State.forLanes_res_of_none (h : ∀ l, (f l).res = none) : (s.forLanes b m f).res = s.res :=
  vec4_ext _ _ fun l => by
    have := s.resOf_forLanes b m f l
    simpa [State.resOf, h l] using this

/-- A command whose lanes write no WRAP bit leaves WRAP as it was. -/
theorem State.forLanes_wrap_of_none (h : ∀ l, (f l).wrap = none) : (s.forLanes b m f).status.wrap = s.status.wrap :=
  field_ext _ _ fun l => by
    have := s.wrapBit_forLanes b m f l
    simpa [h l] using this

/-- A command whose lanes write no SYNCED bit leaves SYNCED as it was. -/
theorem State.forLanes_synced_of_none (h : ∀ l, (f l).synced = none) :
    (s.forLanes b m f).status.synced = s.status.synced :=
  field_ext _ _ fun l => by
    have := s.syncedBit_forLanes b m f l
    simpa [h l] using this

end ForLanes

/-- `complete` and `raise` touch no lane. -/
@[simp] theorem State.channel_complete (s : State) (b : Batch) (l : Lane) : s.complete.channel b l = s.channel b l := rfl
@[simp] theorem State.channel_raise (s : State) (e : ErrorCode) (b : Batch) (l : Lane) :
    (s.raise e).channel b l = s.channel b l := rfl
@[simp] theorem State.resOf_complete (s : State) (l : Lane) : s.complete.resOf l = s.resOf l := rfl
@[simp] theorem State.resOf_raise (s : State) (e : ErrorCode) (l : Lane) : (s.raise e).resOf l = s.resOf l := rfl

/-- A condition on the selected lanes fails just when no selected lane meets it. -/
theorem anyLane_eq_false (m : LaneMask) (p : Lane → Bool) :
    anyLane m p = false ↔ ∀ l : Lane, laneBit m l = true → p l = false := by
  constructor
  · intro h l hm
    have := List.any_eq_false.1 h l (mem_lanes l)
    simpa [hm] using this
  · intro h
    refine List.any_eq_false.2 fun l _ => ?_
    by_cases hm : laneBit m l = true
    · simp [hm, h l hm]
    · simp [hm]

theorem anyLane_eq_true (m : LaneMask) (p : Lane → Bool) :
    anyLane m p = true ↔ ∃ l : Lane, laneBit m l = true ∧ p l = true := by
  constructor
  · intro h
    obtain ⟨l, -, hl⟩ := List.any_eq_true.1 h
    exact ⟨l, by simpa using hl⟩
  · rintro ⟨l, hm, hp⟩
    exact List.any_eq_true.2 ⟨l, mem_lanes l, by simp [hm, hp]⟩

end Sys2Proof.Machine
end

