-- ==== Sys2Proof/Laws/Frames.lean ====
section
/-! SUPPORT. What a command on a lane mask leaves unchanged: the frame of `forLanes`, stated once for every command that is
built on it, and the outcome of a rejection. -/

namespace Sys2Proof.Machine

theorem State.raise_eq_withErr (s : State) (e : ErrorCode) : s.raise e = s.withErr e.code := rfl

theorem State.complete_eq_withErr (s : State) : s.complete = s.withErr 0 := rfl

section Frame

variable (s : State) (b : Batch) (m : LaneMask) (f : Lane → LaneOut)

/-- A completed command on lanes of batch b changes nothing but those lanes, their RES registers and STATUS. -/
theorem State.onlyLanes_forLanes : s.OnlyLanes (s.forLanes b m f).complete b m := by
  refine ⟨by simp, by simp, by simp, by simp, by simp, by simp, fun b' l h => ?_, fun l h => ?_⟩
  · rw [State.channel_complete, State.channel_forLanes, if_neg h]
  · rw [State.resOf_complete, State.resOf_forLanes, if_neg (by simp [h])]

/-- A selected lane after the command is what the command made of it. -/
theorem State.channel_selected (l : Lane) (h : laneBit m l = true) :
    (s.forLanes b m f).complete.channel b l = (f l).chan := by
  rw [State.channel_complete, State.channel_forLanes, if_pos ⟨rfl, h⟩]

/-- RES of a selected lane after the command. -/
theorem State.resOf_selected (l : Lane) (h : laneBit m l = true) :
    (s.forLanes b m f).complete.resOf l = (f l).res.getD (s.resOf l) := by
  rw [State.resOf_complete, State.resOf_forLanes, if_pos h]

/-- WRAP of a selected lane after the command. -/
theorem State.wrap_selected (l : Lane) (h : laneBit m l = true) :
    laneBit (s.forLanes b m f).complete.status.wrap l = (f l).wrap.getD (laneBit s.status.wrap l) := by
  have := s.wrapBit_forLanes b m f l
  rw [if_pos h] at this
  exact this

/-- SYNCED of a selected lane after the command. -/
theorem State.synced_selected (l : Lane) (h : laneBit m l = true) :
    laneBit (s.forLanes b m f).complete.status.synced l = (f l).synced.getD (laneBit s.status.synced l) := by
  have := s.syncedBit_forLanes b m f l
  rw [if_pos h] at this
  exact this

/-- A command whose lanes write no flag leaves STATUS as a completed command does. -/
theorem State.statusOk_forLanes (hw : ∀ l, (f l).wrap = none) (hs : ∀ l, (f l).synced = none) :
    s.StatusOk (s.forLanes b m f).complete :=
  ⟨rfl, s.forLanes_wrap_of_none b m f hw, s.forLanes_synced_of_none b m f hs⟩

/-- A command whose lanes write no SYNCED bit keeps SYNCED. -/
theorem State.synced_forLanes (hs : ∀ l, (f l).synced = none) :
    (s.forLanes b m f).complete.status.synced = s.status.synced := s.forLanes_synced_of_none b m f hs

/-- A command whose lanes return no word keeps RES. -/
theorem State.resKept_forLanes (hr : ∀ l, (f l).res = none) : s.ResKept (s.forLanes b m f).complete := fun l => by
  rw [State.resOf_complete, State.resOf, s.forLanes_res_of_none b m f hr]; rfl

theorem State.wrapOnly_forLanes : s.WrapOnly (s.forLanes b m f).complete m := fun l h => by
  have := s.wrapBit_forLanes b m f l
  rw [if_neg (by simp [h])] at this
  exact this

theorem State.syncedOnly_forLanes : s.SyncedOnly (s.forLanes b m f).complete m := fun l h => by
  have := s.syncedBit_forLanes b m f l
  rw [if_neg (by simp [h])] at this
  exact this

end Frame

/-- Two states that agree in every register, in every lane and on the host's side are the same state. -/
theorem State.ext_of_reads (s t : State) (hc : s.cfg = t.cfg) (ha : s.opa = t.opa) (hb : s.opb = t.opb)
    (hr : ∀ l, s.resOf l = t.resOf l) (hs : s.status = t.status) (hg : s.glob = t.glob)
    (hch : ∀ b l, s.channel b l = t.channel b l) (hbus : s.bus = t.bus) (hrep : s.reply = t.reply) : s = t := by
  have h1 : s.res = t.res := vec4_ext _ _ hr
  have h2 : s.chans = t.chans := by
    apply Vector.ext; intro i hi
    apply Vector.ext; intro j hj
    exact hch ⟨i, hi⟩ ⟨j, hj⟩
  cases s; cases t
  simp_all

/-- With no lane selected nothing is written. -/
theorem State.forLanes_none (s : State) (b : Batch) (f : Lane → LaneOut) : s.forLanes b 0 f = s := by
  simp [State.forLanes, lanes, laneBit]

theorem anyLane_none (p : Lane → Bool) : anyLane 0 p = false := by
  simp [anyLane, lanes, laneBit]

end Sys2Proof.Machine
end

