-- ==== Sys2Proof/Laws/Legal.lean ====
section
/-! SUPPORT. Legal configurations, decimators and lanes (00_scope.md R11, R21; 10_state.md R74; 42_decimator.md R282). -/

namespace Sys2Proof.Machine

/-- Every order of a well-formed configuration is from 1 to 22. -/
theorem order_bounds (cfg : Configuration) (j : ℕ) (h : configWellFormed cfg = true) (hj : j < 10) :
    1 ≤ order cfg j ∧ order cfg j ≤ 22 := by
  simp only [configWellFormed, Bool.and_eq_true, List.all_eq_true] at h
  have := h.1.1.1.1.1.1.2 j (by simp [nStage]; omega)
  simpa using this

/-- Every coefficient of a well-formed configuration is finite. -/
theorem coef_finite (cfg : Configuration) (j k : ℕ) (h : configWellFormed cfg = true) (hj : j < 10) :
    isFinite (coef cfg j k) = true := by
  simp only [configWellFormed, Bool.and_eq_true, List.all_eq_true] at h
  have := h.1.1.2 j (by simp [nStage]; omega)
  unfold coef
  rw [List.getD_eq_getElem?_getD]
  cases hk : (cfg.coefs.getD j [])[k]? with
  | none => decide
  | some c => exact this c (List.mem_of_getElem? hk)

/-- Every ring of a well-formed configuration has 2^k slots for some k ≤ 7. -/
theorem ringSize_pow (cfg : Configuration) (j : ℕ) (h : configWellFormed cfg = true) (hj : j < 10) :
    ∃ k ≤ 7, ringSize cfg j = 2 ^ k := by
  obtain ⟨h1, h2⟩ := order_bounds cfg j h hj
  refine ⟨_, ?_, rfl⟩
  have : Nat.log2 (4 * order cfg j - 1) < 7 := (Nat.log2_lt (by omega)).2 (by omega)
  omega

theorem ringSize_pos (cfg : Configuration) (j : ℕ) : 0 < ringSize cfg j := by
  unfold ringSize ringSizeOfOrder; positivity

theorem testCfg_wellFormed : configWellFormed testCfg = true := by decide +kernel

/-- The core is built with a well-formed configuration, whichever it is. -/
theorem builtCfg_wellFormed : configWellFormed builtCfg = true := by
  unfold builtCfg
  split
  · assumption
  · exact testCfg_wellFormed

theorem Decimator.zero_legal (cfg : Configuration) : Decimator.zero.legal cfg = true := by
  simp only [Decimator.legal, Bool.and_eq_true, List.all_eq_true]
  refine ⟨⟨rfl, rfl⟩, fun j _ => ?_⟩
  have : Decimator.zero.stage j.val = Stage.zero := by
    rw [Decimator.stage_eq_getElem _ _ j.isLt]; simp [Decimator.zero]
  rw [this]
  simp [Stage.legal, Stage.zero, ringSize_pos]

theorem Decimator.writeInput_legal (cfg : Configuration) (d : Decimator) (i : ℕ) (v : F32) (hi : i < 1024)
    (h : d.legal cfg = true) : (d.writeInput i v).legal cfg = true := by
  simp only [Decimator.legal, Bool.and_eq_true] at h ⊢
  exact ⟨⟨Memory.wf_write _ _ _ h.1.1, Memory.below_write _ _ _ _ h.1.2 hi⟩, h.2⟩

theorem Channel.legal_iff (cfg : Configuration) (c : Channel) : c.legal cfg = true ↔
    c.par.legal = true ∧ c.osc.legal cfg = true ∧ c.flt.legal cfg = true ∧ sanitize c.prev = c.prev := by
  simp [Channel.legal, and_assoc]

/-- Sanitizing a sanitized sample changes nothing. -/
theorem sanitize_sanitize (v : F32) : sanitize (sanitize v) = sanitize v := by
  have key : ∀ u : F32, isNaN u = false →
      sanitize (if fless u (fneg sigMax) then fneg sigMax else if fgreater u sigMax then sigMax else u)
        = (if fless u (fneg sigMax) then fneg sigMax else if fgreater u sigMax then sigMax else u) := by
    intro u hu
    by_cases h1 : fless u (fneg sigMax) = true
    · rw [if_pos h1]; decide
    · rw [if_neg h1]
      by_cases h2 : fgreater u sigMax = true
      · rw [if_pos h2]; decide
      · rw [if_neg h2]
        simp only [sanitize, fclamp, hu]
        simp [h1, h2]
  have e : sanitize v = (fun u => if fless u (fneg sigMax) then fneg sigMax else if fgreater u sigMax then sigMax else u)
      (if isNaN v then 0 else v) := rfl
  rw [e]
  apply key
  split
  · decide
  · next h => simpa using h

/-- The memories of the state after reset are in canonical form. -/
theorem reset_channel (b : Batch) (l : Lane) : State.reset.channel b l = Channel.zero := by
  simp [State.reset, State.powerOn, State.channel]

theorem reset_memory_wf (b : Batch) (l : Lane) (i : DecInst) (j : Fin 10) :
    ((State.reset.channel b l).dec i).input.wf = true ∧ (((State.reset.channel b l).dec i).stage j.val).buf.wf = true := by
  have hz : Decimator.zero.stage j.val = Stage.zero := by
    rw [Decimator.stage_eq_getElem _ _ j.isLt]; simp [Decimator.zero]
  rw [reset_channel]
  cases i
  · exact ⟨rfl, by show (Decimator.zero.stage j.val).buf.wf = true; rw [hz]; rfl⟩
  · exact ⟨rfl, by show (Decimator.zero.stage j.val).buf.wf = true; rw [hz]; rfl⟩

end Sys2Proof.Machine
end

