-- ==== Sys2Proof/Laws/PerInstr.lean ====
section
/-! SUPPORT. Statements about every command as syntax, one lemma per constructor: the word of a command carries its opcode
and none of its format's reserved bits (30_encoding.md R144, R157). -/

namespace Sys2Proof.Laws

/-- The OP field of a command's word is its opcode's, and its reserved bits are zero. -/
def CarriesOpcode.Statement (i : Instr) : Prop :=
  opField (encode i) = i.opcode.code ∧ encode i &&& i.opcode.format.resvMask = 0

theorem reserved_zero (op : Opcode) (b : Batch) (m : LaneMask) (low mask : BitVec 20) (r : Word)
    (hr : r = 0#12 ++ mask) (h : low &&& mask = 0) : commandWord op b m low &&& r = 0 := by
  rw [hr]; exact and_commandWord op b m low mask h

theorem low_sel (c : BitVec 2) : (c ++ 0#18) &&& (0x3FFFF : BitVec 20) = 0 := by revert c; decide
theorem low_id (c : BitVec 8) : (0#12 ++ c) &&& (0xFFF00 : BitVec 20) = 0 := by revert c; decide
theorem low_bit (c : BitVec 1) : (0#19 ++ c) &&& (0xFFFFE : BitVec 20) = 0 := by revert c; decide
theorem low_meth (c : BitVec 2) : (0#18 ++ c) &&& (0xFFFFC : BitVec 20) = 0 := by revert c; decide
theorem low_inputIdx (c : BitVec 2) (idx : BitVec 10) : (c ++ 0#8 ++ idx) &&& (0x3FC00 : BitVec 20) = 0 := by
  apply BitVec.eq_of_getLsbD_eq
  intro i hi
  have : (0x3FC00 : BitVec 20) = 0#2 ++ 0xFF#8 ++ 0#10 := by decide
  rw [this]
  simp only [BitVec.getLsbD_and, BitVec.getLsbD_append]
  by_cases h : i < 10 <;> by_cases h2 : i - 10 < 8 <;> simp [h, h2]
theorem low_log2n (c : BitVec 2) (n : BitVec 4) : (c ++ 0#14 ++ n) &&& (0x3FFF0 : BitVec 20) = 0 := by
  revert c n; decide

namespace CarriesOpcode

theorem nop : Statement .nop := by constructor <;> decide
theorem rstAll : Statement .rstAll := by constructor <;> decide
theorem rstOsc (b : Batch) (m : LaneMask) : Statement (.rstOsc b m) :=
  ⟨opField_commandWord .., reserved_zero _ _ _ _ 0xFFFFF _ rfl (by decide)⟩
theorem rstDec (b : Batch) (m : LaneMask) (d : DecSel) : Statement (.rstDec b m d) :=
  ⟨opField_commandWord .., reserved_zero _ _ _ _ 0x3FFFF _ rfl (low_sel _)⟩
theorem rstFlt (b : Batch) (m : LaneMask) : Statement (.rstFlt b m) :=
  ⟨opField_commandWord .., reserved_zero _ _ _ _ 0xFFFFF _ rfl (by decide)⟩
theorem rstSat (b : Batch) (m : LaneMask) : Statement (.rstSat b m) :=
  ⟨opField_commandWord .., reserved_zero _ _ _ _ 0xFFFFF _ rfl (by decide)⟩
theorem wrParam (b : Batch) (m : LaneMask) (p : ParamId) : Statement (.wrParam b m p) :=
  ⟨opField_commandWord .., reserved_zero _ _ _ _ 0xFFF00 _ rfl (low_id _)⟩
theorem rdParam (b : Batch) (m : LaneMask) (p : ParamId) : Statement (.rdParam b m p) :=
  ⟨opField_commandWord .., reserved_zero _ _ _ _ 0xFFF00 _ rfl (low_id _)⟩
theorem wrGlobal (g : GlobalId) : Statement (.wrGlobal g) := by cases g <;> constructor <;> decide
theorem rdGlobal (g : GlobalId) : Statement (.rdGlobal g) := by cases g <;> constructor <;> decide
theorem rdState (b : Batch) (m : LaneMask) (sid : StateId) (idx : BitVec 12) : Statement (.rdState b m sid idx) :=
  ⟨opField_commandWord .., by simp [Instr.opcode, Opcode.format, Format.resvMask]⟩
theorem paAdd (b : Batch) (m : LaneMask) (a : AccSel) : Statement (.paAdd b m a) :=
  ⟨opField_commandWord .., reserved_zero _ _ _ _ 0x3FFFF _ rfl (low_sel _)⟩
theorem paLoad (b : Batch) (m : LaneMask) (a : AccSel) : Statement (.paLoad b m a) :=
  ⟨opField_commandWord .., reserved_zero _ _ _ _ 0x3FFFF _ rfl (low_sel _)⟩
theorem blepIns (b : Batch) (m : LaneMask) (k : BlepKind) : Statement (.blepIns b m k) :=
  ⟨opField_commandWord .., reserved_zero _ _ _ _ 0xFFFFE _ rfl (low_bit _)⟩
theorem blepProc (b : Batch) (m : LaneMask) : Statement (.blepProc b m) :=
  ⟨opField_commandWord .., reserved_zero _ _ _ _ 0xFFFFF _ rfl (by decide)⟩
theorem sat (b : Batch) (m : LaneMask) : Statement (.sat b m) :=
  ⟨opField_commandWord .., reserved_zero _ _ _ _ 0xFFFFF _ rfl (by decide)⟩
theorem decWr (b : Batch) (m : LaneMask) (d : DecInst) (idx : BitVec 10) : Statement (.decWr b m d idx) :=
  ⟨opField_commandWord .., reserved_zero _ _ _ _ 0x3FC00 _ rfl (low_inputIdx _ _)⟩
theorem decProc (b : Batch) (m : LaneMask) (d : DecInst) (n : BitVec 4) : Statement (.decProc b m d n) :=
  ⟨opField_commandWord .., reserved_zero _ _ _ _ 0x3FFF0 _ rfl (low_log2n _ _)⟩
theorem oscTick (b : Batch) (m : LaneMask) (v : OscVariant) : Statement (.oscTick b m v) :=
  ⟨opField_commandWord .., reserved_zero _ _ _ _ 0xFFFFE _ rfl (low_bit _)⟩
theorem fltTick (b : Batch) (m : LaneMask) (k : OdeMethod) : Statement (.fltTick b m k) :=
  ⟨opField_commandWord .., reserved_zero _ _ _ _ 0xFFFFC _ rfl (low_meth _)⟩

end CarriesOpcode

end Sys2Proof.Laws
end

