-- ==== Sys2Proof/Tests/Slice0.lean ====
section
/-! SUPPORT. Tests with the expected values of the spec's own examples and vectors (the examples of each command rule,
30_encoding.md R158 and R171, 95_test_vectors.md), the smoke test of WellFormed, and for every statement with hypotheses a
witness that meets them. -/

namespace Sys2Proof.Machine.Tests

-- One test after another: each kernel evaluation waits for the declarations before it, and a hundred waiting at once
-- would hold a thread each.
set_option Elab.async false

/-! ## Helpers -/

/-- A core under TESTCFG (00_scope.md R13), just powered on. -/
def core0 : State := State.powerOn testCfg

/-- The state an outcome answers. -/
def after (o : Host.Outcome State Fault Refusal) : State :=
  match o with
  | .next t => t
  | .fault _ => core0
  | .refused _ => core0

/-- The state after one command. -/
def run1 (i : Instr) (s : State) : State := after (exec i s)

/-- Lane 0 of batch 0, changed. -/
def withLane0 (s : State) (f : Channel → Channel) : State := s.setChannel 0 0 (f (s.channel 0 0))

def opa0 (s : State) (v : Word) : State := s.setOpa 0 v

/-- The error code an executed word leaves. -/
def errOf (w : Word) (s : State) : BitVec 4 := (after (executeCommand w s)).status.err

/-! ## WellFormed (30_encoding.md R160) -/

theorem test_wellFormed_refuses_write_of_id : (Instr.wrGlobal .id).wellFormed = false := by decide
theorem test_wellFormed_refuses_index_of_x : (Instr.rdState 0 0 .x 4).wellFormed = false := by decide
theorem test_wellFormed_refuses_index_of_scalar : (Instr.rdState 0 0 .xp 1).wellFormed = false := by decide
theorem test_wellFormed_refuses_index_of_input : (Instr.rdState 0 0 (.input .flt) 1024).wellFormed = false := by decide
theorem test_wellFormed_refuses_index_of_ring : (Instr.rdState 0 0 (.ring .osc 0) 128).wellFormed = false := by decide
theorem test_wellFormed_refuses_log2n : (Instr.decProc 0 0 .osc 11).wellFormed = false := by decide
theorem test_wellFormed_accepts_boundaries : (Instr.rdState 0 0 .x 3).wellFormed ∧ (Instr.decProc 0 0 .flt 10).wellFormed
    ∧ (Instr.rdState 0 0 (.input .osc) 1023).wellFormed := by decide

/-! ## Decoding: one word of every command, its bits written out from the format of R144 and the codes of R157 -/

theorem test_decode_nop : decode 0b00000000000000000000000000000000 = .command .nop := by decide
theorem test_decode_rstAll : decode 0b00000100000000000000000000000000 = .command .rstAll := by decide
theorem test_decode_rstOsc : decode 0b00001001010100000000000000000000 = .command (.rstOsc 1 0b0101) := by decide
theorem test_decode_rstDec : decode 0b00001100111110000000000000000000 = .command (.rstDec 0 0b1111 .both) := by decide
theorem test_decode_rstFlt : decode 0b00010010000100000000000000000000 = .command (.rstFlt 2 0b0001) := by decide
theorem test_decode_rstSat : decode 0b00010111100000000000000000000000 = .command (.rstSat 3 0b1000) := by decide
theorem test_decode_wrParam : decode 0b00100001000100000000000000000010 = .command (.wrParam 1 0b0001 .shape) := by decide
theorem test_decode_rdParam : decode 0b00100100111100000000000000010100 = .command (.rdParam 0 0b1111 .saten) := by decide
theorem test_decode_wrGlobal : decode 0b00101000000000000000000000000001 = .command (.wrGlobal .fs) := by decide
theorem test_decode_rdGlobal : decode 0b00101100000000000000000000001000 = .command (.rdGlobal .id) := by decide
theorem test_decode_rdState : decode 0b00110000000100000111000000000010 = .command (.rdState 0 0b0001 .x 2) := by decide
theorem test_decode_paAdd : decode 0b01000000000110000000000000000000 = .command (.paAdd 0 0b0001 .ps) := by decide
theorem test_decode_paLoad : decode 0b01000100001001000000000000000000 = .command (.paLoad 0 0b0010 .p2) := by decide
theorem test_decode_blepIns : decode 0b01010000000100000000000000000001 = .command (.blepIns 0 0b0001 .blamp) := by decide
theorem test_decode_blepProc : decode 0b01010111000100000000000000000000 = .command (.blepProc 3 0b0001) := by decide
theorem test_decode_sat : decode 0b01100000000100000000000000000000 = .command (.sat 0 0b0001) := by decide
theorem test_decode_decWr : decode 0b01110000000101000000001111111111 = .command (.decWr 0 0b0001 .flt 1023) := by decide
theorem test_decode_decProc : decode 0b01110100000100000000000000000011 = .command (.decProc 0 0b0001 .osc 3) := by decide
theorem test_decode_oscTick : decode 0b10000000111100000000000000000001 = .command (.oscTick 0 0b1111 .corr) := by decide
theorem test_decode_fltTick : decode 0b10010010001100000000000000000010 = .command (.fltTick 2 0b0011 .rk4) := by decide

/-- The match and mask words of R158. -/
theorem test_match_and_mask : (Opcode.all.map fun o => (o.matchWord, o.maskWord)) =
    [(0x00000000, 0xFFFFFFFF), (0x04000000, 0xFFFFFFFF), (0x08000000, 0xFC0FFFFF), (0x0C000000, 0xFC03FFFF),
     (0x10000000, 0xFC0FFFFF), (0x14000000, 0xFC0FFFFF), (0x20000000, 0xFC0FFF00), (0x24000000, 0xFC0FFF00),
     (0x28000000, 0xFFFFFF00), (0x2C000000, 0xFFFFFF00), (0x30000000, 0xFC000000), (0x40000000, 0xFC03FFFF),
     (0x44000000, 0xFC03FFFF), (0x50000000, 0xFC0FFFFE), (0x54000000, 0xFC0FFFFF), (0x60000000, 0xFC0FFFFF),
     (0x70000000, 0xFC03FC00), (0x74000000, 0xFC03FFF0), (0x80000000, 0xFC0FFFFE), (0x90000000, 0xFC0FFFFC)] := by decide

theorem test_reserved_bits_before_fields : decode 0x400C0001 = .rejected .reservedBits := by decide
theorem test_unlisted_opcode_before_reserved_bits : decode 0xFFFFFFFF = .rejected .illegalOp := by decide
theorem test_bad_accumulator : decode 0x400C0000 = .rejected .badField := by decide

/-- A table row's word is masked to its bits and decoded. -/
theorem test_decodeTableWord : decodeTableWord 32 0x92300002 = some (.fltTick 2 3 .rk4)
    ∧ decodeTableWord 32 0x18000000 = none := by decide

/-! ## The commands, on the examples of their rules -/

theorem test_nop_clears_err_only :
    (run1 .nop { core0 with status := { err := 6, wrap := 0xF, synced := 0 } }).status.word = 0x000000F0 := by decide +kernel
theorem test_rstAll_zeroes_phase_and_status :
    let t := run1 .rstAll { withLane0 core0 (fun c => { c with p1 := 0x12345678 }) with
      status := { err := 0, wrap := 1, synced := 0 } }
    (t.channel 0 0).p1 = 0 ∧ t.status.word = 0 := by decide +kernel
theorem test_rstOsc_only_its_lanes :
    let s := core0.mapChannels (fun c => { c with p1 := 5, c0 := 0x3F800000 })
    let t := run1 (.rstOsc 1 0x5) s
    (t.channel 1 0).p1 = 0 ∧ (t.channel 1 1).p1 = 5 ∧ (t.channel 1 2).c0 = 0 ∧ (t.channel 0 0).p1 = 5 := by decide +kernel
theorem test_rstDec_only_its_instance :
    let s := core0.mapChannels (fun c => { c with osc := c.osc.writeInput 3 7, flt := c.flt.writeInput 3 7 })
    let t := run1 (.rstDec 0 0xF .flt) s
    (t.channel 0 2).flt.input.read 3 = 0 ∧ (t.channel 0 2).osc.input.read 3 = 7 := by decide +kernel
theorem test_rstFlt_keeps_xp :
    let t := run1 (.rstFlt 0 0x1) (withLane0 core0 (fun c => { c with prev := 9, xp := 8 }))
    (t.channel 0 0).prev = 0 ∧ (t.channel 0 0).xp = 8 := by decide +kernel
theorem test_rstSat_zeroes_xp :
    ((run1 (.rstSat 0 0x1) (withLane0 core0 (fun c => { c with xp := 8 }))).channel 0 0).xp = 0 := by decide +kernel
theorem test_wrParam_stores_raw_word :
    ((run1 (.wrParam 0 0x1 .freq1) (opa0 core0 0x43DC0000)).channel 0 0).par.freq1 = 0x43DC0000 := by decide +kernel
theorem test_wrParam_one_bad_lane_writes_none :
    let t := run1 (.wrParam 0 0x3 .topo) ((opa0 core0 1).setOpa 1 3)
    t.status.err = 5 ∧ (t.channel 0 0).par.topo = 0 := by decide +kernel
theorem test_rdParam_flag_reads_bit_zero :
    (run1 (.rdParam 0 0x1 .sync) (run1 (.wrParam 0 0x1 .sync) (opa0 core0 0xFFFFFFFF))).resOf 0 = 1 := by decide +kernel
theorem test_wrGlobal_osr_zeroes_decimators :
    let t := run1 (.wrGlobal .osrLog2) (opa0 (withLane0 core0 (fun c => { c with osc := c.osc.writeInput 0 7 })) 10)
    t.glob.osrLog2 = 10 ∧ (t.channel 0 0).osc = Decimator.zero := by decide +kernel
theorem test_wrGlobal_osr_above_ten : (run1 (.wrGlobal .osrLog2) (opa0 core0 11)).status.err = 5 := by decide +kernel
theorem test_rdGlobal_id : (run1 (.rdGlobal .id) core0).resOf 0 = 0x4D555358 := by decide +kernel
theorem test_rdState_ring_slot :
    let s := withLane0 core0 (fun c => { c with osc := c.osc.setStage 0 ((c.osc.stage 0).push 128 0x3F800000) })
    (run1 (.rdState 0 0x1 (.ring .osc 0) 0) s).resOf 0 = 0x3F800000 := by decide +kernel
theorem test_rdState_ring_size_of_configuration :
    (run1 (.rdState 0 0 (.ring .osc 1) 4) core0).status.err = 3 := by decide +kernel
theorem test_paAdd_wraps :
    let t := run1 (.paAdd 0 0x1 .p1) (opa0 (withLane0 core0 (fun c => { c with p1 := 0x40000000 })) 0x40000000)
    (t.channel 0 0).p1 = 0x80000000 ∧ t.resOf 0 = 0x80000000 ∧ t.status.wrap = 1 := by decide +kernel
theorem test_paAdd_mid_cycle_is_no_wrap :
    let t := run1 (.paAdd 0 0x1 .p2) (opa0 (withLane0 core0 (fun c => { c with p2 := 0xFFFFFFFF })) 1)
    (t.channel 0 0).p2 = 0 ∧ t.status.wrap = 0 := by decide +kernel
theorem test_paLoad_loads :
    ((run1 (.paLoad 0 0x2 .p2) (core0.setOpa 1 0x00001234)).channel 0 1).p2 = 0x00001234 := by decide +kernel
theorem test_blepIns_half :
    let t := run1 (.blepIns 0 0x1 .blep) ((opa0 core0 0x3F000000).setOpb 0 0x3F800000)
    (t.channel 0 0).c0 = 0x3E000000 ∧ (t.channel 0 0).c1 = 0xBE000000 := by decide +kernel
theorem test_blepProc_delays :
    let t := run1 (.blepProc 0 0x1) (opa0 (withLane0 core0 (fun c => { c with c0 := 0x3E000000, c1 := 0xBE000000 })) 0x3F800000)
    t.resOf 0 = 0x3E000000 ∧ (t.channel 0 0).c0 = 0xBE000000 ∧ (t.channel 0 0).dly = 0x3F800000 := by decide +kernel
theorem test_sat_first_sample :
    let t := run1 (.sat 0 0x1) (opa0 core0 0x3F400000)
    t.resOf 0 = 0x3EAAAAAB ∧ (t.channel 0 0).xp = 0x3F400000 := by decide +kernel
theorem test_sat_equal_samples :
    (run1 (.sat 0 0x1) (opa0 (withLane0 core0 (fun c => { c with xp := 0x3F400000 })) 0x3F400000)).resOf 0 = 0x3F19999A := by
  decide +kernel
theorem test_decWr_stores :
    ((run1 (.decWr 0 0x1 .osc 0) (opa0 core0 0x40600000)).channel 0 0).osc.input.read 0 = 0x40600000 := by decide +kernel
theorem test_decWr_sanitizes :
    ((run1 (.decWr 0 0x1 .flt 1023) (opa0 core0 0x7F800000)).channel 0 0).flt.input.read 1023 = 0x47800000 := by decide +kernel
theorem test_decProc_base_rate :
    (run1 (.decProc 0 0x1 .osc 0) (withLane0 core0 (fun c => { c with osc := c.osc.writeInput 0 0x40600000 }))).resOf 0
      = 0x40600000 := by decide +kernel
theorem test_decProc_mismatch : (run1 (.decProc 0 0x1 .osc 1) core0).status.err = 4 := by decide +kernel
theorem test_oscTick_quarter_cycle :
    let t := run1 (.oscTick 0 0x1 .plain)
      (withLane0 core0 (fun c => { c with par := { c.par with freq1 := 0x463B8000, vol1 := 0x3F800000 } }))
    (t.channel 0 0).p1 = 0x40000000 ∧ t.resOf 0 = 0x3F000000 ∧ t.status.wrap = 0 := by decide +kernel
theorem test_fltTick_second_sample :
    let t := run1 (.fltTick 0 0x1 .euler) (opa0 (withLane0 core0 (fun c =>
      { c with par := { c.par with cutoff := 0x49742400 }, prev := 0x3F400000 })) 0x3F400000)
    t.resOf 0 = 0x3F19999A ∧ (t.channel 0 0).x[0] = 0x3F19999A := by decide +kernel
theorem test_fltTick_bandpass_on_one_pole :
    (run1 (.fltTick 0 0x1 .rk2) (withLane0 core0 (fun c => { c with par := { c.par with tap := 2 } }))).status.err = 5 := by
  decide +kernel

/-! ## The register window -/

theorem test_read_of_id : (after (step { core0 with bus := [.read 0x008 4] })).reply = some 0x4D555358 := by decide +kernel
theorem test_read_of_unmapped_offset :
    let t := after (step { core0 with bus := [.read 0x00C 4], reply := some 5 })
    t.reply = some 0 ∧ t.status.err = 6 := by decide +kernel
theorem test_narrow_write_is_discarded :
    let t := after (step { core0 with bus := [.write 0x010 2 0x1234] })
    t.opaOf 0 = 0 ∧ t.status.err = 6 := by decide +kernel
theorem test_reset_runs_a_placed_command :
    (after (step (State.reset.withFetchWord 32 0x2C000008))).resOf 0 = 0x4D555358 := by decide +kernel

/-! ## Configurations -/

theorem test_testCfg_builds : (buildCore testCfg).isSome = true := by decide +kernel
theorem test_order_of_last_stage_is_checked :
    (buildCore { testCfg with orders := List.replicate 8 1 ++ [2] }).isNone = true := by decide +kernel
theorem test_gain_is_checked :
    (buildCore { testCfg with coefs := (0x3E900000#32 :: List.replicate 21 0) :: List.replicate 9 [0x3E800000#32] }).isNone
      = true := by decide +kernel

/-! ## Witnesses: for each statement with hypotheses, values that meet them -/

theorem witness_DecodeOfEncode : (Instr.rdState 3 0xF (.ring .flt 9) 127).WellFormed := by decide
theorem witness_EncodeOfDecode : decode 0x33F5907F = .command (.rdState 3 0xF (.ring .flt 9) 127) := by decide
theorem witness_IllegalAndReservedEncodings :
    decode 0x18000000 = .rejected .illegalOp ∧ decode 0xFC000000 = .rejected .illegalOp
    ∧ opField 0x02000000 = Opcode.nop.code ∧ (0x02000000 : Word) &&& Opcode.nop.format.resvMask ≠ 0
    ∧ decode 0x02000000 = .rejected .reservedBits := by decide
theorem witness_BadFieldValues : configWellFormed core0.cfg = true
    ∧ opField 0x30040080 = Opcode.rdState.code ∧ (0x30040080 : Word) &&& Opcode.rdState.format.resvMask = 0
    ∧ errOf 0x30040080 core0 = 3 ∧ errOf 0x3004007F core0 = 0 := by decide +kernel
theorem witness_StepRunsDecodedCommand :
    let s := core0.withFetchWord 32 0x80F00001
    s.bus = .write 0x000 4 0x80F00001 :: [] ∧ decode 0x80F00001 = .command (.oscTick 0 0xF .corr) := by decide +kernel
theorem witness_StepOfRejectedWord :
    let s := core0.withFetchWord 32 0x900FFFFF
    s.bus = .write 0x000 4 0x900FFFFF :: [] ∧ decode 0x900FFFFF = .rejected .reservedBits := by decide +kernel
theorem witness_BadAccessEffects :
    ({ core0 with bus := [HostAccess.read 0x000 4] } : State).bus = HostAccess.read 0x000 4 :: []
    ∧ (HostAccess.read 0x000 4).bad ∧ (HostAccess.read 0x004 8).bad ∧ (HostAccess.read 0x006 4).bad
    ∧ (HostAccess.read 0x040 4).bad ∧ (HostAccess.write 0x004 4 0).bad ∧ (HostAccess.write 0x008 4 0).bad
    ∧ (HostAccess.write 0x030 4 0).bad ∧ (HostAccess.write 0x03C 4 0).bad ∧ (HostAccess.write 0x000 1 0).bad := by
  decide +kernel
theorem witness_ReadsReturnRegisters :
    ({ core0 with bus := [.read 0x004 4] } : State).bus = .read 0x004 4 :: []
    ∧ ({ core0 with bus := [.read 0x008 4] } : State).bus = .read 0x008 4 :: []
    ∧ ({ core0 with bus := [.read 0x01C 4] } : State).bus = .read (BitVec.ofNat 12 (0x010 + 4 * (3 : Lane).val)) 4 :: []
    ∧ ({ core0 with bus := [.read 0x020 4] } : State).bus = .read (BitVec.ofNat 12 (0x020 + 4 * (0 : Lane).val)) 4 :: []
    ∧ ({ core0 with bus := [.read 0x03C 4] } : State).bus = .read (BitVec.ofNat 12 (0x030 + 4 * (3 : Lane).val)) 4 :: [] := by
  decide +kernel
theorem witness_OperandWritesStore :
    ({ core0 with bus := [.write 0x010 4 9] } : State).bus = .write (BitVec.ofNat 12 (0x010 + 4 * (0 : Lane).val)) 4 9 :: []
    ∧ ({ core0 with bus := [.write 0x02C 4 9] } : State).bus
      = .write (BitVec.ofNat 12 (0x020 + 4 * (3 : Lane).val)) 4 9 :: [] := by decide +kernel
theorem witness_IdleStepKeepsState : core0.bus = [] := rfl
theorem witness_RejectionChangesOnlyErr :
    ∃ t, executeCommand 0x400C0000 core0 = .next t ∧ t.status.err ≠ 0 := ⟨_, rfl, by decide +kernel⟩
theorem witness_WrParamStoresEntry :
    (ParamId.tap = .topo ∨ ParamId.tap = .tap) ∧ ∀ l : Lane, laneBit 0xF l = true →
      ((((opa0 core0 2).setOpa 1 2).setOpa 2 2).setOpa 3 2).opaOf l = 2 := by decide +kernel
theorem witness_WrGlobalStoresRegister : ((opa0 core0 10).opaOf 0).toNat ≤ 10 := by decide +kernel
theorem witness_RdStateReturnsItem : (127#12).toNat < stateSize core0.cfg (.ring .osc 0)
    ∧ stateSize core0.cfg (.ring .osc 0) ≤ (128#12).toNat ∧ (3#12).toNat < stateSize core0.cfg .x := by decide +kernel
theorem witness_IllegalOperandValues :
    (∃ l : Lane, laneBit 0x8 l = true ∧ 2 < ((core0.setOpa 3 3).opaOf l).toNat)
    ∧ 10 < ((opa0 core0 11).opaOf 0).toNat
    ∧ (∃ l : Lane, laneBit 0x1 l = true
        ∧ ((withLane0 core0 (fun c => { c with par := { c.par with tap := 2 } })).channel 0 l).par.tap = 2
        ∧ ((withLane0 core0 (fun c => { c with par := { c.par with tap := 2 } })).channel 0 l).par.topo = 0) :=
  ⟨⟨3, by decide +kernel⟩, by decide +kernel, ⟨0, by decide +kernel⟩⟩
theorem witness_PhaseStepWrapsModulo : (0x7FFFFFFF : Word).toNat < 2 ^ 31 := by decide
theorem witness_PhaseClosure : 0 < (0x40000000 : Word).toNat ∧ (0x40000000 : Word).toNat < 2 ^ 31
    ∧ (0x40000000 : Word).toNat ∣ 2 ^ 32 := by decide
theorem witness_EventCrossingInterval : (2 : Word).toNat < 2 ^ 31 ∧ 0 < 2 ^ 32 ∧ 1 < (2 : Word).toNat
    ∧ ((paStep 0x7FFFFFFF 2).uOld + ((2 : Word).toNat - 1)) % 2 ^ 32 = 0 := by decide
theorem witness_IncrementBound : ({ core0.glob with osrLog2 := 10 } : Globals).osrLog2.toNat ≤ 10 := by decide
theorem witness_RingSizes : configWellFormed testCfg = true ∧ 9 < 10 := ⟨testCfg_wellFormed, by decide⟩
theorem witness_PushThenTap : Stage.legal (2 ^ 7) { Stage.zero with w := 127 } = true ∧ 7 ≤ 7
    ∧ 126 + 1 < 2 ^ 7 := by decide
theorem witness_StageHalvesRate : 0 < [fOne, fTwo].length / 2 := by decide
theorem witness_CascadeSilence : configWellFormed testCfg = true ∧ 10 ≤ 10 ∧ Decimator.Silent Decimator.zero :=
  ⟨testCfg_wellFormed, by decide, rfl, by decide⟩
theorem witness_DecWrStoresSample : laneBit 0x1 0 = true ∧ ((core0.channel 0 0).dec .flt).input.wf = true := by decide +kernel
theorem witness_DecProcRunsCascade : (9 < (10#4).toNat) ∧
    (0#4).toNat ≤ 10 ∧ (0#4).toNat = core0.glob.osrLog2.toNat
    ∧ (10#4).toNat ≤ 10 ∧ (10#4).toNat = ({ core0 with glob := { core0.glob with osrLog2 := 10 } } : State).glob.osrLog2.toNat := by
  decide +kernel
theorem witness_DecProcRejectsRate : 10 < (11#4).toNat ∧ (10#4).toNat ≤ 10 ∧ (10#4).toNat ≠ core0.glob.osrLog2.toNat := by
  decide +kernel
theorem witness_OscTickAdvancesLanes : laneBit 0x8 3 = true ∧ (core0.channel 0 3).osc.input.wf = true
    ∧ 0 < 2 ^ core0.glob.osrLog2.toNat ∧ 1 < 2 ^ ({ core0.glob with osrLog2 := 1 } : Globals).osrLog2.toNat := by
  decide +kernel
theorem witness_PlainTickAtBaseRate : core0.glob.osrLog2 = 0 ∧ laneBit 0x1 0 = true
    ∧ (core0.channel 2 0).osc.input.wf = true := by decide +kernel
theorem witness_CorrectedTickAtBaseRate : core0.glob.osrLog2 = 0 ∧ laneBit 0x8 3 = true
    ∧ (core0.channel 0 3).osc.input.wf = true := by decide +kernel

/-- A filter tick with a topology of n stages and a tap. -/
def tick (n : ℕ) (tap : Tap) : FltTick :=
  { n := n, cur := 0, prev := 0, w := fOne, kf := 0, tap := tap, saten := false, l := 0 }

theorem witness_LadderMethods : 1 ≤ (tick 1 .lp).n ∧ (tick 1 .lp).n ≤ 4 ∧ 1 ≤ (tick 4 .lp).n ∧ (tick 4 .lp).n ≤ 4 := by decide
theorem witness_OutputTaps : ((tick 1 .lp).n = 1 ∧ (tick 1 .lp).tap = .lp) ∧ ((tick 1 .hp).n = 1 ∧ (tick 1 .hp).tap = .hp)
    ∧ ((tick 2 .lp).n = 2 ∧ (tick 2 .lp).tap = .lp) ∧ ((tick 2 .hp).n = 2 ∧ (tick 2 .hp).tap = .hp)
    ∧ ((tick 2 .bp).n = 2 ∧ (tick 2 .bp).tap = .bp) ∧ ((tick 4 .lp).n = 4 ∧ (tick 4 .lp).tap = .lp)
    ∧ ((tick 4 .hp).n = 4 ∧ (tick 4 .hp).tap = .hp) ∧ ((tick 4 .bp).n = 4 ∧ (tick 4 .bp).tap = .bp) := by decide
theorem witness_FltTickAdvancesLanes :
    (∀ l : Lane, laneBit 0xF l = true → ¬ ((core0.channel 1 l).par.tap = 2 ∧ (core0.channel 1 l).par.topo = 0))
    ∧ (core0.channel 1 3).par.saten.getLsbD 0 = false ∧ (core0.channel 1 3).par.topo = 0
    ∧ ((withLane0 core0 (fun c => { c with par := { c.par with topo := 1 } })).channel 0 0).par.topo = 1
    ∧ (core0.channel 1 3).flt.input.wf = true := by decide +kernel
theorem witness_EulerTickAtBaseRate :
    let s := withLane0 core0 (fun c => { c with par := { c.par with tap := 1, saten := 1 } })
    s.glob.osrLog2 = 0 ∧ laneBit 0x3 0 = true ∧ laneBit 0x3 1 = true
    ∧ (∀ k : Lane, laneBit 0x3 k = true → ¬ ((s.channel 0 k).par.tap = 2 ∧ (s.channel 0 k).par.topo = 0))
    ∧ ((s.channel 0 0).par.topo = 0 ∧ (s.channel 0 0).par.tap = 1 ∧ (s.channel 0 0).par.saten.getLsbD 0 = true
      ∧ (s.channel 0 0).flt.input.wf = true)
    ∧ (s.channel 0 1).par.topo = 0 ∧ (s.channel 0 1).par.tap = 0 ∧ (s.channel 0 1).par.saten.getLsbD 0 = false
      ∧ (s.channel 0 1).flt.input.wf = true := by decide +kernel
theorem witness_ClampStaysInRange : isNaN fPlusZero = false ∧ isNaN fOne = false ∧ isNaN fNaN = true ∧ isNaN fTwo = false
    ∧ fless fOne fPlusZero = false ∧ isFinite sigMax = true ∧ |fValue sigMax| ≤ 65536 := by
  refine ⟨by decide, by decide, by decide, by decide, by decide, by decide, ?_⟩
  have : fScaled sigMax = 65536 * 2 ^ 149 := by decide +kernel
  rw [fValue, this]; norm_num
theorem witness_SumAndProductRoundOnce : isFinite 0x7F7FFFFF = true ∧ isFinite 0x80000001 = true
    ∧ isNaN (fadd 0x7F800000 0xFF800000) = true ∧ isNaN (fsub 0x7F800000 0x7F800000) = true
    ∧ isNaN (fmul 0x00000000 0xFF800000) = true ∧ isNaN 0xFFFFFFFF = true ∧ isInf 0x7F800000 = true
    ∧ isInf 0xFF800000 = true ∧ isNaN 0x00000001 = false ∧ (-149 : ℤ) ≤ 127 := by decide +kernel
theorem witness_QuotientAndRootRoundOnce : isFinite 0x00000001 = true ∧ fSign 0x00000001 = false
    ∧ fValue 0x00000001 ≠ 0 ∧ fValue 0x80000000 = 0 ∧ isNaN (fdiv 0x00000000 0x80000000) = true
    ∧ isNaN (fsqrt 0xFF800000) = true ∧ isNaN 0x7F800001 = true ∧ isInf 0xFF800000 = true
    ∧ fSign 0x80000001 = true := by
  have h1 : fScaled 0x00000001 = 1 := by decide +kernel
  have h0 : fScaled 0x80000000 = 0 := by decide +kernel
  refine ⟨by decide, by decide, ?_, ?_, by decide +kernel, by decide +kernel, by decide, by decide, by decide⟩
  · rw [fValue, h1]; norm_num
  · rw [fValue, h0]; norm_num
theorem witness_ConversionsRoundOnce : |(2 ^ 33 - 1 : ℤ)| < 2 ^ 33 ∧ (0 : ℤ) ≤ 4294967295 ∧ isNaN fNaN = true
    ∧ isInf 0xFF800000 = true ∧ isFinite 0x00000001 = true := by decide
theorem witness_StepKeepsLegal : core0.Legal ∧ ∃ t, step core0 = .next t := by
  refine ⟨⟨testCfg_wellFormed, by decide, by decide, fun b l => ?_⟩, _, rfl⟩
  have hc : core0.channel b l = Channel.zero := by simp [core0, State.powerOn, State.channel]
  rw [hc, Channel.legal_iff]
  exact ⟨by decide, Decimator.zero_legal _, Decimator.zero_legal _, by decide⟩
theorem witness_LanesAreIndependent :
    let i : Instr := .paAdd 0 0x1 .p1
    let s := core0.setOpa 2 7
    i.batch? = some 0 ∧ laneBit 0x1 0 = true ∧ laneBit 0x5 0 = true ∧ core0.cfg = s.cfg ∧ core0.glob = s.glob
      ∧ core0.channel 0 0 = s.channel 0 0 ∧ core0.opaOf 0 = s.opaOf 0 ∧ core0.opbOf 0 = s.opbOf 0 ∧ core0.resOf 0 = s.resOf 0
      ∧ laneBit core0.status.wrap 0 = laneBit s.status.wrap 0 ∧ laneBit core0.status.synced 0 = laneBit s.status.synced 0
      ∧ (run1 (i.withMask 0x1) core0).status.err = 0 ∧ (run1 (i.withMask 0x5) s).status.err = 0
      ∧ (run1 (i.withMask 0) core0).status.err = 0 := by decide +kernel
theorem witness_CommandsStayInTheirBatch : (∃ t, exec (.oscTick 2 0xF .corr) core0 = .next t)
    ∧ (Instr.oscTick 2 0xF .corr).batch? = some 2 ∧ (1 : Batch) ≠ 2 := ⟨⟨_, rfl⟩, by decide, by decide⟩
theorem witness_OnlyNamedCommandsWrite : (∃ t, exec (.sat 0 0xF) core0 = .next t)
    ∧ (Instr.nop).opcode ∉ [Opcode.rdParam, .rdGlobal, .rdState, .paAdd, .blepProc, .sat, .decProc, .oscTick, .fltTick]
    ∧ (Instr.sat 0 0xF).opcode ∉ [Opcode.paAdd, .oscTick, .rstAll] ∧ (Instr.nop).opcode ∉ [Opcode.sat, .fltTick, .rstSat, .rstAll] :=
  ⟨⟨_, rfl⟩, by decide, by decide, by decide⟩

end Sys2Proof.Machine.Tests
end

section
/-! PROOFS. Binary32 encodings as a sign and a magnitude (00_scope.md R17), and the classes of numbers read off the
magnitude. -/

namespace Sys2Proof.Machine

/-! ## Sign and magnitude -/

theorem fMag_lt (v : F32) : fMag v < 2 ^ 31 := Nat.mod_lt _ (by decide)

theorem fSign_eq (v : F32) : fSign v = decide (2 ^ 31 ≤ v.toNat) := BitVec.msb_eq_decide v

theorem toNat_signed (neg : Bool) {g : ℕ} (hg : g < 2 ^ 31) :
    (signed neg g).toNat = if neg then 2 ^ 31 + g else g := by
  rw [signed, BitVec.toNat_ofNat, Nat.mod_eq_of_lt]
  split <;> omega

@[simp] theorem fMag_signed (neg : Bool) {g : ℕ} (hg : g < 2 ^ 31) : fMag (signed neg g) = g := by
  rw [fMag, toNat_signed neg hg]
  split <;> omega

@[simp] theorem fSign_signed (neg : Bool) {g : ℕ} (hg : g < 2 ^ 31) : fSign (signed neg g) = neg := by
  rw [fSign_eq, toNat_signed neg hg]
  cases neg
  · simpa using hg
  · simp

/-- An encoding is its sign and its magnitude. -/
theorem signed_fSign_fMag (v : F32) : signed (fSign v) (fMag v) = v := by
  apply BitVec.eq_of_toNat_eq
  rw [toNat_signed _ (fMag_lt v), fSign_eq, fMag]
  have := v.isLt
  simp only [decide_eq_true_eq]
  split <;> omega

theorem eq_of_fSign_fMag {a b : F32} (hs : fSign a = fSign b) (hm : fMag a = fMag b) : a = b := by
  rw [← signed_fSign_fMag a, ← signed_fSign_fMag b, hs, hm]

/-- The last bit of an encoding is that of its magnitude. -/
theorem getLsbD_zero_signed (neg : Bool) {g : ℕ} (hg : g < 2 ^ 31) :
    (signed neg g).getLsbD 0 = decide (g % 2 = 1) := by
  rw [BitVec.getLsbD, toNat_signed neg hg, Nat.testBit_zero, decide_eq_decide]
  split <;> omega

theorem fMag_eq_zero_iff (v : F32) : fMag v = 0 ↔ v = 0x00000000 ∨ v = 0x80000000 := by
  constructor
  · intro h
    cases hs : fSign v
    · exact .inl (eq_of_fSign_fMag hs h)
    · exact .inr (eq_of_fSign_fMag hs h)
  · rintro (rfl | rfl) <;> rfl

/-! ## The sign operations -/

theorem fMag_eq_toNat_setWidth (v : F32) : fMag v = (v.setWidth 31).toNat := by
  rw [fMag, BitVec.toNat_setWidth]

@[simp] theorem fMag_fneg (v : F32) : fMag (fneg v) = fMag v := by
  rw [fMag_eq_toNat_setWidth, fneg, BitVec.setWidth_xor, fMag_eq_toNat_setWidth]
  have : (0x80000000#32).setWidth 31 = 0#31 := by decide
  rw [this, BitVec.xor_zero]

@[simp] theorem fMag_fabs (v : F32) : fMag (fabs v) = fMag v := by
  rw [fMag_eq_toNat_setWidth, fabs, BitVec.setWidth_and, fMag_eq_toNat_setWidth]
  have : (0x7FFFFFFF#32).setWidth 31 = BitVec.allOnes 31 := by decide
  rw [this, BitVec.and_allOnes]

@[simp] theorem fSign_fneg (v : F32) : fSign (fneg v) = !fSign v := by
  have : (0x80000000#32).msb = true := by decide
  rw [fSign, fneg, BitVec.msb_xor, this, Bool.xor_true, fSign]

@[simp] theorem fSign_fabs (v : F32) : fSign (fabs v) = false := by
  have : (0x7FFFFFFF#32).msb = false := by decide
  rw [fSign, fabs, BitVec.msb_and, this, Bool.and_false]

/-! ## Classes -/

theorem isNaN_iff (v : F32) : isNaN v = true ↔ 0x7F800000 < fMag v := decide_eq_true_iff

theorem isNaN_false_iff (v : F32) : isNaN v = false ↔ fMag v ≤ 0x7F800000 := by
  rw [← Bool.not_eq_true, isNaN_iff, not_lt]

theorem isInf_iff (v : F32) : isInf v = true ↔ fMag v = 0x7F800000 := beq_iff_eq

theorem isInf_false_iff (v : F32) : isInf v = false ↔ fMag v ≠ 0x7F800000 := by
  rw [← Bool.not_eq_true, isInf_iff]

theorem isFinite_iff (v : F32) : isFinite v = true ↔ fMag v < 0x7F800000 := decide_eq_true_iff

theorem isNaN_of_isInf {v : F32} (h : isInf v = true) : isNaN v = false := by
  rw [isInf_iff] at h
  rw [isNaN_false_iff, h]

theorem isFinite_iff_classes (v : F32) : isFinite v = true ↔ isNaN v = false ∧ isInf v = false := by
  rw [isFinite_iff, isNaN_false_iff, isInf_false_iff]
  omega

@[simp] theorem isNaN_fneg (v : F32) : isNaN (fneg v) = isNaN v := by simp [isNaN]
@[simp] theorem isInf_fneg (v : F32) : isInf (fneg v) = isInf v := by simp [isInf]
@[simp] theorem isFinite_fneg (v : F32) : isFinite (fneg v) = isFinite v := by simp [isFinite]
@[simp] theorem isFinite_fabs (v : F32) : isFinite (fabs v) = isFinite v := by simp [isFinite]

@[simp] theorem isNaN_fInf (neg : Bool) : isNaN (fInf neg) = false := by cases neg <;> rfl
@[simp] theorem isNaN_fZero (neg : Bool) : isNaN (fZero neg) = false := by cases neg <;> rfl

theorem fInf_sign_ne (p q : Bool) : fInf (p != q) = if p = q then 0x7F800000 else 0xFF800000 := by
  cases p <;> cases q <;> rfl

theorem fZero_sign_ne (p q : Bool) : fZero (p != q) = if p = q then 0x00000000 else 0x80000000 := by
  cases p <;> cases q <;> rfl

/-! ## Magnitudes as multiples of the least subnormal -/

/-- The value of a magnitude in units of 2^−149. -/
def magScaled (g : ℕ) : ℕ :=
  if g / 2 ^ 23 = 0 then g % 2 ^ 23 else (2 ^ 23 + g % 2 ^ 23) * 2 ^ (g / 2 ^ 23 - 1)

theorem fScaled_eq (v : F32) :
    fScaled v = if fSign v then -(magScaled (fMag v) : ℤ) else magScaled (fMag v) := by
  have h : fMant v <<< (fExp v + 149).toNat = magScaled (fMag v) := by
    rw [Nat.shiftLeft_eq, fMant, fExp, magScaled, fExpField]
    split
    · simp
    · congr 2; omega
  rw [fScaled, h]

/-- A significand r in units of 2^t has the magnitude t · 2^23 + r, also when r has carried into its 25th bit. -/
theorem magScaled_unit {t r : ℕ} (ht : t = 0 ∨ 2 ^ 23 ≤ r) (hr : r ≤ 2 ^ 24) :
    magScaled (t * 2 ^ 23 + r) = r * 2 ^ t := by
  rcases Nat.lt_or_ge r (2 ^ 23) with hsub | hnorm
  · obtain rfl : t = 0 := by omega
    rw [magScaled, if_pos (by omega)]
    omega
  · rcases hr.lt_or_eq with hlt | rfl
    · have hq : (t * 2 ^ 23 + r) / 2 ^ 23 = t + 1 := by omega
      have hm : 2 ^ 23 + (t * 2 ^ 23 + r) % 2 ^ 23 = r := by omega
      rw [magScaled, hm, hq, if_neg (by omega), Nat.add_sub_cancel]
    · have hq : (t * 2 ^ 23 + 2 ^ 24) / 2 ^ 23 = t + 2 := by omega
      have hm : (t * 2 ^ 23 + 2 ^ 24) % 2 ^ 23 = 0 := by omega
      rw [magScaled, hm, hq, if_neg (by omega), show t + 2 - 1 = t + 1 by omega]
      ring

/-- Every magnitude is a significand of at most 24 bits in some unit. -/
theorem exists_unit (g : ℕ) : ∃ t r : ℕ, (t = 0 ∨ 2 ^ 23 ≤ r) ∧ r < 2 ^ 24 ∧ g = t * 2 ^ 23 + r := by
  rcases Nat.lt_or_ge g (2 ^ 23) with h | h
  · exact ⟨0, g, .inl rfl, by omega, by omega⟩
  · exact ⟨g / 2 ^ 23 - 1, 2 ^ 23 + g % 2 ^ 23, .inr (by omega), by omega, by omega⟩

theorem magScaled_strictMono : StrictMono magScaled := by
  refine strictMono_nat_of_lt_succ fun g => ?_
  obtain ⟨t, r, ht, hr, rfl⟩ := exists_unit g
  rw [magScaled_unit ht hr.le, add_assoc, magScaled_unit (by omega) hr]
  exact Nat.mul_lt_mul_of_pos_right (by omega) (by positivity)

@[simp] theorem magScaled_zero : magScaled 0 = 0 := rfl

theorem magScaled_eq_zero_iff (g : ℕ) : magScaled g = 0 ↔ g = 0 :=
  magScaled_strictMono.injective.eq_iff' magScaled_zero

/-- From 2^(23 + t) on, magnitudes are multiples of 2^t. -/
theorem two_pow_dvd_magScaled {t g : ℕ} (h : 2 ^ (23 + t) ≤ magScaled g) : 2 ^ t ∣ magScaled g := by
  obtain ⟨s, r, hs, hr, rfl⟩ := exists_unit g
  rw [magScaled_unit hs hr.le] at h ⊢
  have hlt : 2 ^ (23 + t) < 2 ^ (24 + s) := by
    calc 2 ^ (23 + t) ≤ r * 2 ^ s := h
      _ < 2 ^ 24 * 2 ^ s := Nat.mul_lt_mul_of_pos_right hr (by positivity)
      _ = 2 ^ (24 + s) := (pow_add 2 24 s).symm
  have hts : t ≤ s := by
    have := (Nat.pow_lt_pow_iff_right (a := 2) (by decide)).1 hlt
    omega
  exact (pow_dvd_pow 2 hts).mul_left r

/-! ## Values -/

theorem fScaled_signed (neg : Bool) {g : ℕ} (hg : g < 2 ^ 31) :
    fScaled (signed neg g) = if neg then -(magScaled g : ℤ) else magScaled g := by
  rw [fScaled_eq, fSign_signed neg hg, fMag_signed neg hg]

theorem natAbs_fScaled (v : F32) : (fScaled v).natAbs = magScaled (fMag v) := by
  rw [fScaled_eq]; split <;> omega

theorem fScaled_fneg (v : F32) : fScaled (fneg v) = -fScaled v := by
  rw [fScaled_eq, fScaled_eq, fSign_fneg, fMag_fneg]
  cases fSign v <;> simp

theorem fScaled_fabs (v : F32) : fScaled (fabs v) = |fScaled v| := by
  rw [Int.abs_eq_natAbs, natAbs_fScaled, fScaled_eq, fSign_fabs, fMag_fabs]
  rfl

theorem fValue_fneg (v : F32) : fValue (fneg v) = -fValue v := by
  rw [fValue, fValue, fScaled_fneg, Int.cast_neg, neg_div]

theorem fValue_fabs (v : F32) : fValue (fabs v) = |fValue v| := by
  rw [fValue, fValue, fScaled_fabs, abs_div, Int.cast_abs, abs_of_pos (by positivity : (0 : ℚ) < 2 ^ 149)]

theorem fValue_real (v : F32) : (fValue v : ℝ) = (fScaled v : ℝ) / 2 ^ 149 := by
  rw [fValue]; push_cast; rfl

theorem fValue_lt_iff (a b : F32) : fValue a < fValue b ↔ fScaled a < fScaled b := by
  rw [fValue, fValue, div_lt_div_iff_of_pos_right (by positivity), Int.cast_lt]

theorem fValue_eq_zero_iff (v : F32) : fValue v = 0 ↔ fMag v = 0 := by
  rw [fValue, div_eq_zero_iff, or_iff_left (by positivity), Int.cast_eq_zero, ← Int.natAbs_eq_zero, natAbs_fScaled,
    magScaled_eq_zero_iff]

/-- The keys order the encodings as their values. -/
theorem fKey_lt_iff (a b : F32) : fKey a < fKey b ↔ fValue a < fValue b := by
  rw [fValue_lt_iff, fScaled_eq, fScaled_eq, fKey, fKey]
  have hlt (g g' : ℕ) : magScaled g < magScaled g' ↔ g < g' := magScaled_strictMono.lt_iff_lt
  have hab := hlt (fMag a) (fMag b)
  have hba := hlt (fMag b) (fMag a)
  have ha := magScaled_eq_zero_iff (fMag a)
  have hb := magScaled_eq_zero_iff (fMag b)
  cases fSign a <;> cases fSign b <;> simp only [Bool.false_eq_true, if_true, if_false] <;> omega

theorem fKey_le_iff (a b : F32) : fKey a ≤ fKey b ↔ fValue a ≤ fValue b := by
  rw [← not_lt, fKey_lt_iff, not_lt]

theorem fMag_eq_natAbs_fKey (v : F32) : fMag v = (fKey v).natAbs := by
  rw [fKey]; split <;> omega

end Sys2Proof.Machine
end

section
/-! PROOFS. Rounding to nearest, ties to even (00_scope.md R18): a significand chosen in a unit is the rounding of every
real number that it is nearest to, and `fRound` chooses it, also from a significand whose last bit only records that
something was left. -/

namespace Sys2Proof.Machine

/-! ## The sign as a factor -/

/-- −1 for a negative sign, 1 otherwise. -/
def signFactor (neg : Bool) : ℝ := if neg then -1 else 1

theorem signFactor_mul_self (neg : Bool) : signFactor neg * signFactor neg = 1 := by
  cases neg <;> simp [signFactor]

@[simp] theorem abs_signFactor (neg : Bool) : |signFactor neg| = 1 := by
  cases neg <;> simp [signFactor]

theorem signFactor_ne (p q : Bool) : signFactor (p != q) = signFactor p * signFactor q := by
  cases p <;> cases q <;> simp [signFactor]

theorem signFactor_mul_neg_iff (neg : Bool) {v : ℝ} (hv : 0 < v) : signFactor neg * v < 0 ↔ neg = true := by
  cases neg <;> simp [signFactor, hv, hv.le]

/-- A value is its sign times its magnitude. -/
theorem fValue_eq_signFactor (v : F32) : (fValue v : ℝ) = signFactor (fSign v) * (magScaled (fMag v) / 2 ^ 149) := by
  rw [fValue_real, fScaled_eq]
  cases fSign v <;> simp [signFactor, neg_div]

/-! ## A significand in a unit -/

/-- r is the significand that x, a size in units of 2^(t − 149), is rounded to: the nearest integer, the even one of two,
where t is the least unit or leaves x at least 24 bits, and x at most 24. -/
structure RoundsInUnit (t r : ℕ) (x : ℝ) : Prop where
  near : |x - r| ≤ 1 / 2
  even_of_tie : |x - r| = 1 / 2 → Even r
  nonneg : 0 ≤ x
  normal : t = 0 ∨ 2 ^ 23 ≤ x
  lt_top : x < 2 ^ 24

namespace RoundsInUnit

variable {t r : ℕ} {x : ℝ}

theorem normal_significand (h : RoundsInUnit t r x) : t = 0 ∨ 2 ^ 23 ≤ r := by
  refine h.normal.imp_right fun hx => ?_
  have hlt : (2 ^ 23 : ℝ) < r + 1 := by linarith [(abs_le.1 h.near).2]
  have : 2 ^ 23 < r + 1 := by exact_mod_cast hlt
  omega

theorem significand_le (h : RoundsInUnit t r x) : r ≤ 2 ^ 24 := by
  have hlt : (r : ℝ) < 2 ^ 24 + 1 := by linarith [(abs_le.1 h.near).1, h.lt_top]
  have : r < 2 ^ 24 + 1 := by exact_mod_cast hlt
  omega

/-- In the last unit the significand carries exactly from the half unit below 2^24 on: 2^24 − 1 is odd. -/
theorem carry_iff (h : RoundsInUnit t r x) : 2 ^ 24 ≤ r ↔ 2 ^ 24 - 1 / 2 ≤ x := by
  constructor
  · intro hr
    have hr' : (2 ^ 24 : ℝ) ≤ r := by exact_mod_cast hr
    linarith [(abs_le.1 h.near).1]
  · intro hx
    by_contra hr
    have hr' : (r : ℝ) + 1 ≤ 2 ^ 24 := by exact_mod_cast not_le.1 hr
    have hub := (abs_le.1 h.near).2
    have hlast : r + 1 = 2 ^ 24 := by exact_mod_cast (by linarith : (r : ℝ) + 1 = 2 ^ 24)
    have htie : |x - r| = 1 / 2 := by
      rw [abs_of_nonneg (by linarith)]; linarith
    obtain ⟨k, hk⟩ := h.even_of_tie htie
    omega

/-- The magnitude reaches that of an infinity exactly from `overflowBound` on. -/
theorem overflow_iff (h : RoundsInUnit t r x) :
    0x7F800000 ≤ t * 2 ^ 23 + r ↔ overflowBound ≤ x * 2 ^ t / 2 ^ 149 := by
  have hr := h.significand_le
  rw [le_div_iff₀ (by positivity), overflowBound]
  rcases lt_trichotomy t 253 with ht | rfl | ht
  · have hpow : (2 : ℝ) ^ t ≤ 2 ^ 252 := pow_le_pow_right₀ (by norm_num) (by omega)
    have hx : x * 2 ^ t ≤ 2 ^ 24 * 2 ^ 252 := by
      have := h.lt_top; gcongr
    refine iff_of_false (by omega) (not_le.2 (hx.trans_lt (by norm_num)))
  · have : 0x7F800000 ≤ 253 * 2 ^ 23 + r ↔ 2 ^ 24 ≤ r := by omega
    rw [this, h.carry_iff]
    constructor <;> intro hx <;> linarith
  · have hx : (2 ^ 23 : ℝ) ≤ x := h.normal.resolve_left (by omega)
    have hpow : (2 : ℝ) ^ 254 ≤ 2 ^ t := pow_le_pow_right₀ (by norm_num) (by omega)
    have hmul : (2 : ℝ) ^ 23 * 2 ^ 254 ≤ x * 2 ^ t := by gcongr
    have hn := h.normal_significand
    refine iff_of_true (by omega) (le_trans (by norm_num) hmul)

end RoundsInUnit

/-! ## The binary32 numbers around a number -/

/-- A number in units of 2^(t − 149), its sign counted from that of neg. -/
noncomputable def inUnits (neg : Bool) (t : ℕ) (y : F32) : ℝ := signFactor neg * fScaled y / 2 ^ t

theorem abs_fValue_sub (neg : Bool) (t : ℕ) (x : ℝ) (y : F32) :
    |(fValue y : ℝ) - signFactor neg * (x * 2 ^ t / 2 ^ 149)| = |inUnits neg t y - x| * (2 ^ t / 2 ^ 149) := by
  have hpow : (2 : ℝ) ^ t / 2 ^ 149 = |(2 : ℝ) ^ t / 2 ^ 149| := (abs_of_pos (by positivity)).symm
  have hscale : (fValue y : ℝ) - signFactor neg * (x * 2 ^ t / 2 ^ 149)
      = signFactor neg * ((inUnits neg t y - x) * (2 ^ t / 2 ^ 149)) := by
    rw [fValue_real, inUnits]
    field_simp
    linear_combination (-(fScaled y : ℝ)) * signFactor_mul_self neg
  rw [hscale, abs_mul, abs_signFactor, one_mul, abs_mul, ← hpow]

theorem fValue_eq_of_inUnits_eq {neg : Bool} {t : ℕ} {y z : F32} (h : inUnits neg t y = inUnits neg t z) :
    fValue y = fValue z := by
  have hy := abs_fValue_sub neg t (inUnits neg t z) y
  have hz := abs_fValue_sub neg t (inUnits neg t z) z
  rw [h] at hy
  simp only [sub_self, abs_zero, zero_mul, abs_eq_zero, sub_eq_zero] at hy hz
  exact_mod_cast hy.trans hz.symm

theorem inUnits_signed (neg : Bool) {t r : ℕ} (ht : t = 0 ∨ 2 ^ 23 ≤ r) (hr : r ≤ 2 ^ 24)
    (hg : t * 2 ^ 23 + r < 2 ^ 31) : inUnits neg t (signed neg (t * 2 ^ 23 + r)) = r := by
  rw [inUnits, fScaled_signed neg hg, magScaled_unit ht hr]
  cases neg <;> simp [signFactor]

/-- A number is an integer in units of 2^(t − 149), or below 2^23 of them. -/
theorem inUnits_integer_or_small (neg : Bool) (t : ℕ) (y : F32) :
    (∃ z : ℤ, inUnits neg t y = z) ∨ (t ≠ 0 ∧ inUnits neg t y < 2 ^ 23) := by
  have hsign : ∃ n : ℤ, inUnits neg t y = n / 2 ^ t ∧ n.natAbs = magScaled (fMag y) := by
    refine ⟨if neg then -fScaled y else fScaled y, ?_, ?_⟩
    · cases neg <;> simp [inUnits, signFactor]
    · cases neg <;> simp [natAbs_fScaled]
  obtain ⟨n, hy, habs⟩ := hsign
  rw [hy]
  by_cases hbig : 2 ^ (23 + t) ≤ magScaled (fMag y)
  · obtain ⟨z, rfl⟩ : (2 ^ t : ℤ) ∣ n := by
      rw [← Int.natAbs_dvd_natAbs, habs]
      simpa [Int.natAbs_pow] using two_pow_dvd_magScaled hbig
    exact .inl ⟨z, by push_cast; field_simp⟩
  · rcases Nat.eq_zero_or_pos t with rfl | ht
    · exact .inl ⟨n, by simp⟩
    · refine .inr ⟨ht.ne', (div_lt_iff₀ (by positivity)).2 ?_⟩
      rw [← pow_add]
      have : n < 2 ^ (23 + t) := by
        have : (n.natAbs : ℤ) < 2 ^ (23 + t) := by rw [habs]; exact_mod_cast not_le.1 hbig
        omega
      exact_mod_cast this

namespace RoundsInUnit

variable {t r : ℕ} {x : ℝ}

/-- No integer is nearer to x than its significand, and one as near makes the significand even. -/
theorem near_integer (h : RoundsInUnit t r x) (z : ℤ) :
    |(r : ℝ) - x| ≤ |(z : ℝ) - x| ∧ (|(z : ℝ) - x| = |(r : ℝ) - x| → (z : ℝ) = r ∨ Even r) := by
  have hr : |(r : ℝ) - x| ≤ 1 / 2 := by rw [abs_sub_comm]; exact h.near
  by_cases hz : z = r
  · subst hz
    simp
  · have hone : (1 : ℝ) ≤ |(z : ℝ) - r| := by
      have : 1 ≤ |z - (r : ℤ)| := Int.one_le_abs (sub_ne_zero.2 hz)
      exact_mod_cast this
    have htri : |(z : ℝ) - r| ≤ |(z : ℝ) - x| + |(r : ℝ) - x| := by
      rw [abs_sub_comm (r : ℝ) x]; exact abs_sub_le _ _ _
    refine ⟨by linarith, fun heq => .inr (h.even_of_tie ?_)⟩
    rw [abs_sub_comm]
    linarith

/-- No binary32 number is nearer to x than its significand, and another one as near makes the significand even. -/
theorem near_number (h : RoundsInUnit t r x) (neg : Bool) (y : F32) :
    |(r : ℝ) - x| ≤ |inUnits neg t y - x|
      ∧ (|inUnits neg t y - x| = |(r : ℝ) - x| → inUnits neg t y = r ∨ Even r) := by
  rcases inUnits_integer_or_small neg t y with ⟨z, hz⟩ | ⟨ht, hsmall⟩
  · rw [hz]
    exact h.near_integer z
  · have hx : (2 ^ 23 : ℝ) ≤ x := h.normal.resolve_left ht
    have hstep : |(2 ^ 23 : ℝ) - x| < |inUnits neg t y - x| := by
      rw [abs_of_nonpos (by linarith), abs_of_nonpos (by linarith)]
      linarith
    have hle := (h.near_integer ((2 : ℤ) ^ 23)).1
    rw [Int.cast_pow, Int.cast_ofNat] at hle
    exact ⟨by linarith, fun heq => by linarith⟩

/-- The number with the significand r in units of 2^(t − 149) is the rounding of every number that r is nearest to. -/
theorem roundsTo (h : RoundsInUnit t r x) (neg : Bool) :
    RoundsTo (signed neg (min (t * 2 ^ 23 + r) 0x7F800000)) (signFactor neg * (x * 2 ^ t / 2 ^ 149)) := by
  have hmag : min (t * 2 ^ 23 + r) 0x7F800000 < 2 ^ 31 := by omega
  have hv : 0 ≤ x * 2 ^ t / 2 ^ 149 := by have := h.nonneg; positivity
  refine ⟨?_, ?_, fun hfin => ?_, fun hne => ?_⟩
  · rw [isNaN_false_iff, fMag_signed neg hmag]
    exact min_le_right _ _
  · rw [isInf_iff, fMag_signed neg hmag, abs_mul, abs_signFactor, one_mul, abs_of_nonneg hv, ← h.overflow_iff]
    omega
  · rw [isFinite_iff, fMag_signed neg hmag] at hfin
    have hmin : min (t * 2 ^ 23 + r) 0x7F800000 = t * 2 ^ 23 + r := by omega
    rw [hmin] at hmag ⊢
    have hself := inUnits_signed neg h.normal_significand h.significand_le hmag
    have hunit : (0 : ℝ) < 2 ^ t / 2 ^ 149 := by positivity
    refine ⟨fun y _ => ?_, fun y _ heq hne => ?_⟩
    · rw [abs_fValue_sub, abs_fValue_sub, hself]
      exact mul_le_mul_of_nonneg_right (h.near_number neg y).1 hunit.le
    · rw [abs_fValue_sub, abs_fValue_sub, hself] at heq
      rw [getLsbD_zero_signed neg hmag, decide_eq_false_iff_not]
      rcases (h.near_number neg y).2 (mul_right_cancel₀ hunit.ne' heq) with hy | ⟨k, hk⟩
      · exact absurd (fValue_eq_of_inUnits_eq (hy.trans hself.symm)) hne
      · omega
  · rw [fSign_signed neg hmag, signFactor_mul_neg_iff]
    exact lt_of_le_of_ne hv fun h0 => hne (by rw [← h0, mul_zero])

end RoundsInUnit

end Sys2Proof.Machine
end

section
/-! PROOFS. `fRound`, `fRoundInt` and `fRoundRatio` round (00_scope.md R18). -/

namespace Sys2Proof.Machine

/-! ## Shifting with rounding -/

/-- m / 2^k is rounded to the nearest integer, of two the even one. -/
theorem roundShift_near (m k : ℕ) :
    2 * |(m : ℤ) - roundShift m k * 2 ^ k| ≤ 2 ^ k
      ∧ (2 * |(m : ℤ) - roundShift m k * 2 ^ k| = 2 ^ k → Even (roundShift m k)) := by
  have hpos : 0 < 2 ^ k := Nat.two_pow_pos k
  have hdiv : (m : ℤ) = (m / 2 ^ k : ℕ) * 2 ^ k + (m % 2 ^ k : ℕ) := by
    exact_mod_cast (Nat.div_add_mod' m (2 ^ k)).symm
  have hmod : m % 2 ^ k < 2 ^ k := Nat.mod_lt _ hpos
  rw [roundShift, Nat.shiftRight_eq_div_pow]
  set q := m / 2 ^ k
  set s := m % 2 ^ k
  have hcast : ((2 ^ k : ℕ) : ℤ) = 2 ^ k := by push_cast; rfl
  rw [← hcast] at hdiv ⊢
  generalize 2 ^ k = b at *
  by_cases hup : b < 2 * s ∨ 2 * s = b ∧ q % 2 = 1
  · rw [if_pos hup]
    have hdist : |(m : ℤ) - ((q + 1 : ℕ) : ℤ) * b| = b - s := by
      rw [abs_of_nonpos] <;> push_cast <;> linarith
    rw [hdist, Nat.even_iff]
    omega
  · rw [if_neg hup]
    have hdist : |(m : ℤ) - (q : ℤ) * b| = s := by
      rw [abs_of_nonneg] <;> linarith
    rw [hdist, Nat.even_iff]
    omega

/-! ## Significands with a sticky bit -/

/-- m stands for the size x: it is x, or it is odd, has more bits than a binary32 number and a half keeps, and differs
from x by less than 1. Rounding then takes m and x to the same number. -/
def StandsFor (m : ℕ) (x : ℝ) : Prop :=
  x = m ∨ (Odd m ∧ 2 ^ 25 ≤ m ∧ |x - m| < 1)

theorem StandsFor.refl (m : ℕ) : StandsFor m m := .inl rfl

/-- With a last bit that records whether anything is left of x beyond its integer part q, 2 q and that bit stand for 2 x. -/
theorem standsFor_sticky {q : ℕ} {x : ℝ} {p : Prop} [Decidable p] (hx : 0 ≤ x) (hfloor : ⌊x⌋₊ = q) (hexact : p ↔ x = q)
    (hbig : p ∨ 2 ^ 25 ≤ q) : StandsFor (2 * q + if p then 0 else 1) (2 * x) := by
  obtain ⟨hle, hlt⟩ := (Nat.floor_eq_iff hx).1 hfloor
  by_cases hp : p
  · left
    rw [if_pos hp, hexact.1 hp]
    push_cast
    ring
  · have hne : (q : ℝ) < x := lt_of_le_of_ne hle fun h => hp (hexact.2 h.symm)
    rw [if_neg hp]
    have := hbig.resolve_left hp
    refine .inr ⟨⟨q, rfl⟩, by omega, ?_⟩
    push_cast
    rw [abs_lt]
    constructor <;> linarith

/-- The bits before the last bound x as they bound m. -/
theorem StandsFor.lt_two_pow {m : ℕ} {x : ℝ} (h : StandsFor m x) {k : ℕ} (hm : m < 2 ^ k) : x < 2 ^ k := by
  rcases h with rfl | ⟨-, -, hx⟩
  · exact_mod_cast hm
  · have : (m : ℝ) + 1 ≤ 2 ^ k := by exact_mod_cast hm
    linarith [(abs_lt.1 hx).2]

theorem StandsFor.two_pow_le {m : ℕ} {x : ℝ} (h : StandsFor m x) {k : ℕ} (hk : 2 ^ k ≤ m) : 2 ^ k ≤ x := by
  rcases h with rfl | ⟨hodd, hbig, hx⟩
  · exact_mod_cast hk
  · have hne : 2 ^ k ≠ m := by
      rintro rfl
      cases k with
      | zero => omega
      | succ k => exact absurd hodd (by rw [pow_succ]; simp)
    have : (2 : ℝ) ^ k + 1 ≤ m := by exact_mod_cast lt_of_le_of_ne hk hne
    linarith [(abs_lt.1 hx).1]

theorem StandsFor.nonneg {m : ℕ} {x : ℝ} (h : StandsFor m x) : 0 ≤ x := by
  rcases h with rfl | ⟨-, hbig, hx⟩
  · positivity
  · have : (2 ^ 25 : ℝ) ≤ m := by exact_mod_cast hbig
    linarith [(abs_lt.1 hx).1]

/-- Dropping k ≥ 2 bits of m rounds what m stands for. -/
theorem StandsFor.shift_near {m k : ℕ} {x : ℝ} (h : StandsFor m x) (hk : x = m ∨ 2 ≤ k) :
    |x / 2 ^ k - roundShift m k| ≤ 1 / 2 ∧ (|x / 2 ^ k - roundShift m k| = 1 / 2 → Even (roundShift m k)) := by
  obtain ⟨hnear, htie⟩ := roundShift_near m k
  set r := roundShift m k
  have hpow : (0 : ℝ) < 2 ^ k := by positivity
  have hdist : |x / 2 ^ k - r| = |x - r * 2 ^ k| / 2 ^ k := by
    rw [← abs_of_pos hpow, ← abs_div, abs_of_pos hpow, sub_div, mul_div_cancel_right₀ _ hpow.ne']
  rw [hdist, div_le_iff₀ hpow, div_eq_iff hpow.ne']
  have exact (hx : x = m) : |x - r * 2 ^ k| ≤ 1 / 2 * 2 ^ k ∧ (|x - r * 2 ^ k| = 1 / 2 * 2 ^ k → Even r) := by
    have hcast : |x - r * 2 ^ k| = ((|(m : ℤ) - r * 2 ^ k| : ℤ) : ℝ) := by rw [hx]; push_cast; rfl
    have hnear' : 2 * ((|(m : ℤ) - r * 2 ^ k| : ℤ) : ℝ) ≤ 2 ^ k := by exact_mod_cast hnear
    rw [hcast]
    refine ⟨by linarith, fun heq => htie ?_⟩
    have : 2 * ((|(m : ℤ) - r * 2 ^ k| : ℤ) : ℝ) = 2 ^ k := by linarith
    exact_mod_cast this
  rcases h with hx | ⟨hodd, -, hx⟩
  · exact exact hx
  · rcases hk with hxm | hk
    · exact exact hxm
    -- m is odd and r · 2^k and 2^(k − 1) are even, so m is at least 1 short of a tie.
    have hshort : 2 * |(m : ℤ) - r * 2 ^ k| + 2 ≤ 2 ^ k := by
      obtain ⟨j, rfl⟩ := Nat.exists_eq_add_of_le hk
      obtain ⟨i, rfl⟩ := hodd
      have hp : (2 : ℤ) ^ (2 + j) = 4 * 2 ^ j := by rw [pow_add]; norm_num
      rw [hp] at hnear ⊢
      have hmul : (r : ℤ) * (4 * 2 ^ j) = 4 * (r * 2 ^ j) := by ring
      rw [hmul, Int.abs_eq_natAbs] at hnear ⊢
      omega
    have hshort' : 2 * |(m : ℝ) - r * 2 ^ k| + 2 ≤ 2 ^ k := by exact_mod_cast hshort
    have htri : |x - r * 2 ^ k| ≤ |x - m| + |(m : ℝ) - r * 2 ^ k| := abs_sub_le _ _ _
    exact ⟨by linarith, fun heq => absurd heq (by linarith)⟩

/-! ## The rounding functions -/

/-- The significand that `fRound` gives m · 2^e in units of 2^q. -/
def unitSignificand (m : ℕ) (e q : ℤ) : ℕ :=
  if q ≤ e then m <<< (e - q).toNat else roundShift m (q - e).toNat

theorem fRound_eq (neg : Bool) {m : ℕ} (hm : m ≠ 0) (e : ℤ) :
    fRound neg m e = signed neg (min ((roundUnit m e + 149).toNat * 2 ^ 23 + unitSignificand m e (roundUnit m e))
      0x7F800000) := if_neg hm

/-- The significand is the nearest integer to what m stands for, in units of 2^q, and of two the even one. -/
theorem StandsFor.unitSignificand_near {m : ℕ} {x : ℝ} (h : StandsFor m x) {e q : ℤ} (hq : x = m ∨ e + 2 ≤ q) :
    |x * 2 ^ (e - q) - unitSignificand m e q| ≤ 1 / 2
      ∧ (|x * 2 ^ (e - q) - unitSignificand m e q| = 1 / 2 → Even (unitSignificand m e q)) := by
  rw [unitSignificand]
  by_cases hle : q ≤ e
  · obtain ⟨j, hj⟩ := Int.eq_ofNat_of_zero_le (sub_nonneg.2 hle)
    have hx : x = m := hq.resolve_right (by omega)
    rw [if_pos hle, hj, Int.toNat_natCast, zpow_natCast, Nat.shiftLeft_eq, hx]
    push_cast
    norm_num
  · obtain ⟨k, hk⟩ := Int.eq_ofNat_of_zero_le (sub_nonneg.2 (not_le.1 hle).le)
    rw [if_neg hle, hk, Int.toNat_natCast, show e - q = -(k : ℤ) by omega, zpow_neg, zpow_natCast, ← div_eq_mul_inv]
    exact h.shift_near (hq.imp_right fun hq => by omega)

/-- The unit of `fRound` leaves what m stands for 24 bits, unless it is the least one. -/
theorem StandsFor.roundsInUnit {m : ℕ} {x : ℝ} (h : StandsFor m x) (hm : m ≠ 0) {e : ℤ} {t : ℕ}
    (ht : roundUnit m e = (t : ℤ) - 149) :
    RoundsInUnit t (unitSignificand m e (roundUnit m e)) (x * 2 ^ (e - roundUnit m e)) := by
  have hlow : 2 ^ Nat.log2 m ≤ m := Nat.log2_self_le hm
  have hunit : x = m ∨ e + 2 ≤ roundUnit m e := by
    refine h.imp_right fun ⟨_, hbig, _⟩ => ?_
    have : 25 ≤ Nat.log2 m := (Nat.le_log2 hm).2 hbig
    rw [roundUnit]
    omega
  obtain ⟨near, even_of_tie⟩ := h.unitSignificand_near hunit
  refine ⟨near, even_of_tie, mul_nonneg h.nonneg (by positivity), ?_, ?_⟩
  · by_cases h0 : t = 0
    · exact .inl h0
    · have hexp : e - roundUnit m e = 23 - (Nat.log2 m : ℤ) := by rw [roundUnit] at ht ⊢; omega
      refine .inr ?_
      calc (2 : ℝ) ^ 23 = 2 ^ Nat.log2 m * 2 ^ (e - roundUnit m e) := by
            rw [hexp, ← zpow_natCast 2 (Nat.log2 m), ← zpow_add₀ two_ne_zero, add_sub_cancel]; norm_cast
        _ ≤ x * 2 ^ (e - roundUnit m e) := by gcongr; exact h.two_pow_le hlow
  · have hexp : e - roundUnit m e ≤ 24 - ((Nat.log2 m + 1 : ℕ) : ℤ) := by rw [roundUnit]; omega
    calc x * 2 ^ (e - roundUnit m e)
        < 2 ^ (Nat.log2 m + 1) * 2 ^ (e - roundUnit m e) := by
          gcongr; exact h.lt_two_pow Nat.lt_log2_self
      _ ≤ 2 ^ (Nat.log2 m + 1) * 2 ^ (24 - ((Nat.log2 m + 1 : ℕ) : ℤ)) := by
          gcongr; norm_num
      _ = (2 : ℝ) ^ 24 := by
          rw [← zpow_natCast, ← zpow_add₀ two_ne_zero, add_sub_cancel]; norm_cast

theorem roundsTo_fZero (neg : Bool) : RoundsTo (fZero neg) 0 := by
  have h : RoundsInUnit 0 0 0 := ⟨by norm_num, by simp, le_rfl, .inl rfl, by norm_num⟩
  simpa [fZero] using h.roundsTo neg

/-- `fRound` rounds every number that its significand stands for. -/
theorem StandsFor.fRound_roundsTo {m : ℕ} {x : ℝ} (h : StandsFor m x) (neg : Bool) (e : ℤ) :
    RoundsTo (fRound neg m e) (signFactor neg * (x * 2 ^ e)) := by
  by_cases hm : m = 0
  · have hx : x = 0 := by
      rcases h with hx | ⟨-, hbig, -⟩
      · rw [hx, hm, Nat.cast_zero]
      · omega
    rw [fRound, if_pos hm, hx, zero_mul, mul_zero]
    exact roundsTo_fZero neg
  · obtain ⟨t, ht⟩ : ∃ t : ℕ, roundUnit m e = (t : ℤ) - 149 :=
      ⟨(roundUnit m e + 149).toNat, by rw [roundUnit]; omega⟩
    have hvalue : x * 2 ^ (e - roundUnit m e) * 2 ^ t / 2 ^ 149 = x * 2 ^ e := by
      have hexp : e = e - roundUnit m e + t - (149 : ℕ) := by rw [ht]; push_cast; ring
      conv_rhs => rw [hexp, zpow_sub₀ two_ne_zero, zpow_add₀ two_ne_zero, zpow_natCast, zpow_natCast]
      ring
    have htop := (h.roundsInUnit hm ht).roundsTo neg
    rw [hvalue] at htop
    rw [fRound_eq neg hm, show (roundUnit m e + 149).toNat = t by omega]
    exact htop

theorem fRound_roundsTo (neg : Bool) (m : ℕ) (e : ℤ) :
    RoundsTo (fRound neg m e) (signFactor neg * (m * 2 ^ e)) := (StandsFor.refl m).fRound_roundsTo neg e

theorem fRoundInt_roundsTo (zeroNeg : Bool) (z e : ℤ) : RoundsTo (fRoundInt zeroNeg z e) (z * 2 ^ e) := by
  rw [fRoundInt]
  split
  · next hz =>
    rw [hz, Int.cast_zero, zero_mul]
    exact roundsTo_fZero zeroNeg
  · have hsign : (z : ℝ) = signFactor (decide (z < 0)) * (z.natAbs : ℝ) := by
      have hcast : (z.natAbs : ℝ) = ((|z| : ℤ) : ℝ) := by rw [Int.abs_eq_natAbs]; rfl
      rw [hcast, signFactor]
      by_cases hneg : z < 0
      · simp [hneg, abs_of_neg hneg]
      · simp [hneg, abs_of_nonneg (not_lt.1 hneg)]
    rw [hsign, mul_assoc]
    exact fRound_roundsTo _ _ _

theorem fRoundRatio_roundsTo (neg : Bool) (n : ℕ) {d : ℕ} (hd : 0 < d) (e : ℤ) :
    RoundsTo (fRoundRatio neg n d e) (signFactor neg * ((n : ℝ) / d * 2 ^ e)) := by
  set t := 26 + Nat.log2 d with ht
  have hd' : (0 : ℝ) < d := by exact_mod_cast hd
  have hscale : (n : ℝ) / d * 2 ^ e = 2 * ((n <<< t : ℕ) / d : ℝ) * 2 ^ (e - t - 1) := by
    rw [Nat.shiftLeft_eq, zpow_sub₀ two_ne_zero, zpow_sub₀ two_ne_zero, zpow_natCast, zpow_one]
    push_cast
    field_simp
  rw [hscale, fRoundRatio]
  refine StandsFor.fRound_roundsTo (standsFor_sticky (by positivity) ?_ ?_ ?_) neg _
  · rw [Nat.floor_div_eq_div]
  · rw [← Nat.dvd_iff_mod_eq_zero, div_eq_iff hd'.ne', ← Nat.cast_mul, Nat.cast_inj, eq_comm (a := n <<< t)]
    exact Nat.dvd_iff_div_mul_eq _ d
  · rcases Nat.eq_zero_or_pos n with rfl | hn
    · left; simp
    · right
      rw [Nat.le_div_iff_mul_le hd, Nat.shiftLeft_eq]
      calc 2 ^ 25 * d ≤ 2 ^ 25 * 2 ^ (Nat.log2 d + 1) := Nat.mul_le_mul_left _ Nat.lt_log2_self.le
        _ = 1 * 2 ^ t := by rw [ht, ← pow_add, one_mul]; congr 1; omega
        _ ≤ n * 2 ^ t := Nat.mul_le_mul_right _ hn

end Sys2Proof.Machine
end

section
/-! PROOFS. The operations of binary32 arithmetic (00_scope.md R18 to R22): each is the exact result rounded once on finite
operands, and what it is on the others. -/

namespace Sys2Proof.Machine

theorem fNaN_eq : fNaN = 0x7FC00000 := rfl

/-! ## Significand and exponent of a number -/

theorem fExp_ge (v : F32) : -149 ≤ fExp v := by
  rw [fExp]; split <;> omega

theorem fMant_lt (v : F32) : fMant v < 2 ^ 24 := by
  rw [fMant]; split <;> omega

theorem fMant_eq_zero_iff (v : F32) : fMant v = 0 ↔ fMag v = 0 := by
  rw [fMant, fExpField]; split <;> omega

/-- A value is its sign times its significand in its unit. -/
theorem fValue_eq_fMant (v : F32) : (fValue v : ℝ) = signFactor (fSign v) * (fMant v * 2 ^ fExp v) := by
  have hpow : (2 : ℝ) ^ fExp v = 2 ^ (fExp v + 149).toNat / 2 ^ 149 := by
    rw [eq_div_iff (by positivity), ← zpow_natCast, ← zpow_natCast, ← zpow_add₀ two_ne_zero]
    congr 1
    have := fExp_ge v
    omega
  rw [fValue_real, fScaled, Nat.shiftLeft_eq, hpow]
  cases fSign v <;> simp [signFactor] <;> ring

/-! ## Results that a finite number represents exactly -/

/-- A finite number is below the overflow bound. -/
theorem abs_fValue_lt_overflowBound {v : F32} (h : isFinite v = true) : |(fValue v : ℝ)| < overflowBound := by
  have hmag : magScaled (fMag v) ≤ (2 ^ 24 - 1) * 2 ^ 253 := by
    rw [← magScaled_unit (t := 253) (r := 2 ^ 24 - 1) (by decide) (by decide)]
    exact magScaled_strictMono.monotone (by rw [isFinite_iff] at h; omega)
  have hmag' : (magScaled (fMag v) : ℝ) ≤ (2 ^ 24 - 1) * 2 ^ 253 := by
    have : (magScaled (fMag v) : ℝ) ≤ ((2 ^ 24 - 1 : ℕ) : ℝ) * ((2 ^ 253 : ℕ) : ℝ) := by exact_mod_cast hmag
    refine this.trans (by norm_num)
  rw [fValue_eq_signFactor, abs_mul, abs_signFactor, one_mul, abs_of_nonneg (by positivity), overflowBound,
    div_lt_iff₀ (by positivity)]
  refine hmag'.trans_lt (by norm_num)

/-- Rounding a binary32 number gives that number. -/
theorem RoundsTo.eq_of_isFinite {r y : F32} {v : ℝ} (h : RoundsTo r v) (hy : isFinite y = true) (hv : (fValue y : ℝ) = v) :
    isFinite r = true ∧ (fValue r : ℝ) = v := by
  obtain ⟨hnan, hinf, hnear, -⟩ := h
  have hfin : isFinite r = true := by
    rw [isFinite_iff_classes]
    refine ⟨hnan, ?_⟩
    rw [← Bool.not_eq_true, hinf, ← hv, not_le]
    exact abs_fValue_lt_overflowBound hy
  have hzero : |(fValue r : ℝ) - v| ≤ 0 := by
    simpa [hv] using (hnear hfin).1 y hy
  exact ⟨hfin, sub_eq_zero.1 (abs_nonpos_iff.1 hzero)⟩

/-- The powers of two from the least subnormal to the largest exponent are binary32 numbers. -/
theorem exists_fValue_two_zpow {k : ℤ} (hlow : -149 ≤ k) (hhigh : k ≤ 127) :
    ∃ y : F32, isFinite y = true ∧ (fValue y : ℝ) = 2 ^ k := by
  obtain ⟨t, j, hnormal, hj, ht, hk⟩ : ∃ t j : ℕ, (t = 0 ∨ 23 ≤ j) ∧ j ≤ 23 ∧ t ≤ 253 ∧ k = (j + t : ℕ) - (149 : ℕ) := by
    rcases lt_or_ge k (-126) with hsub | hnorm
    · exact ⟨0, (k + 149).toNat, .inl rfl, by omega, by omega, by omega⟩
    · exact ⟨(k + 126).toNat, 23, .inr le_rfl, le_rfl, by omega, by omega⟩
  have hr : (2 ^ j : ℕ) ≤ 2 ^ 23 := Nat.pow_le_pow_right (by decide) hj
  have hmag : t * 2 ^ 23 + 2 ^ j < 2 ^ 31 := by omega
  refine ⟨signed false (t * 2 ^ 23 + 2 ^ j), ?_, ?_⟩
  · rw [isFinite_iff, fMag_signed _ hmag]
    omega
  · rw [fValue_real, fScaled_signed _ hmag,
      magScaled_unit (hnormal.imp_right (Nat.pow_le_pow_right (by decide))) (by omega), hk,
      zpow_sub₀ two_ne_zero, zpow_natCast, zpow_natCast, pow_add]
    simp

theorem fPow2_exact {k : ℤ} (hlow : -149 ≤ k) (hhigh : k ≤ 127) :
    isFinite (fPow2 k) = true ∧ (fValue (fPow2 k) : ℝ) = 2 ^ k := by
  obtain ⟨y, hy, hv⟩ := exists_fValue_two_zpow hlow hhigh
  refine RoundsTo.eq_of_isFinite ?_ hy hv
  simpa [fPow2, signFactor] using fRound_roundsTo false 1 k

/-! ## Sum and difference -/

theorem fadd_of_isNaN {a b : F32} (h : isNaN a = true ∨ isNaN b = true) : fadd a b = fNaN := by
  rw [fadd, if_pos (by simpa using h)]

theorem fadd_of_isFinite {a b : F32} (ha : isFinite a = true) (hb : isFinite b = true) :
    fadd a b = fRoundInt (fSign a && fSign b) (fScaled a + fScaled b) (-149) := by
  rw [isFinite_iff_classes] at ha hb
  simp [fadd, ha, hb]

theorem fadd_inf_inf {a b : F32} (ha : isInf a = true) (hb : isInf b = true) :
    fadd a b = if fSign a = fSign b then a else fNaN := by
  simp [fadd, isNaN_of_isInf ha, isNaN_of_isInf hb, ha, hb]

theorem fadd_inf_finite {a b : F32} (ha : isInf a = true) (hb : isFinite b = true) : fadd a b = a := by
  rw [isFinite_iff_classes] at hb
  simp [fadd, isNaN_of_isInf ha, ha, hb]

theorem fadd_finite_inf {a b : F32} (ha : isFinite a = true) (hb : isInf b = true) : fadd a b = b := by
  rw [isFinite_iff_classes] at ha
  simp [fadd, isNaN_of_isInf hb, ha, hb]

theorem fadd_roundsTo {a b : F32} (ha : isFinite a = true) (hb : isFinite b = true) :
    RoundsTo (fadd a b) ((fValue a : ℝ) + fValue b) := by
  have hsum : (fValue a : ℝ) + fValue b = ((fScaled a + fScaled b : ℤ) : ℝ) * 2 ^ (-149 : ℤ) := by
    rw [fValue_real, fValue_real, ← add_div, Int.cast_add, zpow_neg, ← div_eq_mul_inv]; rfl
  rw [fadd_of_isFinite ha hb, hsum]
  exact fRoundInt_roundsTo _ _ _

theorem fsub_roundsTo {a b : F32} (ha : isFinite a = true) (hb : isFinite b = true) :
    RoundsTo (fsub a b) ((fValue a : ℝ) - fValue b) := by
  have := fadd_roundsTo ha (b := fneg b) (by rwa [isFinite_fneg])
  rwa [fValue_fneg, Rat.cast_neg, ← sub_eq_add_neg] at this

/-! ## Product -/

theorem fmul_of_isNaN {a b : F32} (h : isNaN a = true ∨ isNaN b = true) : fmul a b = fNaN := by
  rw [fmul, if_pos (by simpa using h)]

theorem fmul_comm (a b : F32) : fmul a b = fmul b a := by
  have hsign : (fSign a != fSign b) = (fSign b != fSign a) := bne_comm
  rw [fmul, fmul, hsign, Bool.or_comm (isNaN a), Bool.or_comm (isInf a), Bool.or_comm (decide (fMag a = 0)),
    Nat.mul_comm, Int.add_comm]

theorem fmul_inf_zero {a b : F32} (ha : isInf a = true) (hb : fMag b = 0) : fmul a b = fNaN := by
  have hnan : isNaN b = false := by rw [isNaN_false_iff, hb]; decide
  simp [fmul, isNaN_of_isInf ha, hnan, ha, hb]

theorem fmul_inf_nonzero {a b : F32} (ha : isInf a = true) (hnan : isNaN b = false) (hb : fMag b ≠ 0) :
    fmul a b = fInf (fSign a != fSign b) := by
  have hmag : fMag a ≠ 0 := by rw [(isInf_iff a).1 ha]; decide
  simp [fmul, isNaN_of_isInf ha, hnan, ha, hb, hmag]

theorem fmul_of_isFinite {a b : F32} (ha : isFinite a = true) (hb : isFinite b = true) :
    fmul a b = fRound (fSign a != fSign b) (fMant a * fMant b) (fExp a + fExp b) := by
  rw [isFinite_iff_classes] at ha hb
  simp [fmul, ha, hb]

theorem fmul_roundsTo {a b : F32} (ha : isFinite a = true) (hb : isFinite b = true) :
    RoundsTo (fmul a b) ((fValue a : ℝ) * fValue b) := by
  have hprod : (fValue a : ℝ) * fValue b
      = signFactor (fSign a != fSign b) * ((fMant a * fMant b : ℕ) * 2 ^ (fExp a + fExp b)) := by
    rw [fValue_eq_fMant, fValue_eq_fMant, signFactor_ne, zpow_add₀ two_ne_zero, Nat.cast_mul]
    ring
  rw [fmul_of_isFinite ha hb, hprod]
  exact fRound_roundsTo _ _ _

/-! ## Quotient -/

theorem fdiv_of_isNaN {a b : F32} (h : isNaN a = true ∨ isNaN b = true) : fdiv a b = fNaN := by
  rw [fdiv, if_pos (by simpa using h)]

theorem fdiv_inf_inf {a b : F32} (ha : isInf a = true) (hb : isInf b = true) : fdiv a b = fNaN := by
  simp [fdiv, isNaN_of_isInf ha, isNaN_of_isInf hb, ha, hb]

theorem fdiv_inf_finite {a b : F32} (ha : isInf a = true) (hb : isFinite b = true) :
    fdiv a b = fInf (fSign a != fSign b) := by
  rw [isFinite_iff_classes] at hb
  simp [fdiv, isNaN_of_isInf ha, ha, hb]

theorem fdiv_finite_inf {a b : F32} (ha : isFinite a = true) (hb : isInf b = true) :
    fdiv a b = fZero (fSign a != fSign b) := by
  rw [isFinite_iff_classes] at ha
  simp [fdiv, isNaN_of_isInf hb, ha, hb]

theorem fdiv_by_zero {a b : F32} (ha : isFinite a = true) (hb : fMag b = 0) :
    fdiv a b = if fMag a = 0 then fNaN else fInf (fSign a != fSign b) := by
  have hfin : isFinite b = true := by rw [isFinite_iff, hb]; decide
  rw [isFinite_iff_classes] at ha hfin
  simp [fdiv, ha, hfin, hb]

theorem fdiv_of_isFinite {a b : F32} (ha : isFinite a = true) (hb : isFinite b = true) (hne : fMag b ≠ 0) :
    fdiv a b = fRoundRatio (fSign a != fSign b) (fMant a) (fMant b) (fExp a - fExp b) := by
  rw [isFinite_iff_classes] at ha hb
  simp [fdiv, ha, hb, hne]

theorem fdiv_roundsTo {a b : F32} (ha : isFinite a = true) (hb : isFinite b = true) (hne : fMag b ≠ 0) :
    RoundsTo (fdiv a b) ((fValue a : ℝ) / fValue b) := by
  have hquot : (fValue a : ℝ) / fValue b
      = signFactor (fSign a != fSign b) * ((fMant a : ℝ) / fMant b * 2 ^ (fExp a - fExp b)) := by
    have hinv : (signFactor (fSign b))⁻¹ = signFactor (fSign b) := inv_eq_of_mul_eq_one_left (signFactor_mul_self _)
    rw [fValue_eq_fMant, fValue_eq_fMant, signFactor_ne, zpow_sub₀ two_ne_zero, div_eq_mul_inv, mul_inv, mul_inv, hinv]
    ring
  have hpos : 0 < fMant b := Nat.pos_of_ne_zero (by rwa [ne_eq, fMant_eq_zero_iff])
  rw [fdiv_of_isFinite ha hb hne, hquot]
  exact fRoundRatio_roundsTo _ _ hpos _

/-! ## Square root -/

/-- The search bit by bit finds the integer square root. -/
theorem isqrtFrom_eq_sqrt (k n r : ℕ) (hlow : r * r ≤ n) (hhigh : n < (r + 2 ^ k) * (r + 2 ^ k)) :
    isqrtFrom k n r = Nat.sqrt n := by
  induction k generalizing r with
  | zero => exact Nat.eq_sqrt.2 ⟨hlow, hhigh⟩
  | succ k ih =>
    rw [isqrtFrom]
    split
    · next hbit =>
      refine ih _ hbit ?_
      rwa [add_assoc, ← two_mul, ← pow_succ']
    · next hbit => exact ih _ hlow (not_le.1 hbit)

theorem fsqrt_of_isNaN {a : F32} (h : isNaN a = true) : fsqrt a = fNaN := by rw [fsqrt, if_pos h]

theorem fsqrt_zero {a : F32} (h : fMag a = 0) : fsqrt a = a := by
  have hnan : isNaN a = false := by rw [isNaN_false_iff, h]; decide
  simp [fsqrt, hnan, h]

theorem fsqrt_negative {a : F32} (hs : fSign a = true) (hne : fMag a ≠ 0) : fsqrt a = fNaN := by
  simp [fsqrt, hs, hne]

/-- How far `fsqrt` shifts the significand to the left. -/
def sqrtShift (v : F32) : ℕ :=
  let t := 54 - Nat.log2 (fMant v)
  if (fExp v - t) % 2 = 0 then t else t + 1

theorem fsqrt_of_isFinite {a : F32} (ha : isFinite a = true) (hs : fSign a = false) (hne : fMag a ≠ 0) :
    fsqrt a = (let n := fMant a <<< sqrtShift a
      fRound false (2 * isqrtFrom 28 n 0 + if isqrtFrom 28 n 0 * isqrtFrom 28 n 0 = n then 0 else 1)
        ((fExp a - sqrtShift a) / 2 - 1)) := by
  rw [isFinite_iff_classes] at ha
  simp only [fsqrt, ha, hs, hne, Bool.false_eq_true, if_false]
  rfl

theorem sqrtShift_even (v : F32) : ∃ k : ℤ, fExp v = 2 * k + sqrtShift v ∧ (fExp v - sqrtShift v) / 2 = k := by
  refine ⟨(fExp v - sqrtShift v) / 2, ?_, rfl⟩
  rw [sqrtShift]
  split <;> push_cast <;> omega

/-- The shifted significand has 55 or 56 bits. -/
theorem shifted_significand_bounds {v : F32} (hne : fMag v ≠ 0) :
    2 ^ 54 ≤ fMant v <<< sqrtShift v ∧ fMant v <<< sqrtShift v < 2 ^ 56 := by
  have hm : fMant v ≠ 0 := by rwa [ne_eq, fMant_eq_zero_iff]
  have hlog : Nat.log2 (fMant v) < 24 := (Nat.log2_lt hm).2 (fMant_lt v)
  have hshift : 54 ≤ Nat.log2 (fMant v) + sqrtShift v ∧ Nat.log2 (fMant v) + sqrtShift v ≤ 55 := by
    rw [sqrtShift]
    split <;> omega
  rw [Nat.shiftLeft_eq]
  constructor
  · calc 2 ^ 54 ≤ 2 ^ (Nat.log2 (fMant v) + sqrtShift v) := Nat.pow_le_pow_right (by decide) hshift.1
      _ = 2 ^ Nat.log2 (fMant v) * 2 ^ sqrtShift v := pow_add ..
      _ ≤ fMant v * 2 ^ sqrtShift v := Nat.mul_le_mul_right _ (Nat.log2_self_le hm)
  · calc fMant v * 2 ^ sqrtShift v < 2 ^ (Nat.log2 (fMant v) + 1) * 2 ^ sqrtShift v :=
          Nat.mul_lt_mul_of_pos_right Nat.lt_log2_self (by positivity)
      _ = 2 ^ (Nat.log2 (fMant v) + 1 + sqrtShift v) := (pow_add ..).symm
      _ ≤ 2 ^ 56 := Nat.pow_le_pow_right (by decide) (by omega)

theorem fsqrt_roundsTo {a : F32} (ha : isFinite a = true) (hs : fSign a = false) :
    RoundsTo (fsqrt a) (Real.sqrt (fValue a)) := by
  by_cases hne : fMag a = 0
  · have hzero : a = fZero false := eq_of_fSign_fMag hs hne
    rw [fsqrt_zero hne, (fValue_eq_zero_iff a).2 hne, Rat.cast_zero, Real.sqrt_zero, hzero]
    exact roundsTo_fZero false
  · obtain ⟨hlow, hhigh⟩ := shifted_significand_bounds hne
    obtain ⟨k, hexp, hhalf⟩ := sqrtShift_even a
    have hroot : Real.sqrt (fValue a) = 2 * Real.sqrt (fMant a <<< sqrtShift a : ℕ) * 2 ^ (k - 1) := by
      have hvalue : (fValue a : ℝ) = (fMant a <<< sqrtShift a : ℕ) * (2 ^ k * 2 ^ k) := by
        rw [fValue_eq_fMant, hs, hexp, Nat.shiftLeft_eq, zpow_add₀ two_ne_zero, two_mul, zpow_add₀ two_ne_zero,
          zpow_natCast, signFactor]
        push_cast
        simp
        ring
      rw [hvalue, Real.sqrt_mul (by positivity), Real.sqrt_mul_self (by positivity), zpow_sub₀ two_ne_zero, zpow_one]
      ring
    rw [fsqrt_of_isFinite ha hs hne, hhalf, hroot]
    dsimp only
    generalize fMant a <<< sqrtShift a = n at hlow hhigh ⊢
    rw [isqrtFrom_eq_sqrt 28 n 0 (Nat.zero_le n) (by omega)]
    have hsticky : StandsFor (2 * Nat.sqrt n + if Nat.sqrt n * Nat.sqrt n = n then 0 else 1) (2 * Real.sqrt n) := by
      refine standsFor_sticky (Real.sqrt_nonneg _) Real.nat_floor_real_sqrt_eq_nat_sqrt ?_ (.inr ?_)
      · rw [Real.sqrt_eq_iff_mul_self_eq (by positivity) (by positivity), eq_comm]
        norm_cast
      · exact Nat.le_sqrt.2 (by omega)
    simpa [signFactor] using hsticky.fRound_roundsTo false (k - 1)

/-! ## A NaN that results is the canonical one (R19) -/

/-- Where r is a NaN, it is the canonical one. -/
def CanonicalNaN (r : F32) : Prop := isNaN r = true → r = 0x7FC00000

theorem canonicalNaN_fNaN : CanonicalNaN fNaN := fun _ => rfl

theorem canonicalNaN_of_not_isNaN {r : F32} (h : isNaN r = false) : CanonicalNaN r := fun hr => by
  rw [h] at hr
  cases hr

theorem RoundsTo.canonicalNaN {r : F32} {v : ℝ} (h : RoundsTo r v) : CanonicalNaN r := canonicalNaN_of_not_isNaN h.1

theorem canonicalNaN_fRound (neg : Bool) (m : ℕ) (e : ℤ) : CanonicalNaN (fRound neg m e) :=
  (fRound_roundsTo neg m e).canonicalNaN

theorem canonicalNaN_fInf (neg : Bool) : CanonicalNaN (fInf neg) := canonicalNaN_of_not_isNaN (isNaN_fInf neg)

theorem canonicalNaN_fZero (neg : Bool) : CanonicalNaN (fZero neg) := canonicalNaN_of_not_isNaN (isNaN_fZero neg)

theorem canonicalNaN_fadd (a b : F32) : CanonicalNaN (fadd a b) := by
  rw [fadd]
  split_ifs with _ ha _ hb
  · exact canonicalNaN_fNaN
  · exact canonicalNaN_fNaN
  · exact canonicalNaN_of_not_isNaN (isNaN_of_isInf ha)
  · exact canonicalNaN_of_not_isNaN (isNaN_of_isInf hb)
  · exact (fRoundInt_roundsTo _ _ _).canonicalNaN

theorem canonicalNaN_fmul (a b : F32) : CanonicalNaN (fmul a b) := by
  rw [fmul]
  split_ifs
  · exact canonicalNaN_fNaN
  · exact canonicalNaN_fNaN
  · exact canonicalNaN_fInf _
  · exact canonicalNaN_fRound _ _ _

theorem canonicalNaN_fdiv (a b : F32) : CanonicalNaN (fdiv a b) := by
  rw [fdiv]
  split_ifs
  · exact canonicalNaN_fNaN
  · exact canonicalNaN_fNaN
  · exact canonicalNaN_fInf _
  · exact canonicalNaN_fZero _
  · exact canonicalNaN_fNaN
  · exact canonicalNaN_fInf _
  · exact canonicalNaN_fRound _ _ _

theorem canonicalNaN_fsqrt (a : F32) : CanonicalNaN (fsqrt a) := by
  rw [fsqrt]
  split_ifs with hnan
  · exact canonicalNaN_fNaN
  · exact canonicalNaN_of_not_isNaN (by simpa using hnan)
  · exact canonicalNaN_fNaN
  · exact canonicalNaN_of_not_isNaN (by simpa using hnan)
  · exact canonicalNaN_fRound _ _ _

/-! ## Comparisons -/

theorem fless_eq {a b : F32} (ha : isNaN a = false) (hb : isNaN b = false) : fless a b = decide (fKey a < fKey b) := by
  simp [fless, ha, hb]

theorem fgeq_eq {a b : F32} (ha : isNaN a = false) (hb : isNaN b = false) : fgeq a b = decide (fKey b ≤ fKey a) := by
  simp [fgeq, ha, hb]

theorem fless_of_isNaN {a b : F32} (h : isNaN a = true ∨ isNaN b = true) : fless a b = false := by
  rcases h with h | h <;> simp [fless, h]

theorem fgeq_of_isNaN {a b : F32} (h : isNaN a = true ∨ isNaN b = true) : fgeq a b = false := by
  rcases h with h | h <;> simp [fgeq, h]

theorem fless_eq_fValue {a b : F32} (ha : isNaN a = false) (hb : isNaN b = false) :
    fless a b = decide (fValue a < fValue b) := by
  rw [fless_eq ha hb, decide_eq_decide, fKey_lt_iff]

theorem fgeq_eq_fValue {a b : F32} (ha : isNaN a = false) (hb : isNaN b = false) :
    fgeq a b = decide (fValue b ≤ fValue a) := by
  rw [fgeq_eq ha hb, decide_eq_decide, fKey_le_iff]

/-! ## Conversions (R22) -/

theorem nearestInt_eq (v : F32) : nearestInt v =
    if fSign v then -(unitSignificand (fMant v) (fExp v) 0 : ℤ) else unitSignificand (fMant v) (fExp v) 0 := by
  rw [nearestInt, unitSignificand, sub_zero, zero_sub, ← apply_ite Nat.cast]

theorem nearestInt_near (v : F32) : NearestInteger (nearestInt v) (fValue v) := by
  obtain ⟨near, even_of_tie⟩ := (StandsFor.refl (fMant v)).unitSignificand_near (e := fExp v) (q := 0) (.inl rfl)
  rw [sub_zero] at near even_of_tie
  have hdist : |(nearestInt v : ℝ) - fValue v| = |(fMant v : ℝ) * 2 ^ fExp v - unitSignificand (fMant v) (fExp v) 0| := by
    rw [nearestInt_eq, fValue_eq_fMant, abs_sub_comm]
    cases fSign v
    · simp [signFactor]
    · rw [← abs_neg]
      simp [signFactor, neg_add_eq_sub, sub_eq_add_neg]
  have heven : Even (nearestInt v) ↔ Even (unitSignificand (fMant v) (fExp v) 0) := by
    rw [nearestInt_eq]
    split <;> simp
  rw [NearestInteger, hdist, heven]
  exact ⟨near, even_of_tie⟩

theorem f2uSat_of_isNaN {v : F32} (h : isNaN v = true) (lo hi : ℤ) : f2uSat v lo hi = lo := if_pos h

theorem f2uSat_of_isInf {v : F32} (h : isInf v = true) (lo hi : ℤ) : f2uSat v lo hi = if fSign v then lo else hi := by
  simp [f2uSat, isNaN_of_isInf h, h]

theorem f2uSat_of_isFinite {v : F32} (h : isFinite v = true) {lo hi : ℤ} (hle : lo ≤ hi) :
    f2uSat v lo hi = max lo (min hi (nearestInt v)) := by
  obtain ⟨hnan, hinf⟩ := (isFinite_iff_classes v).1 h
  rw [f2uSat, if_neg (by simp [hnan]), if_neg (by simp [hinf])]
  split_ifs <;> omega

/-! ## Clamps (R20, R21) -/

theorem fclamp_of_isNaN {v : F32} (h : isNaN v = true) (lo hi : F32) : fclamp v lo hi = fclamp 0x00000000 lo hi := by
  rw [fclamp, if_pos h]
  rfl

theorem fclamp_of_not_isNaN {v : F32} (h : isNaN v = false) (lo hi : F32) :
    fclamp v lo hi = if fless v lo then lo else if fless hi v then hi else v := by
  simp only [fclamp, h, Bool.false_eq_true, if_false]
  rfl

theorem fKey_bounds {v : F32} (h : isNaN v = false) : -0x7F800000 ≤ fKey v ∧ fKey v ≤ 0x7F800000 := by
  rw [isNaN_false_iff] at h
  rw [fKey]
  split <;> omega

theorem fSign_eq_of_fKey_ne_zero {v : F32} (h : fKey v ≠ 0) : fSign v = decide (fKey v < 0) := by
  have hmag : 0 < fMag v := by rw [fMag_eq_natAbs_fKey]; omega
  rw [fKey]
  cases fSign v <;> simp [hmag]

/-- The key determines a number other than zero. -/
theorem eq_of_fKey_eq {a b : F32} (h : fKey a = fKey b) (hne : fKey a ≠ 0) : a = b := by
  refine eq_of_fSign_fMag ?_ (by rw [fMag_eq_natAbs_fKey, fMag_eq_natAbs_fKey, h])
  rw [fSign_eq_of_fKey_ne_zero hne, fSign_eq_of_fKey_ne_zero (h ▸ hne), h]

/-- Within bounds in order a clamped value is a number between them. -/
theorem fclamp_mem {lo hi : F32} (hlo : isNaN lo = false) (hhi : isNaN hi = false) (hle : fless hi lo = false) (v : F32) :
    isNaN (fclamp v lo hi) = false ∧ fKey lo ≤ fKey (fclamp v lo hi) ∧ fKey (fclamp v lo hi) ≤ fKey hi := by
  rw [fless_eq hhi hlo, decide_eq_false_iff_not, not_lt] at hle
  have key : ∀ u : F32, isNaN u = false → isNaN (fclamp u lo hi) = false ∧ fKey lo ≤ fKey (fclamp u lo hi)
      ∧ fKey (fclamp u lo hi) ≤ fKey hi := by
    intro u hu
    rw [fclamp_of_not_isNaN hu, fless_eq hu hlo, fless_eq hhi hu]
    simp only [decide_eq_true_eq]
    split_ifs with hbelow habove
    · exact ⟨hlo, le_rfl, hle⟩
    · exact ⟨hhi, hle, le_rfl⟩
    · exact ⟨hu, not_lt.1 hbelow, not_lt.1 habove⟩
  cases hv : isNaN v
  · exact key v hv
  · rw [fclamp_of_isNaN hv]
    exact key _ (by decide)

theorem fclamp_plus_inf {lo hi : F32} (hlo : isNaN lo = false) (hhi : isNaN hi = false) :
    fclamp 0x7F800000 lo hi = hi := by
  have hnan : isNaN 0x7F800000 = false := by decide
  have hkey : fKey 0x7F800000 = 0x7F800000 := by decide
  have hbelow : ¬fKey 0x7F800000 < fKey lo := by
    rw [hkey, not_lt]
    exact (fKey_bounds hlo).2
  rw [fclamp_of_not_isNaN hnan, fless_eq hnan hlo, fless_eq hhi hnan]
  simp only [decide_eq_true_eq, if_neg hbelow]
  split_ifs with habove
  · rfl
  · have := (fKey_bounds hhi).2
    exact eq_of_fKey_eq (by omega) (by omega)

theorem fclamp_minus_inf {lo hi : F32} (hlo : isNaN lo = false) (hhi : isNaN hi = false) :
    fclamp 0xFF800000 lo hi = lo := by
  have hnan : isNaN 0xFF800000 = false := by decide
  have hkey : fKey 0xFF800000 = -0x7F800000 := by decide
  have habove : ¬fKey hi < fKey 0xFF800000 := by
    rw [hkey, not_lt]
    exact (fKey_bounds hhi).1
  rw [fclamp_of_not_isNaN hnan, fless_eq hnan hlo, fless_eq hhi hnan]
  simp only [decide_eq_true_eq, if_neg habove]
  split_ifs with hbelow
  · rfl
  · have := (fKey_bounds hlo).1
    exact eq_of_fKey_eq (by omega) (by omega)

/-! ## Sanitized samples -/

theorem isNaN_of_isFinite {v : F32} (h : isFinite v = true) : isNaN v = false := ((isFinite_iff_classes v).1 h).1

theorem fValue_sigMax : fValue sigMax = 65536 := by
  have hscaled : fScaled sigMax = 65536 * 2 ^ 149 := by
    rw [sigMax, fScaled_eq, show fMag 0x47800000#32 = 142 * 2 ^ 23 + 2 ^ 23 by decide,
      magScaled_unit (.inr le_rfl) (by decide)]
    norm_num [show fSign 0x47800000#32 = false by decide]
  rw [fValue, hscaled]
  norm_num

theorem isFinite_sanitize (v : F32) : isFinite (sanitize v) = true := by
  obtain ⟨-, hlo, hhi⟩ := fclamp_mem (lo := fneg sigMax) (hi := sigMax) (by decide) (by decide) (by decide) v
  have hmax : fKey sigMax = 0x47800000 := by decide
  have hmin : fKey (fneg sigMax) = -0x47800000 := by decide
  rw [hmax] at hhi
  rw [hmin] at hlo
  rw [isFinite_iff, sanitize, fMag_eq_natAbs_fKey]
  omega

theorem abs_fValue_le_iff (v : F32) :
    |fValue v| ≤ 65536 ↔ fKey (fneg sigMax) ≤ fKey v ∧ fKey v ≤ fKey sigMax := by
  rw [fKey_le_iff, fKey_le_iff, fValue_fneg, fValue_sigMax, abs_le]

theorem abs_fValue_sanitize (v : F32) : |fValue (sanitize v)| ≤ 65536 := by
  obtain ⟨-, hrange⟩ := fclamp_mem (lo := fneg sigMax) (hi := sigMax) (by decide) (by decide) (by decide) v
  exact (abs_fValue_le_iff _).2 hrange

theorem sanitize_of_abs_le {v : F32} (hfin : isFinite v = true) (h : |fValue v| ≤ 65536) : sanitize v = v := by
  obtain ⟨hlo, hhi⟩ := (abs_fValue_le_iff v).1 h
  have hnan := isNaN_of_isFinite hfin
  rw [sanitize, fclamp_of_not_isNaN hnan, fless_eq hnan (by decide), fless_eq (by decide) hnan, if_neg (by simpa using hlo),
    if_neg (by simpa using hhi)]

end Sys2Proof.Machine
end

section
/-! PROOFS. The statements about numbers (00_scope.md R18 to R22), settled. -/

namespace Sys2Proof.Machine

/-- Settles O50: the key of a clamped value lies between those of the bounds. -/
theorem clampStaysInRange : Obligations.ClampStaysInRange := by
  refine ⟨fun v lo hi hlo hhi => ⟨fun hv => fclamp_of_isNaN hv lo hi, fun hv => fclamp_of_not_isNaN hv lo hi,
    fun hle => ?_, fun _ => ⟨fclamp_plus_inf hlo hhi, fclamp_minus_inf hlo hhi⟩⟩,
    fun v => ⟨isFinite_sanitize v, abs_fValue_sanitize v, sanitize_of_abs_le⟩⟩
  obtain ⟨hnan, hlow, hhigh⟩ := fclamp_mem hlo hhi hle v
  rw [fgeq_eq hnan hlo, fgeq_eq hhi hnan]
  exact ⟨decide_eq_true hlow, decide_eq_true hhigh⟩

/-- Settles O51: the significand that `fRound` chooses in its unit is the nearest, and the even one of two. -/
theorem roundingIsNearestEven : Obligations.RoundingIsNearestEven := by
  intro neg m e
  rw [mul_assoc]
  exact fRound_roundsTo neg m e

/-! ## Sum, difference and product -/

theorem sum_difference_product_of_isNaN {a b : F32} (h : isNaN a = true ∨ isNaN b = true) :
    fadd a b = 0x7FC00000 ∧ fsub a b = 0x7FC00000 ∧ fmul a b = 0x7FC00000 :=
  ⟨fadd_of_isNaN h, fadd_of_isNaN (by rwa [isNaN_fneg]), fmul_of_isNaN h⟩

theorem sum_difference_of_infinities {a b : F32} (ha : isInf a = true) (hb : isInf b = true) :
    fadd a b = (if fSign a = fSign b then a else 0x7FC00000)
      ∧ fsub a b = (if fSign a = fSign b then 0x7FC00000 else a) := by
  refine ⟨fadd_inf_inf ha hb, ?_⟩
  rw [fsub, fadd_inf_inf ha (by rwa [isInf_fneg]), fSign_fneg, fNaN_eq]
  cases fSign a <;> cases fSign b <;> rfl

theorem sum_difference_inf_finite {a b : F32} (ha : isInf a = true) (hb : isFinite b = true) :
    fadd a b = a ∧ fadd b a = a ∧ fsub a b = a ∧ fsub b a = fneg a :=
  ⟨fadd_inf_finite ha hb, fadd_finite_inf hb ha, fadd_inf_finite ha (by rwa [isFinite_fneg]),
    fadd_finite_inf hb (by rwa [isInf_fneg])⟩

theorem product_inf_zero {a b : F32} (ha : isInf a = true) (hb : b = 0x00000000 ∨ b = 0x80000000) :
    fmul a b = 0x7FC00000 ∧ fmul b a = 0x7FC00000 := by
  have h := fmul_inf_zero ha ((fMag_eq_zero_iff b).2 hb)
  exact ⟨h, (fmul_comm b a).trans h⟩

theorem product_inf_nonzero {a b : F32} (ha : isInf a = true) (hnan : isNaN b = false) (hpos : b ≠ 0x00000000)
    (hneg : b ≠ 0x80000000) :
    let inf : F32 := if fSign a = fSign b then 0x7F800000 else 0xFF800000
    fmul a b = inf ∧ fmul b a = inf := by
  have hne : fMag b ≠ 0 := fun h => ((fMag_eq_zero_iff b).1 h).elim hpos hneg
  have h := fmul_inf_nonzero ha hnan hne
  rw [fInf_sign_ne] at h
  exact ⟨h, (fmul_comm b a).trans h⟩

/-- Settles O52: on finite operands each operation rounds the exact result once, by the lemma of the operation; the other
operands are gone through by their classes. -/
theorem sumAndProductRoundOnce : Obligations.SumAndProductRoundOnce := by
  refine ⟨fun a b ha hb => ⟨fadd_roundsTo ha hb, fsub_roundsTo ha hb, fmul_roundsTo ha hb⟩,
    fun a b => ⟨canonicalNaN_fadd a b, canonicalNaN_fadd a (fneg b), canonicalNaN_fmul a b⟩,
    fun a b => sum_difference_product_of_isNaN,
    fun a b ha => ⟨sum_difference_of_infinities ha, sum_difference_inf_finite ha, product_inf_zero ha,
      product_inf_nonzero ha⟩,
    fun a ha => ⟨by rwa [isFinite_fneg], by rwa [isFinite_fabs], fValue_fneg a, fValue_fabs a⟩,
    fun k => fPow2_exact, fun a b ha hb => ?_,
    fun a b h => ⟨fless_of_isNaN h, fless_of_isNaN h.symm, fgeq_of_isNaN h⟩⟩
  have hna := isNaN_of_isFinite ha
  have hnb := isNaN_of_isFinite hb
  exact ⟨fless_eq_fValue hna hnb, fless_eq_fValue hnb hna, fgeq_eq_fValue hna hnb⟩

/-! ## Quotient and square root -/

theorem quotient_by_zero {a b : F32} (ha : isFinite a = true) (hb : fValue b = 0) :
    (fValue a = 0 → fdiv a b = 0x7FC00000)
      ∧ (fValue a ≠ 0 → fdiv a b = if fSign a = fSign b then 0x7F800000 else 0xFF800000) := by
  rw [fdiv_by_zero ha ((fValue_eq_zero_iff b).1 hb), fInf_sign_ne, fNaN_eq, ne_eq, fValue_eq_zero_iff]
  exact ⟨fun h => if_pos h, fun h => if_neg h⟩

theorem quotient_inf_finite {a b : F32} (ha : isInf a = true) (hb : isFinite b = true) :
    fdiv a b = (if fSign a = fSign b then 0x7F800000 else 0xFF800000)
      ∧ fdiv b a = (if fSign a = fSign b then 0x00000000 else 0x80000000) := by
  rw [fdiv_inf_finite ha hb, fdiv_finite_inf hb ha, bne_comm (a := fSign b), fInf_sign_ne, fZero_sign_ne]
  exact ⟨rfl, rfl⟩

theorem root_of_isNaN_or_negative {a : F32} (h : isNaN a = true ∨ (fSign a = true ∧ a ≠ 0x80000000)) :
    fsqrt a = 0x7FC00000 := by
  rcases h with hnan | ⟨hs, hne⟩
  · exact fsqrt_of_isNaN hnan
  · exact fsqrt_negative hs fun hmag => hne (eq_of_fSign_fMag hs hmag)

/-- Settles O53: quotient and root are cut to more bits than a result keeps, with a last bit for what is left, and rounded
once; the corners are the branches of the definitions. -/
theorem quotientAndRootRoundOnce : Obligations.QuotientAndRootRoundOnce :=
  ⟨fun _ b ha hb hne => fdiv_roundsTo ha hb fun hmag => hne ((fValue_eq_zero_iff b).2 hmag),
    fun _ => fsqrt_roundsTo, canonicalNaN_fdiv, canonicalNaN_fsqrt, fun _ _ => fdiv_of_isNaN,
    fun _ _ ha _ => quotient_by_zero ha, fun _ _ ha => ⟨fdiv_inf_inf ha, quotient_inf_finite ha⟩,
    fun _ => root_of_isNaN_or_negative, fsqrt_zero (by decide), by decide⟩

/-- Settles O54: `i2f` rounds the integer as a significand with exponent 0, and `f2uSat` clamps the significand nearest in
units of 1. -/
theorem conversionsRoundOnce : Obligations.ConversionsRoundOnce := by
  refine ⟨fun n _ => ?_, fun v lo hi hle => ⟨fun h => f2uSat_of_isNaN h lo hi, fun h => f2uSat_of_isInf h lo hi,
    fun h => ⟨nearestInt v, nearestInt_near v, f2uSat_of_isFinite h hle⟩⟩⟩
  simpa [i2f] using fRoundInt_roundsTo false n 0

end Sys2Proof.Machine
end

section
/-! PROOFS. What a command can do, said once (30_encoding.md R140, R143, R157): it is rejected, it completes on the lanes
of a mask, or it is one of the few commands without a mask. -/

namespace Sys2Proof.Machine

/-- The commands on a lane mask (30_encoding.md R143): the batch, the mask, and what becomes of a selected lane. A write
of a parameter completes only if the value of every selected lane is legal (10_state.md R58). -/
inductive LaneCommand (s : State) (b : Batch) (m : LaneMask) : Instr → (Lane → LaneOut) → Prop
  | rstOsc : LaneCommand s b m (.rstOsc b m) fun l => { chan := (s.channel b l).zeroOsc }
  | rstDec (dsel : DecSel) : LaneCommand s b m (.rstDec b m dsel) fun l => { chan := (s.channel b l).zeroSel dsel }
  | rstFlt : LaneCommand s b m (.rstFlt b m) fun l => { chan := (s.channel b l).zeroFlt }
  | rstSat : LaneCommand s b m (.rstSat b m) fun l => { chan := (s.channel b l).zeroSat }
  | wrParam (pid : ParamId) (hv : ∀ l, laneBit m l = true → paramValueLegal pid (s.opaOf l) = true) :
      LaneCommand s b m (.wrParam b m pid) fun l =>
        { chan := { s.channel b l with par := (s.channel b l).par.put (storedParam pid (s.opaOf l)) pid } }
  | rdParam (pid : ParamId) : LaneCommand s b m (.rdParam b m pid) fun l =>
      { chan := s.channel b l, res := some ((s.channel b l).par.read pid) }
  | rdState (sid : StateId) (idx : BitVec 12) : LaneCommand s b m (.rdState b m sid idx) fun l =>
      { chan := s.channel b l, res := some ((s.channel b l).item sid idx.toNat) }
  | paAdd (asel : AccSel) : LaneCommand s b m (.paAdd b m asel) fun l =>
      let t := paStep ((s.channel b l).acc asel) (s.incrementA l)
      { chan := (s.channel b l).setAcc t.new asel, res := some t.new, wrap := some t.wrap }
  | paLoad (asel : AccSel) : LaneCommand s b m (.paLoad b m asel) fun l =>
      { chan := (s.channel b l).setAcc (s.opaOf l) asel }
  | blep : LaneCommand s b m (.blepIns b m .blep) fun l =>
      { chan := (s.channel b l).blepIns (s.fractionA l) (s.sampleB l) }
  | blamp : LaneCommand s b m (.blepIns b m .blamp) fun l =>
      { chan := (s.channel b l).blampIns (s.fractionA l) (s.sampleB l) }
  | blepProc : LaneCommand s b m (.blepProc b m) fun l =>
      { chan := (s.channel b l).blepShift (s.sampleA l), res := some (s.channel b l).blepOut }
  | sat : LaneCommand s b m (.sat b m) fun l =>
      { chan := { s.channel b l with xp := s.sampleA l }, res := some (adaaOut (s.channel b l).xp (s.sampleA l)) }
  | decWr (inst : DecInst) (idx : BitVec 10) : LaneCommand s b m (.decWr b m inst idx) fun l =>
      { chan := (s.channel b l).setDec (((s.channel b l).dec inst).writeInput idx.toNat (s.sampleA l)) inst }
  | decProc (inst : DecInst) (log2n : BitVec 4) : LaneCommand s b m (.decProc b m inst log2n) fun l =>
      let r := cascade s.cfg s.glob.osr ((s.channel b l).dec inst)
      { chan := (s.channel b l).setDec r.2 inst, res := some r.1 }
  | oscTick (var : OscVariant) : LaneCommand s b m (.oscTick b m var) fun l =>
      oscTickLane s.cfg s.glob var (s.channel b l)
  | fltTick (meth : OdeMethod) : LaneCommand s b m (.fltTick b m meth) fun l =>
      fltTickLane s.cfg s.glob meth (s.sampleA l) (s.channel b l)

/-- The states a command that is not rejected leads to. -/
inductive Completes (s : State) : Instr → State → Prop
  | nop : Completes s .nop s.complete
  | rstAll : Completes s .rstAll { (s.mapChannels Channel.zeroDynamic) with status := Status.zero }
  | setOsr (hv : (s.opaOf 0).toNat ≤ 10) : Completes s (.wrGlobal .osrLog2) (s.setOsr (s.opaOf 0)).complete
  | setFs : Completes s (.wrGlobal .fs) { s with glob := { s.glob with fs := s.opaOf 0 } }.complete
  | setFmin : Completes s (.wrGlobal .fmin) { s with glob := { s.glob with fmin := s.opaOf 0 } }.complete
  | setFmax : Completes s (.wrGlobal .fmax) { s with glob := { s.glob with fmax := s.opaOf 0 } }.complete
  | rdGlobal (gid : GlobalId) : Completes s (.rdGlobal gid) (s.setRes 0 (s.glob.read gid)).complete
  | onLanes {i : Instr} {b : Batch} {m : LaneMask} {f : Lane → LaneOut} (hf : LaneCommand s b m i f) :
      Completes s i (s.forLanes b m f).complete

/-- How a command ends: it is rejected (60_exceptions.md R482), or it completes. -/
inductive Ends (s : State) (i : Instr) : Host.Outcome State Fault Refusal → Prop
  | rejected (e : ErrorCode) : Ends s i (.next (s.raise e))
  | completed {t : State} (hc : Completes s i t) : Ends s i (.next t)

/-- A check that rejects, before the rest of a command. -/
theorem Ends.check {s : State} {i : Instr} {p : Prop} [Decidable p] {e : ErrorCode}
    {o : Host.Outcome State Fault Refusal} (h : ¬ p → Ends s i o) : Ends s i (if p then .next (s.raise e) else o) := by
  split
  · exact .rejected e
  · next hp => exact h hp

theorem Ends.onLanes {s : State} {b : Batch} {m : LaneMask} {i : Instr} {f : Lane → LaneOut}
    (hf : LaneCommand s b m i f) : Ends s i (.next (s.forLanes b m f).complete) := .completed (.onLanes hf)

theorem execWrParam_ends (b : Batch) (m : LaneMask) (pid : ParamId) (s : State) :
    Ends s (.wrParam b m pid) (execWrParam b m pid s) := by
  refine .check fun hv => .onLanes (.wrParam pid fun l hl => ?_)
  have hlegal := (anyLane_eq_false m _).1 (Bool.not_eq_true _ ▸ hv) l hl
  simpa using hlegal

theorem execWrGlobal_ends (gid : GlobalId) (s : State) : Ends s (.wrGlobal gid) (execWrGlobal gid s) := by
  cases gid with
  | osrLog2 => exact .check fun hv => .completed (.setOsr (not_lt.1 hv))
  | fs => exact .completed .setFs
  | fmin => exact .completed .setFmin
  | fmax => exact .completed .setFmax
  | id => exact .rejected .badField

/-- Every command is rejected or completes. -/
theorem exec_ends (i : Instr) (s : State) : Ends s i (exec i s) := by
  cases i with
  | nop => exact .completed .nop
  | rstAll => exact .completed .rstAll
  | rstOsc b m => exact .onLanes .rstOsc
  | rstDec b m dsel => exact .onLanes (.rstDec dsel)
  | rstFlt b m => exact .onLanes .rstFlt
  | rstSat b m => exact .onLanes .rstSat
  | wrParam b m pid => exact execWrParam_ends b m pid s
  | rdParam b m pid => exact .onLanes (.rdParam pid)
  | wrGlobal gid => exact execWrGlobal_ends gid s
  | rdGlobal gid => exact .completed (.rdGlobal gid)
  | rdState b m sid idx => exact .check fun _ => .onLanes (.rdState sid idx)
  | paAdd b m asel => exact .onLanes (.paAdd asel)
  | paLoad b m asel => exact .onLanes (.paLoad asel)
  | blepIns b m kind =>
    cases kind with
    | blep => exact .onLanes .blep
    | blamp => exact .onLanes .blamp
  | blepProc b m => exact .onLanes .blepProc
  | sat b m => exact .onLanes .sat
  | decWr b m inst idx => exact .onLanes (.decWr inst idx)
  | decProc b m inst log2n => exact .check fun _ => .check fun _ => .onLanes (.decProc inst log2n)
  | oscTick b m var => exact .onLanes (.oscTick var)
  | fltTick b m meth => exact .check fun _ => .onLanes (.fltTick meth)

/-- The state after a command: the rejected one, or one the command completes in. -/
theorem exec_inversion {i : Instr} {s t : State} (h : exec i s = .next t) :
    (∃ e, t = s.raise e) ∨ Completes s i t := by
  have hends := exec_ends i s
  rw [h] at hends
  cases hends with
  | rejected e => exact .inl ⟨e, rfl⟩
  | completed hc => exact .inr hc

end Sys2Proof.Machine
end

section
/-! PROOFS. What a legal lane stays (10_state.md R57, R58, R72, R74), command by command, and the invariant of every step. -/

namespace Sys2Proof.Machine

/-! ## Lanes -/

/-- Whether a lane is legal rests on its parameters, its decimators and PREV alone. -/
theorem Channel.legal_of_eq {cfg : Configuration} {c c' : Channel} (h : c.legal cfg = true) (hpar : c'.par = c.par)
    (hosc : c'.osc = c.osc) (hflt : c'.flt = c.flt) (hprev : c'.prev = c.prev) : c'.legal cfg = true := by
  rw [Channel.legal_iff] at h ⊢
  rwa [hpar, hosc, hflt, hprev]

theorem Channel.dec_legal {cfg : Configuration} {c : Channel} (h : c.legal cfg = true) (inst : DecInst) :
    (c.dec inst).legal cfg = true := by
  obtain ⟨-, hosc, hflt, -⟩ := (Channel.legal_iff cfg c).1 h
  cases inst with
  | osc => exact hosc
  | flt => exact hflt

theorem Channel.setDec_legal {cfg : Configuration} {c : Channel} {d : Decimator} (h : c.legal cfg = true)
    (hd : d.legal cfg = true) (inst : DecInst) : (c.setDec d inst).legal cfg = true := by
  obtain ⟨hpar, hosc, hflt, hprev⟩ := (Channel.legal_iff cfg c).1 h
  rw [Channel.legal_iff]
  cases inst with
  | osc => exact ⟨hpar, hd, hflt, hprev⟩
  | flt => exact ⟨hpar, hosc, hd, hprev⟩

theorem Channel.zeroSel_legal {cfg : Configuration} {c : Channel} (h : c.legal cfg = true) (dsel : DecSel) :
    (c.zeroSel dsel).legal cfg = true := by
  have hosc := Channel.setDec_legal h (Decimator.zero_legal cfg) .osc
  cases dsel with
  | osc => exact hosc
  | flt => exact Channel.setDec_legal h (Decimator.zero_legal cfg) .flt
  | both => exact Channel.setDec_legal hosc (Decimator.zero_legal cfg) .flt

theorem sanitize_plusZero : sanitize fPlusZero = fPlusZero := by decide

theorem Channel.zeroFlt_legal {cfg : Configuration} {c : Channel} (h : c.legal cfg = true) :
    c.zeroFlt.legal cfg = true := by
  obtain ⟨hpar, hosc, hflt, -⟩ := (Channel.legal_iff cfg c).1 h
  exact (Channel.legal_iff cfg _).2 ⟨hpar, hosc, hflt, sanitize_plusZero⟩

theorem Channel.zeroDynamic_legal {cfg : Configuration} {c : Channel} (h : c.legal cfg = true) :
    c.zeroDynamic.legal cfg = true := by
  have hosc : c.zeroOsc.legal cfg = true := Channel.legal_of_eq h rfl rfl rfl rfl
  exact Channel.zeroSel_legal (Channel.legal_of_eq (Channel.zeroFlt_legal hosc) rfl rfl rfl rfl) .both

theorem Channel.zero_legal (cfg : Configuration) : Channel.zero.legal cfg = true :=
  (Channel.legal_iff cfg _).2 ⟨by decide, Decimator.zero_legal cfg, Decimator.zero_legal cfg, sanitize_plusZero⟩

/-- A checked value is stored legally: the flags keep bit 0 alone (R57), TOPO and TAP are at most 2 (R58). -/
theorem Params.put_legal {p : Params} {pid : ParamId} {v : Word} (h : p.legal = true)
    (hv : paramValueLegal pid v = true) : (p.put (storedParam pid v) pid).legal = true := by
  have hflag : (v &&& 1).toNat ≤ 1 := by
    rw [BitVec.toNat_and]; exact Nat.and_le_right
  simp only [Params.legal, Bool.and_eq_true, decide_eq_true_eq] at h ⊢
  obtain ⟨⟨⟨hsync, hsaten⟩, htopo⟩, htap⟩ := h
  cases pid with
  | sync => exact ⟨⟨⟨hflag, hsaten⟩, htopo⟩, htap⟩
  | saten => exact ⟨⟨⟨hsync, hflag⟩, htopo⟩, htap⟩
  | topo => exact ⟨⟨⟨hsync, hsaten⟩, of_decide_eq_true hv⟩, htap⟩
  | tap => exact ⟨⟨⟨hsync, hsaten⟩, htopo⟩, of_decide_eq_true hv⟩
  | _ => exact ⟨⟨⟨hsync, hsaten⟩, htopo⟩, htap⟩

theorem Channel.putParam_legal {cfg : Configuration} {c : Channel} {pid : ParamId} {v : Word} (h : c.legal cfg = true)
    (hv : paramValueLegal pid v = true) : Channel.legal cfg { c with par := c.par.put (storedParam pid v) pid } = true := by
  obtain ⟨hpar, hosc, hflt, hprev⟩ := (Channel.legal_iff cfg c).1 h
  exact (Channel.legal_iff cfg _).2 ⟨Params.put_legal hpar hv, hosc, hflt, hprev⟩

/-! ## Decimators in a tick -/

/-- Every substep of a tick writes inside IN (00_scope.md R12). -/
theorem lt_inLen_of_mem_substeps {g : Globals} (hL : g.osr ≤ 10) {k : ℕ} (hk : k ∈ List.range g.substeps) : k < 1024 :=
  (List.mem_range.1 hk).trans_le (Nat.pow_le_pow_right (by decide) hL)

theorem cascade_legal_of_wellFormed {cfg : Configuration} (hcfg : configWellFormed cfg = true) {n : ℕ} (hn : n ≤ 10)
    {d : Decimator} (h : d.legal cfg = true) : (cascade cfg n d).2.legal cfg = true :=
  cascade_legal cfg n d hn (fun j hj => (ringSize_pow cfg j hcfg hj).imp fun _ ⟨hk, hsize⟩ => ⟨by omega, hsize⟩) h

theorem OscTick.run_osc_legal {cfg : Configuration} {g : Globals} (hL : g.osr ≤ 10) (t : OscTick) (var : OscVariant)
    {c : Channel} (h : c.osc.legal cfg = true) : (t.run var g.substeps c).chan.osc.legal cfg = true := by
  refine List.foldlRecOn (motive := fun r : OscRun => r.chan.osc.legal cfg = true) _ _ h fun r hr k hk => ?_
  obtain ⟨-, -, -, ⟨y, hy⟩, -⟩ := t.substep_spec var r k
  rw [hy]
  exact Decimator.writeInput_legal cfg _ k y (lt_inLen_of_mem_substeps hL hk) hr

theorem FltTick.run_flt_legal {cfg : Configuration} {g : Globals} (hL : g.osr ≤ 10) (t : FltTick) (meth : OdeMethod)
    {c : Channel} (h : c.flt.legal cfg = true) : (t.run meth g.substeps c).flt.legal cfg = true := by
  refine List.foldlRecOn (motive := fun d : Channel => d.flt.legal cfg = true) _ _ h fun d hd k hk => ?_
  obtain ⟨-, -, ⟨y, hy⟩, -⟩ := t.substep_spec meth d k
  rw [hy]
  exact Decimator.writeInput_legal cfg _ k y (lt_inLen_of_mem_substeps hL hk) hd

theorem oscTickLane_legal {cfg : Configuration} (hcfg : configWellFormed cfg = true) {g : Globals} (hL : g.osr ≤ 10)
    (var : OscVariant) {c : Channel} (h : c.legal cfg = true) : (oscTickLane cfg g var c).chan.legal cfg = true := by
  obtain ⟨hpar, hosc, hflt, hprev⟩ := (Channel.legal_iff cfg c).1 h
  obtain ⟨hkept, -⟩ := (oscTickValues g c.par).run_spec var g.substeps c
  have hrun := (oscTickValues g c.par).run_osc_legal hL var hosc
  refine (Channel.legal_iff cfg _).2 ⟨?_, cascade_legal_of_wellFormed hcfg hL hrun, ?_, ?_⟩
  · exact hkept.par ▸ hpar
  · exact hkept.flt ▸ hflt
  · exact hkept.prev ▸ hprev

/-- A filter tick leaves the current sample in PREV, which is sanitized (46_ode_filter.md R442). -/
theorem fltTickLane_legal {cfg : Configuration} (hcfg : configWellFormed cfg = true) {g : Globals} (hL : g.osr ≤ 10)
    (meth : OdeMethod) {cur : F32} (hcur : sanitize cur = cur) {c : Channel} (h : c.legal cfg = true) :
    (fltTickLane cfg g meth cur c).chan.legal cfg = true := by
  obtain ⟨hpar, hosc, hflt, -⟩ := (Channel.legal_iff cfg c).1 h
  obtain ⟨hkept, -⟩ := (fltTickValues g c cur).fold_spec meth g.substeps c
  have hrun := (fltTickValues g c cur).run_flt_legal hL meth hflt
  refine (Channel.legal_iff cfg _).2 ⟨?_, ?_, cascade_legal_of_wellFormed hcfg hL hrun, hcur⟩
  · exact hkept.par ▸ hpar
  · exact hkept.osc ▸ hosc

/-! ## Commands -/

section Commands

variable {s : State} {b : Batch} {m : LaneMask} {i : Instr} {f : Lane → LaneOut} {t : State}

/-- A state with the configuration, OSR_LOG2 and lanes of a legal one, and a code that the spec writes, is legal. -/
theorem State.Legal.of_eq (h : s.Legal) (hcfg : t.cfg = s.cfg) (hosr : t.glob.osrLog2 = s.glob.osrLog2)
    (hchans : t.chans = s.chans) (herr : t.status.err.toNat ≤ 6) : t.Legal := by
  obtain ⟨hwf, -, hL, hlanes⟩ := h
  refine ⟨hcfg ▸ hwf, herr, hosr ▸ hL, fun b l => ?_⟩
  rw [State.channel, hchans, hcfg]
  exact hlanes b l

theorem errorCode_le (e : ErrorCode) : e.code.toNat ≤ 6 := by cases e <;> decide

theorem State.Legal.raise (h : s.Legal) (e : ErrorCode) : (s.raise e).Legal := h.of_eq rfl rfl rfl (errorCode_le e)

/-- A command on a lane mask leaves each selected lane legal. -/
theorem LaneCommand.chan_legal (hf : LaneCommand s b m i f) (h : s.Legal) {l : Lane} (hl : laneBit m l = true) :
    (f l).chan.legal s.cfg = true := by
  obtain ⟨hcfg, -, hL, hlanes⟩ := h
  have hc := hlanes b l
  cases hf with
  | rstOsc | rstSat | rdParam | rdState | blep | blamp | blepProc | sat => exact Channel.legal_of_eq hc rfl rfl rfl rfl
  | paAdd asel | paLoad asel => exact Channel.legal_of_eq hc (by simp) (by simp) (by simp) (by simp)
  | rstDec dsel => exact Channel.zeroSel_legal hc dsel
  | rstFlt => exact Channel.zeroFlt_legal hc
  | wrParam pid hv => exact Channel.putParam_legal hc (hv l hl)
  | decWr inst idx =>
    exact Channel.setDec_legal hc (Decimator.writeInput_legal _ _ _ _ idx.isLt (Channel.dec_legal hc inst)) inst
  | decProc inst log2n =>
    exact Channel.setDec_legal hc (cascade_legal_of_wellFormed hcfg hL (Channel.dec_legal hc inst)) inst
  | oscTick var => exact oscTickLane_legal hcfg hL var hc
  | fltTick meth => exact fltTickLane_legal hcfg hL meth (sanitize_sanitize _) hc

theorem LaneCommand.legal (hf : LaneCommand s b m i f) (h : s.Legal) : (s.forLanes b m f).complete.Legal := by
  have hlane := fun l => hf.chan_legal (l := l) h
  obtain ⟨hcfg, -, hL, hlanes⟩ := h
  refine ⟨by simpa using hcfg, by simp, by simpa using hL, fun b' l => ?_⟩
  rw [State.channel_complete, State.channel_forLanes, State.complete_cfg, State.forLanes_cfg]
  split
  · next hsel => exact hlane l hsel.2
  · exact hlanes b' l

/-- A command that completes leaves a legal state legal. -/
theorem Completes.legal (hc : Completes s i t) (h : s.Legal) : t.Legal := by
  obtain ⟨hcfg, -, hL, hlanes⟩ := id h
  cases hc with
  | nop | setFs | setFmin | setFmax | rdGlobal => exact h.of_eq rfl rfl rfl (by simp)
  | rstAll =>
    exact ⟨hcfg, Nat.zero_le 6, hL, fun b l => (s.channel_mapChannels _ b l) ▸ Channel.zeroDynamic_legal (hlanes b l)⟩
  | setOsr hv =>
    exact ⟨hcfg, by simp, hv, fun b l => (s.channel_mapChannels _ b l) ▸ Channel.zeroSel_legal (hlanes b l) .both⟩
  | onLanes hf => exact hf.legal h

theorem exec_legal (h : s.Legal) (he : exec i s = .next t) : t.Legal := by
  rcases exec_inversion he with ⟨e, rfl⟩ | hc
  · exact h.raise e
  · exact hc.legal h

theorem executeCommand_legal {w : Word} (h : s.Legal) (he : executeCommand w s = .next t) : t.Legal := by
  unfold executeCommand at he
  split at he
  · next e _ => exact Host.Outcome.next.inj he ▸ h.raise e
  · exact exec_legal h he

end Commands

/-! ## The invariant -/

/-- Settles O55: an access that runs no command leaves the configuration, the globals and the lanes as they are; a command
is rejected, or leaves every lane it writes legal. -/
theorem stepKeepsLegal : Obligations.StepKeepsLegal := by
  intro s t h hstep
  obtain ⟨-, herr, -⟩ := id h
  have eq_of_step {u : State} (hu : step s = .next u) : t = u := Host.Outcome.next.inj (hstep.symm.trans hu)
  rcases step_cases s with ⟨-, hs⟩ | ⟨a, rest, -, ⟨v, hs⟩ | ⟨l, v, hs⟩ | ⟨l, v, hs⟩ | ⟨w, hs⟩ | ⟨r, hs⟩⟩
  · exact eq_of_step hs ▸ h
  · exact eq_of_step hs ▸ h.of_eq rfl rfl rfl herr
  · exact eq_of_step hs ▸ h.of_eq rfl rfl rfl herr
  · exact eq_of_step hs ▸ h.of_eq rfl rfl rfl herr
  · have hserved : State.Legal { s with bus := rest, reply := none } := h.of_eq rfl rfl rfl herr
    exact executeCommand_legal hserved (hs.symm.trans hstep)
  · exact eq_of_step hs ▸ h.of_eq rfl rfl rfl (errorCode_le .badAccess)

/-- Settles O56: the built configuration is well formed and every lane is zero. -/
theorem resetIsLegal : Obligations.ResetIsLegal :=
  ⟨builtCfg_wellFormed, by decide, by decide, fun b l => reset_channel b l ▸ Channel.zero_legal _⟩

end Sys2Proof.Machine
end

section
/-! PROOFS. Which commands write which part of the state (10_state.md R41, R46, R47, R50, R55, R70 to R74). -/

namespace Sys2Proof.Machine

/-- From lane c to lane c' only what 10_state.md R55 and R70 to R74 name the command as a writer of has changed. -/
structure Channel.WrittenOnlyAs (op : Opcode) (c c' : Channel) : Prop where
  par : op ≠ .wrParam → c'.par = c.par
  phases : op ∉ [.oscTick, .paAdd, .paLoad, .rstOsc, .rstAll] → c'.p1 = c.p1 ∧ c'.p2 = c.p2 ∧ c'.ps = c.ps
  blep : op ∉ [.oscTick, .blepIns, .blepProc, .rstOsc, .rstAll] → c'.c0 = c.c0 ∧ c'.c1 = c.c1 ∧ c'.dly = c.dly
  rdly : op ∉ [.oscTick, .rstOsc, .rstAll] → c'.rdly = c.rdly
  filter : op ∉ [.fltTick, .rstFlt, .rstAll] → c'.x = c.x ∧ c'.prev = c.prev
  xp : op ∉ [.sat, .fltTick, .rstSat, .rstAll] → c'.xp = c.xp
  osc : op ∉ [.oscTick, .decWr, .decProc, .rstDec, .rstAll, .wrGlobal] → c'.osc = c.osc
  flt : op ∉ [.fltTick, .decWr, .decProc, .rstDec, .rstAll, .wrGlobal] → c'.flt = c.flt

theorem Channel.WrittenOnlyAs.refl (op : Opcode) (c : Channel) : c.WrittenOnlyAs op c :=
  ⟨fun _ => rfl, fun _ => ⟨rfl, rfl, rfl⟩, fun _ => ⟨rfl, rfl, rfl⟩, fun _ => rfl, fun _ => ⟨rfl, rfl⟩, fun _ => rfl,
    fun _ => rfl, fun _ => rfl⟩

theorem Channel.zeroDynamic_writtenOnlyAs (c : Channel) : c.WrittenOnlyAs .rstAll c.zeroDynamic := by
  constructor <;> simp [Channel.zeroDynamic]

theorem Channel.zeroSel_writtenOnlyAs (c : Channel) : c.WrittenOnlyAs .wrGlobal (c.zeroSel .both) := by
  constructor <;> simp

theorem oscTickLane_writtenOnlyAs (cfg : Configuration) (g : Globals) (var : OscVariant) (c : Channel) :
    c.WrittenOnlyAs .oscTick (oscTickLane cfg g var c).chan := by
  obtain ⟨hkept, -⟩ := (oscTickValues g c.par).run_spec var g.substeps c
  constructor <;> simp [oscTickLane, hkept.par, hkept.x, hkept.prev, hkept.xp, hkept.flt]

theorem fltTickLane_writtenOnlyAs (cfg : Configuration) (g : Globals) (meth : OdeMethod) (cur : F32) (c : Channel) :
    c.WrittenOnlyAs .fltTick (fltTickLane cfg g meth cur c).chan := by
  obtain ⟨hkept, -⟩ := (fltTickValues g c cur).fold_spec meth g.substeps c
  constructor <;> simp [fltTickLane, FltTick.run, hkept.par, hkept.p1, hkept.p2, hkept.ps, hkept.c0, hkept.c1, hkept.dly,
    hkept.rdly, hkept.osc]

/-- From s to t only what 10_state.md names the command as a writer of has changed (R41, R46, R47, R50). -/
structure State.WrittenOnlyAs (op : Opcode) (s t : State) : Prop where
  wrap : op ∉ [.paAdd, .oscTick, .rstAll] → t.status.wrap = s.status.wrap
  synced : op ∉ [.oscTick, .rstAll] → t.status.synced = s.status.synced
  glob : op ≠ .wrGlobal → t.glob = s.glob
  res : op ∉ [.rdParam, .rdGlobal, .rdState, .paAdd, .blepProc, .sat, .decProc, .oscTick, .fltTick] → t.res = s.res
  lanes : ∀ (b : Batch) (l : Lane), (s.channel b l).WrittenOnlyAs op (t.channel b l)

theorem State.raise_writtenOnlyAs (s : State) (op : Opcode) (e : ErrorCode) : s.WrittenOnlyAs op (s.raise e) :=
  ⟨fun _ => rfl, fun _ => rfl, fun _ => rfl, fun _ => rfl, fun _ _ => .refl op _⟩

section Commands

variable {s : State} {b : Batch} {m : LaneMask} {i : Instr} {f : Lane → LaneOut}

/-- A command on a lane mask writes of a lane only what it is named for. -/
theorem LaneCommand.chan_writtenOnlyAs (hf : LaneCommand s b m i f) (l : Lane) :
    (s.channel b l).WrittenOnlyAs i.opcode (f l).chan := by
  cases hf with
  | rdParam pid | rdState sid idx => exact .refl _ _
  | oscTick var => exact oscTickLane_writtenOnlyAs _ _ var _
  | fltTick meth => exact fltTickLane_writtenOnlyAs _ _ meth _ _
  | _ => constructor <;> simp [Instr.opcode]

theorem LaneCommand.res_eq_none (hf : LaneCommand s b m i f)
    (hi : i.opcode ∉ [.rdParam, .rdGlobal, .rdState, .paAdd, .blepProc, .sat, .decProc, .oscTick, .fltTick]) (l : Lane) :
    (f l).res = none := by
  cases hf with
  | rstOsc | rstDec | rstFlt | rstSat | wrParam | paLoad | blep | blamp | decWr => rfl
  | _ => simp [Instr.opcode] at hi

theorem LaneCommand.wrap_eq_none (hf : LaneCommand s b m i f) (hi : i.opcode ∉ [.paAdd, .oscTick, .rstAll]) (l : Lane) :
    (f l).wrap = none := by
  cases hf with
  | paAdd | oscTick => simp [Instr.opcode] at hi
  | _ => rfl

theorem LaneCommand.synced_eq_none (hf : LaneCommand s b m i f) (hi : i.opcode ∉ [.oscTick, .rstAll]) (l : Lane) :
    (f l).synced = none := by
  cases hf with
  | oscTick => simp [Instr.opcode] at hi
  | _ => rfl

theorem LaneCommand.writtenOnlyAs (hf : LaneCommand s b m i f) :
    s.WrittenOnlyAs i.opcode (s.forLanes b m f).complete where
  wrap hi := s.forLanes_wrap_of_none b m f (hf.wrap_eq_none hi)
  synced hi := s.forLanes_synced_of_none b m f (hf.synced_eq_none hi)
  glob _ := s.forLanes_glob b m f
  res hi := s.forLanes_res_of_none b m f (hf.res_eq_none hi)
  lanes b' l := by
    rw [State.channel_complete, State.channel_forLanes]
    split
    · next hsel => exact hsel.1 ▸ hf.chan_writtenOnlyAs l
    · exact .refl _ _

/-- A command that completes writes only what it is named for. -/
theorem Completes.writtenOnlyAs {t : State} (hc : Completes s i t) : s.WrittenOnlyAs i.opcode t := by
  cases hc with
  | nop => exact ⟨fun _ => rfl, fun _ => rfl, fun _ => rfl, fun _ => rfl, fun _ _ => .refl _ _⟩
  | rstAll =>
    refine ⟨by simp [Instr.opcode], by simp [Instr.opcode], fun _ => rfl, fun _ => rfl, fun b l => ?_⟩
    exact (s.channel_mapChannels _ b l) ▸ Channel.zeroDynamic_writtenOnlyAs _
  | setOsr hv =>
    refine ⟨fun _ => rfl, fun _ => rfl, by simp [Instr.opcode], fun _ => rfl, fun b l => ?_⟩
    exact (s.channel_mapChannels _ b l) ▸ Channel.zeroSel_writtenOnlyAs _
  | setFs | setFmin | setFmax =>
    exact ⟨fun _ => rfl, fun _ => rfl, by simp [Instr.opcode], fun _ => rfl, fun _ _ => .refl _ _⟩
  | rdGlobal gid =>
    exact ⟨fun _ => rfl, fun _ => rfl, fun _ => rfl, by simp [Instr.opcode], fun _ _ => .refl _ _⟩
  | onLanes hf => exact hf.writtenOnlyAs

end Commands

/-- Settles O60: a rejection writes STATUS.ERR alone, and a command that completes what it is named for. -/
theorem onlyNamedCommandsWrite : Obligations.OnlyNamedCommandsWrite := by
  intro i s t he
  obtain ⟨hwrap, hsynced, hglob, hres, hlanes⟩ : s.WrittenOnlyAs i.opcode t := by
    rcases exec_inversion he with ⟨e, rfl⟩ | hc
    · exact s.raise_writtenOnlyAs i.opcode e
    · exact hc.writtenOnlyAs
  refine ⟨hwrap, hsynced, hglob, hres, fun b l => ?_⟩
  obtain ⟨hpar, hphases, hblep, hrdly, hfilter, hxp, hosc, hflt⟩ := hlanes b l
  exact ⟨hpar, hphases, hblep, hrdly, hfilter, hxp, hosc, hflt⟩

end Sys2Proof.Machine
end

section
/-! PROOFS. The STATUS word (10_state.md R43) and the power-on state (R80). -/

namespace Sys2Proof.Machine

/-- The bits of STATUS, field by field; no field has the bits from 12 up. -/
theorem Status.getLsbD_word (t : Status) (k : ℕ) :
    t.word.getLsbD k = if k < 4 then t.err.getLsbD k else if k < 8 then t.wrap.getLsbD (k - 4)
      else t.synced.getLsbD (k - 8) := by
  unfold Status.word
  simp only [BitVec.getLsbD_append, BitVec.getLsbD_zero]
  split
  · rfl
  · by_cases hwrap : k < 8
    · rw [if_pos hwrap, if_pos (by omega)]
    · rw [if_neg hwrap, if_neg (by omega), show k - 4 - 4 = k - 8 by omega]
      split
      · rfl
      · exact (BitVec.getLsbD_of_ge _ _ (by omega)).symm

/-- Settles O14: each field is the bits of the word that `Status.getLsbD_word` puts there. -/
theorem statusWordLayout : Obligations.StatusWordLayout := by
  refine fun t => ⟨?_, ?_, ?_, ?_⟩ <;> refine BitVec.eq_of_getLsbD_eq fun k hk => ?_ <;>
    rw [BitVec.getLsbD_extractLsb', t.getLsbD_word]
  · simp [hk]
  · simp [hk, show 4 + k < 8 by omega]
  · simp [hk, show ¬ 8 + k < 4 by omega]
  · simp [show ¬ 12 + k < 4 by omega, show ¬ 12 + k < 8 by omega, show 4 ≤ 12 + k - 8 by omega]

theorem Status.word_zero : Status.zero.word = 0 := by decide

theorem State.powerOn_channel (c : Configuration) (b : Batch) (l : Lane) :
    (State.powerOn c).channel b l = Channel.zero := by
  simp [State.powerOn, State.channel]

theorem Decimator.zero_stage (j : Fin 10) : Decimator.zero.stage j.val = Stage.zero := by
  rw [Decimator.stage_eq_getElem _ _ j.isLt]; simp [Decimator.zero]

theorem Channel.zero_dec (inst : DecInst) : Channel.zero.dec inst = Decimator.zero := by cases inst <;> rfl

theorem Params.zero_read (pid : ParamId) : Params.zero.read pid = 0 := by cases pid <;> rfl

/-- Settles O57: the lanes are zero lanes, and the other items stand in the definition. -/
theorem resetValues : Obligations.ResetValues := by
  refine ⟨⟨builtCfg, rfl⟩, fun c => ⟨fun l => ?_, Status.word_zero, rfl, rfl, rfl, rfl, rfl, fun b l => ?_⟩⟩
  · simp [State.powerOn, State.opaOf, State.opbOf, State.resOf]
  · rw [State.powerOn_channel]
    refine ⟨Params.zero_read, rfl, rfl, rfl, rfl, rfl, rfl, rfl, by simp [Channel.zero], rfl, rfl, fun inst => ?_⟩
    rw [Channel.zero_dec]
    refine ⟨fun k => Memory.read_empty k, fun j => ?_⟩
    rw [Decimator.zero_stage]
    exact ⟨rfl, Memory.read_empty⟩

end Sys2Proof.Machine
end

section
/-! PROOFS. The register window (20_memory.md R101, R105 to R109): what serving an access answers, register by register, and
its three statements. -/

namespace Sys2Proof.Machine

/-! ## Offsets -/

theorem HostReg.mem_all (r : HostReg) : r ∈ HostReg.all := List.mem_of_find?_eq_some (at_offset r)

@[simp] theorem accessShape_offset (r : HostReg) : accessShape r.offset 4 = true := by
  have key : ∀ r ∈ HostReg.all, accessShape r.offset 4 = true := by decide
  exact key r r.mem_all

/-- An access has a bad width or alignment, or an offset that is not mapped, or is a 32-bit access to a register. -/
theorem access_cases (off : BitVec 12) (bytes : ℕ) :
    accessShape off bytes = false ∨ HostReg.at? off = none ∨ ∃ r : HostReg, off = r.offset ∧ bytes = 4 := by
  by_cases hshape : accessShape off bytes = true
  · obtain ⟨hbytes, -⟩ : bytes = 4 ∧ _ := by simpa [accessShape] using hshape
    cases hat : HostReg.at? off with
    | none => exact .inr (.inl rfl)
    | some r => exact .inr (.inr ⟨r, (offset_of_at hat).symm, hbytes⟩)
  · exact .inl (Bool.not_eq_true _ ▸ hshape)

/-- The register of R101 that the host cannot read. -/
theorem bad_read_offset (r : HostReg) : (HostAccess.read r.offset 4).bad = true ↔ r = .cmd := by
  have key : ∀ r ∈ HostReg.all, (HostAccess.read r.offset 4).bad = true ↔ r = .cmd := by decide
  exact key r r.mem_all

/-- The registers of R101 that the host cannot write. -/
theorem bad_write_offset (r : HostReg) (v : Word) :
    (HostAccess.write r.offset 4 v).bad = true ↔ r = .status ∨ r = .id ∨ ∃ l, r = .res l := by
  have key : ∀ r ∈ HostReg.all,
      (HostAccess.write r.offset 4 0).bad = true ↔ r = .status ∨ r = .id ∨ ∃ l, r = .res l := by decide
  exact key r r.mem_all

/-! ## Serving an access -/

theorem step_eq_serve {s : State} {a : HostAccess} {rest : List HostAccess} (h : s.bus = a :: rest) :
    step s = serve a { s with bus := rest } := by
  simp only [step, serveNext, h]

theorem State.badAccess_eq_withErr (s : State) (reply : Option Word) :
    s.badAccess reply = .next (State.withErr { s with reply := reply } 6) := rfl

theorem serve_read_offset (r : HostReg) (s : State) {v : Word} (h : s.readReg r = some v) :
    serve (.read r.offset 4) s = .next { s with reply := some v } := by
  simp [serve, at_offset, h]

theorem serve_write_opa (l : Lane) (v : Word) (s : State) :
    serve (.write (HostReg.opa l).offset 4 v) s = .next { s.setOpa l v with reply := none } := by
  simp [serve, at_offset]

theorem serve_write_opb (l : Lane) (v : Word) (s : State) :
    serve (.write (HostReg.opb l).offset 4 v) s = .next { s.setOpb l v with reply := none } := by
  simp [serve, at_offset]

theorem serve_of_bad_read {off : BitVec 12} {bytes : ℕ} (s : State) (h : (HostAccess.read off bytes).bad = true) :
    serve (.read off bytes) s = s.badAccess (some 0) := by
  rcases access_cases off bytes with hshape | hunmapped | ⟨r, rfl, rfl⟩
  · simp [serve, hshape]
  · simp [serve, hunmapped]
  · obtain rfl := (bad_read_offset r).1 h
    simp [serve, at_offset, State.readReg]

theorem serve_of_bad_write {off : BitVec 12} {bytes : ℕ} {v : Word} (s : State)
    (h : (HostAccess.write off bytes v).bad = true) : serve (.write off bytes v) s = s.badAccess none := by
  rcases access_cases off bytes with hshape | hunmapped | ⟨r, rfl, rfl⟩
  · simp [serve, hshape]
  · simp [serve, hunmapped]
  · rcases (bad_write_offset r v).1 h with rfl | rfl | ⟨l, rfl⟩ <;> simp [serve, at_offset]

/-! ## Operands -/

theorem getElem_set_lane (xs : Vector Word 4) (l k : Lane) (v : Word) :
    (xs.set l.val v)[k.val] = if k = l then v else xs[k.val] := by
  rw [Vector.getElem_set]
  simp only [← Fin.ext_iff, eq_comm (a := l)]

theorem State.opaOf_setOpa (s : State) (l k : Lane) (v : Word) :
    (s.setOpa l v).opaOf k = if k = l then v else s.opaOf k := getElem_set_lane s.opa l k v

theorem State.opbOf_setOpb (s : State) (l k : Lane) (v : Word) :
    (s.setOpb l v).opbOf k = if k = l then v else s.opbOf k := getElem_set_lane s.opb l k v

/-! ## The statements -/

/-- Settles O8: the list of R484 is the accesses for which `serve` finds no register to read or write. -/
theorem badAccessEffects : Obligations.BadAccessEffects := by
  intro s a rest hbus hbad
  rw [step_eq_serve hbus]
  cases a with
  | read off bytes => rw [serve_of_bad_read _ hbad, State.badAccess_eq_withErr, HostAccess.badReply]
  | write off bytes v => rw [serve_of_bad_write _ hbad, State.badAccess_eq_withErr, HostAccess.badReply]

/-- Settles O9: each offset named is that of a register with a value to read. -/
theorem readsReturnRegisters : Obligations.ReadsReturnRegisters := by
  intro s rest
  have step_read (r : HostReg) {v : Word} (hread : State.readReg { s with bus := rest } r = some v)
      (hbus : s.bus = .read r.offset 4 :: rest) : step s = .next { s with bus := rest, reply := some v } := by
    rw [step_eq_serve hbus, serve_read_offset r _ hread]
  exact ⟨step_read .status rfl, step_read .id rfl, fun l => step_read (.opa l) rfl, fun l => step_read (.opb l) rfl,
    fun l => step_read (.res l) rfl⟩

/-- Settles O10: the next state is the one `setOpa` or `setOpb` gives. -/
theorem operandWritesStore : Obligations.OperandWritesStore := by
  intro s rest l v
  constructor
  · intro hbus
    exact ⟨_, (step_eq_serve hbus).trans (serve_write_opa l v _), rfl, fun k => State.opaOf_setOpa _ l k v⟩
  · intro hbus
    exact ⟨_, (step_eq_serve hbus).trans (serve_write_opb l v _), rfl, fun k => State.opbOf_setOpb _ l k v⟩

end Sys2Proof.Machine
end

section
/-! PROOFS. The command word and its command (30_encoding.md R140 to R160): what the decoder answers on a word, by its OP,
its reserved bits and its fields, and the round trips of the encoder. -/

namespace Sys2Proof

/-! ## What the decoder answers -/

theorem Opcode.ofCode_eq_none (c : BitVec 6) : Opcode.ofCode c = none ↔ c.toNat ∈ Machine.illegalOps := by
  revert c; decide

theorem decode_of_unlisted {w : Word} (h : Opcode.ofCode (opField w) = none) : decode w = .rejected .illegalOp := by
  simp only [decode, h]

theorem decode_of_reserved {w : Word} {op : Opcode} (hop : opField w = op.code) (hres : w &&& op.format.resvMask ≠ 0) :
    decode w = .rejected .reservedBits := by
  simp only [decode, (Opcode.ofCode_eq_some _ op).2 hop.symm, if_pos hres]

/-- A word with a listed OP and no reserved bit set is decided by its fields. -/
theorem decode_of_fields {w : Word} {op : Opcode} (hop : opField w = op.code) (hres : w &&& op.format.resvMask = 0) :
    decode w = (((decodeFields w op).filter Instr.wellFormed).map Decoded.command).getD (.rejected .badField) := by
  simp only [decode, (Opcode.ofCode_eq_some _ op).2 hop.symm, if_neg (not_not.2 hres)]
  cases decodeFields w op with
  | none => rfl
  | some i => cases h : i.wellFormed <;> simp [Option.filter, h]

/-- Such a word decodes to the well-formed command that its fields name. -/
theorem decode_eq_command_of_fields {w : Word} {op : Opcode} (hop : opField w = op.code)
    (hres : w &&& op.format.resvMask = 0) (i : Instr) :
    decode w = .command i ↔ decodeFields w op = some i ∧ i.WellFormed := by
  rw [decode_of_fields hop hres, ← Option.filter_eq_some_iff]
  cases (decodeFields w op).filter Instr.wellFormed <;> simp

/-- What stands behind a word that decodes to a command: the checks it has passed. -/
theorem decode_eq_command {w : Word} {i : Instr} (h : decode w = .command i) :
    ∃ op : Opcode, opField w = op.code ∧ w &&& op.format.resvMask = 0 ∧ decodeFields w op = some i ∧ i.WellFormed := by
  cases hcode : Opcode.ofCode (opField w) with
  | none => cases (decode_of_unlisted hcode).symm.trans h
  | some op =>
    have hop := ((Opcode.ofCode_eq_some _ op).1 hcode).symm
    by_cases hres : w &&& op.format.resvMask = 0
    · exact ⟨op, hop, hres, (decode_eq_command_of_fields hop hres i).1 h⟩
    · cases (decode_of_reserved hop hres).symm.trans h

/-! ## From a command to its word and back -/

theorem carriesOpcode (i : Instr) : Laws.CarriesOpcode.Statement i := by
  cases i with
  | nop => exact Laws.CarriesOpcode.nop
  | rstAll => exact Laws.CarriesOpcode.rstAll
  | rstOsc b m => exact Laws.CarriesOpcode.rstOsc b m
  | rstDec b m d => exact Laws.CarriesOpcode.rstDec b m d
  | rstFlt b m => exact Laws.CarriesOpcode.rstFlt b m
  | rstSat b m => exact Laws.CarriesOpcode.rstSat b m
  | wrParam b m p => exact Laws.CarriesOpcode.wrParam b m p
  | rdParam b m p => exact Laws.CarriesOpcode.rdParam b m p
  | wrGlobal g => exact Laws.CarriesOpcode.wrGlobal g
  | rdGlobal g => exact Laws.CarriesOpcode.rdGlobal g
  | rdState b m sid idx => exact Laws.CarriesOpcode.rdState b m sid idx
  | paAdd b m a => exact Laws.CarriesOpcode.paAdd b m a
  | paLoad b m a => exact Laws.CarriesOpcode.paLoad b m a
  | blepIns b m k => exact Laws.CarriesOpcode.blepIns b m k
  | blepProc b m => exact Laws.CarriesOpcode.blepProc b m
  | sat b m => exact Laws.CarriesOpcode.sat b m
  | decWr b m d idx => exact Laws.CarriesOpcode.decWr b m d idx
  | decProc b m d n => exact Laws.CarriesOpcode.decProc b m d n
  | oscTick b m v => exact Laws.CarriesOpcode.oscTick b m v
  | fltTick b m k => exact Laws.CarriesOpcode.fltTick b m k

/-- The fields of a command's word name the command: each field holds the code that `encode` put there, and the code
tables are read backwards. -/
theorem decodeFields_encode (i : Instr) : decodeFields (encode i) i.opcode = some i := by
  cases i with
  | nop | rstAll => rfl
  | rstOsc b m | rstFlt b m | rstSat b m | blepProc b m | sat b m => simp [Instr.opcode, decodeFields, encode]
  | rstDec b m d => simp [Instr.opcode, decodeFields, encode, selField_commandWord, (DecSel.ofCode_eq_some _ d).2]
  | wrParam b m p | rdParam b m p =>
    simp [Instr.opcode, decodeFields, encode, idField_commandWord, (ParamId.ofCode_eq_some _ p).2]
  | wrGlobal g | rdGlobal g =>
    simp [Instr.opcode, decodeFields, encode, idField_commandWord, (GlobalId.ofCode_eq_some _ g).2]
  | rdState b m sid idx =>
    simp [Instr.opcode, decodeFields, encode, sidField_commandWord, stateIdxField_commandWord,
      (StateId.ofCode_eq_some _ sid).2]
  | paAdd b m a | paLoad b m a =>
    simp [Instr.opcode, decodeFields, encode, selField_commandWord, (AccSel.ofCode_eq_some _ a).2]
  | blepIns b m k =>
    simp [Instr.opcode, decodeFields, encode, bitField_commandWord, (BlepKind.ofCode_eq_some _ k).2]
  | decWr b m d idx =>
    simp [Instr.opcode, decodeFields, encode, selField_inputWord, inputIdxField_commandWord,
      (DecInst.ofCode_eq_some _ d).2]
  | decProc b m d n =>
    simp [Instr.opcode, decodeFields, encode, selField_rateWord, log2nField_commandWord,
      (DecInst.ofCode_eq_some _ d).2]
  | oscTick b m v =>
    simp [Instr.opcode, decodeFields, encode, bitField_commandWord, (OscVariant.ofCode_eq_some _ v).2]
  | fltTick b m k =>
    simp [Instr.opcode, decodeFields, encode, methField_commandWord, (OdeMethod.ofCode_eq_some _ k).2]

/-- Settles O1: the word carries the command's opcode and fields and no reserved bit. -/
theorem decodeOfEncode : Obligations.DecodeOfEncode := by
  intro i hwf
  obtain ⟨hop, hres⟩ := carriesOpcode i
  exact (decode_eq_command_of_fields hop hres i).2 ⟨decodeFields_encode i, hwf⟩

/-! ## From a word to its command and back -/

/-- A field all of whose bits are reserved is zero. -/
theorem extractLsb'_of_reserved {w mask : Word} (h : w &&& mask = 0) (k n : ℕ)
    (hmask : ∀ i < n, mask.getLsbD (k + i) = true) : w.extractLsb' k n = 0#n := by
  refine BitVec.eq_of_getLsbD_eq fun i hi => ?_
  have hbit := congrArg (BitVec.getLsbD · (k + i)) h
  simpa [hi, hmask i hi] using hbit

/-- A word is OP, B and M over the 20 bits that its format lays out (R141). -/
theorem commandWord_of_fields {w : Word} {op : Opcode} {low : BitVec 20} (hop : opField w = op.code)
    (hlow : low = w.extractLsb' 0 20) : commandWord op (batchField w) (maskField w) low = w := by
  have hbatch : BitVec.ofFin (w := 2) (batchField w) = w.extractLsb' 24 2 := rfl
  rw [commandWord, hbatch, hlow, ← hop, opField, maskField,
    BitVec.extractLsb'_append_extractLsb'_eq_extractLsb' (by rfl),
    BitVec.extractLsb'_append_extractLsb'_eq_extractLsb' (by rfl),
    BitVec.extractLsb'_append_extractLsb'_eq_extractLsb' (by rfl)]
  exact BitVec.extractLsb'_eq_self

section Formats

variable {w : Word}

/-- The formats without a lane mask have B and M reserved (R144). -/
theorem batch_mask_of_reserved {mask : Word} (h : w &&& mask = 0) (hmask : ∀ i < 6, mask.getLsbD (20 + i) = true) :
    batchField w = 0 ∧ maskField w = 0 := by
  constructor
  · rw [batchField, extractLsb'_of_reserved h 24 2 fun i hi => ?_]
    · rfl
    · have hbit := hmask (4 + i) (by omega)
      rwa [← Nat.add_assoc] at hbit
  · exact extractLsb'_of_reserved h 20 4 fun i hi => hmask i (by omega)

/-- Formats N and L. -/
theorem low_of_none {mask : Word} (h : w &&& mask = 0) (hmask : ∀ i < 20, mask.getLsbD (0 + i) = true) :
    (0 : BitVec 20) = w.extractLsb' 0 20 := (extractLsb'_of_reserved h 0 20 hmask).symm

/-- Formats A and D. -/
theorem low_of_sel (h : w &&& 0x3FFFF = 0) : selField w ++ 0#18 = w.extractLsb' 0 20 := by
  rw [← extractLsb'_of_reserved h 0 18 (by decide)]
  exact BitVec.extractLsb'_append_extractLsb'_eq_extractLsb' rfl

/-- Formats P and G. -/
theorem low_of_id {mask : Word} (h : w &&& mask = 0) (hmask : ∀ i < 12, mask.getLsbD (8 + i) = true) :
    0#12 ++ idField w = w.extractLsb' 0 20 := by
  rw [← extractLsb'_of_reserved h 8 12 hmask]
  exact BitVec.extractLsb'_append_extractLsb'_eq_extractLsb' rfl

/-- Format S, which has no reserved bit. -/
theorem low_of_sid (w : Word) : sidField w ++ stateIdxField w = w.extractLsb' 0 20 :=
  BitVec.extractLsb'_append_extractLsb'_eq_extractLsb' rfl

/-- Formats K and T1. -/
theorem low_of_bit (h : w &&& 0xFFFFE = 0) : 0#19 ++ bitField w = w.extractLsb' 0 20 := by
  rw [← extractLsb'_of_reserved h 1 19 (by decide)]
  exact BitVec.extractLsb'_append_extractLsb'_eq_extractLsb' rfl

/-- Format T2. -/
theorem low_of_meth (h : w &&& 0xFFFFC = 0) : 0#18 ++ methField w = w.extractLsb' 0 20 := by
  rw [← extractLsb'_of_reserved h 2 18 (by decide)]
  exact BitVec.extractLsb'_append_extractLsb'_eq_extractLsb' rfl

/-- Format W. -/
theorem low_of_inputIdx (h : w &&& 0x3FC00 = 0) : selField w ++ 0#8 ++ inputIdxField w = w.extractLsb' 0 20 := by
  rw [← extractLsb'_of_reserved h 10 8 (by decide), selField,
    BitVec.extractLsb'_append_extractLsb'_eq_extractLsb' (by rfl)]
  exact BitVec.extractLsb'_append_extractLsb'_eq_extractLsb' rfl

/-- Format X. -/
theorem low_of_log2n (h : w &&& 0x3FFF0 = 0) : selField w ++ 0#14 ++ log2nField w = w.extractLsb' 0 20 := by
  rw [← extractLsb'_of_reserved h 4 14 (by decide), selField,
    BitVec.extractLsb'_append_extractLsb'_eq_extractLsb' (by rfl)]
  exact BitVec.extractLsb'_append_extractLsb'_eq_extractLsb' rfl

end Formats

/-- The command that the fields of a word name has that word: OP, B, M and the fields of the format stand in it as they
were read, and the reserved bits are zero in both. -/
theorem encode_of_decodeFields {w : Word} {op : Opcode} {i : Instr} (hop : opField w = op.code)
    (hres : w &&& op.format.resvMask = 0) (h : decodeFields w op = some i) : encode i = w := by
  cases op with
  | nop | rstAll =>
    obtain rfl := Option.some.inj h
    obtain ⟨hb, hm⟩ := batch_mask_of_reserved hres (by decide)
    rw [encode, ← hb, ← hm]
    exact commandWord_of_fields hop (low_of_none hres (by decide))
  | rstOsc | rstFlt | rstSat | blepProc | sat =>
    obtain rfl := Option.some.inj h
    exact commandWord_of_fields hop (low_of_none hres (by decide))
  | rstDec =>
    obtain ⟨d, hd, rfl⟩ := Option.map_eq_some_iff.1 h
    rw [encode, (DecSel.ofCode_eq_some _ d).1 hd]
    exact commandWord_of_fields hop (low_of_sel hres)
  | wrParam | rdParam =>
    obtain ⟨p, hp, rfl⟩ := Option.map_eq_some_iff.1 h
    rw [encode, (ParamId.ofCode_eq_some _ p).1 hp]
    exact commandWord_of_fields hop (low_of_id hres (by decide))
  | wrGlobal | rdGlobal =>
    obtain ⟨g, hg, rfl⟩ := Option.map_eq_some_iff.1 h
    obtain ⟨hb, hm⟩ := batch_mask_of_reserved hres (by decide)
    rw [encode, (GlobalId.ofCode_eq_some _ g).1 hg, ← hb, ← hm]
    exact commandWord_of_fields hop (low_of_id hres (by decide))
  | rdState =>
    obtain ⟨sid, hsid, rfl⟩ := Option.map_eq_some_iff.1 h
    rw [encode, (StateId.ofCode_eq_some _ sid).1 hsid]
    exact commandWord_of_fields hop (low_of_sid w)
  | paAdd | paLoad =>
    obtain ⟨a, ha, rfl⟩ := Option.map_eq_some_iff.1 h
    rw [encode, (AccSel.ofCode_eq_some _ a).1 ha]
    exact commandWord_of_fields hop (low_of_sel hres)
  | blepIns =>
    obtain ⟨k, hk, rfl⟩ := Option.map_eq_some_iff.1 h
    rw [encode, (BlepKind.ofCode_eq_some _ k).1 hk]
    exact commandWord_of_fields hop (low_of_bit hres)
  | decWr =>
    obtain ⟨d, hd, rfl⟩ := Option.map_eq_some_iff.1 h
    rw [encode, (DecInst.ofCode_eq_some _ d).1 hd]
    exact commandWord_of_fields hop (low_of_inputIdx hres)
  | decProc =>
    obtain ⟨d, hd, rfl⟩ := Option.map_eq_some_iff.1 h
    rw [encode, (DecInst.ofCode_eq_some _ d).1 hd]
    exact commandWord_of_fields hop (low_of_log2n hres)
  | oscTick =>
    obtain ⟨v, hv, rfl⟩ := Option.map_eq_some_iff.1 h
    rw [encode, (OscVariant.ofCode_eq_some _ v).1 hv]
    exact commandWord_of_fields hop (low_of_bit hres)
  | fltTick =>
    obtain ⟨k, hk, rfl⟩ := Option.map_eq_some_iff.1 h
    rw [encode, (OdeMethod.ofCode_eq_some _ k).1 hk]
    exact commandWord_of_fields hop (low_of_meth hres)

/-- Settles O2: the word has passed the checks of R140, and its fields with its reserved bits are the whole of it. -/
theorem encodeOfDecode : Obligations.EncodeOfDecode := by
  intro w i h
  obtain ⟨op, hop, hres, hfields, hwf⟩ := decode_eq_command h
  exact ⟨hwf, encode_of_decodeFields hop hres hfields⟩

/-- Settles O3: each word is decoded by evaluation. -/
theorem sampleWordsDecode : Obligations.SampleWordsDecode := by
  unfold Obligations.SampleWordsDecode
  decide

end Sys2Proof
end

section
/-! PROOFS. The checks of a command word (30_encoding.md R140, R159 to R161): which words and which operands are rejected,
with which code, and that nothing but STATUS.ERR changes then. -/

namespace Sys2Proof.Machine

/-! ## The checks of a command on the state -/

/-- The error of the first check that a command fails on the operands, the globals and the configuration (R140, R154,
R160, R161). -/
def State.check (s : State) : Instr → Option ErrorCode
  | .wrParam _ m pid => if anyLane m (fun l => !paramValueLegal pid (s.opaOf l)) then some .badValue else none
  | .wrGlobal .osrLog2 => if 10 < (s.opaOf 0).toNat then some .badValue else none
  | .wrGlobal .id => some .badField
  | .rdState _ _ sid idx => if stateSize s.cfg sid ≤ idx.toNat then some .badField else none
  | .decProc _ _ _ log2n =>
    if 10 < log2n.toNat then some .badField else if log2n.toNat ≠ s.glob.osr then some .osrMismatch else none
  | .fltTick b m _ => if anyLane m (fun l => (s.channel b l).par.bandpassOnOnePole) then some .badValue else none
  | _ => none

/-- How a command ends by the answer of its checks: rejected with that error, or completed. -/
inductive EndsBy (s : State) : Option ErrorCode → Host.Outcome State Fault Refusal → Prop
  | rejected (e : ErrorCode) : EndsBy s (some e) (.next (s.raise e))
  | completed {t : State} (herr : t.status.err = 0) : EndsBy s none (.next t)

/-- A check that rejects, before the rest of a command. -/
theorem EndsBy.check {s : State} {p : Prop} [Decidable p] {e : ErrorCode} {c : Option ErrorCode}
    {o : Host.Outcome State Fault Refusal} (h : ¬ p → EndsBy s c o) :
    EndsBy s (if p then some e else c) (if p then .next (s.raise e) else o) := by
  split
  · exact .rejected e
  · next hp => exact h hp

theorem exec_endsBy_check (i : Instr) (s : State) : EndsBy s (s.check i) (exec i s) := by
  cases i with
  | wrParam | rdState | fltTick => exact .check fun _ => .completed rfl
  | decProc => exact .check fun _ => .check fun _ => .completed rfl
  | wrGlobal gid =>
    cases gid with
    | osrLog2 => exact .check fun _ => .completed rfl
    | id => exact .rejected .badField
    | fs | fmin | fmax => exact .completed rfl
  | _ => exact .completed rfl

theorem exec_of_check {i : Instr} {s : State} {e : ErrorCode} (h : s.check i = some e) :
    exec i s = .next (s.withErr e.code) := by
  have hends := exec_endsBy_check i s
  rw [h] at hends
  generalize exec i s = o at hends
  cases hends with
  | rejected => rfl

theorem errorCode_ne_zero (e : ErrorCode) : e.code ≠ 0 := by cases e <;> decide

theorem errorCode_inj {e e' : ErrorCode} : e.code = e'.code ↔ e = e' := by
  cases e <;> cases e' <;> decide

/-- A command ends with an error code just when its checks answer that error. -/
theorem exec_err_iff {i : Instr} {s t : State} (h : exec i s = .next t) (e : ErrorCode) :
    t.status.err = e.code ↔ s.check i = some e := by
  have hends := exec_endsBy_check i s
  rw [h] at hends
  generalize s.check i = c at hends
  cases hends with
  | rejected e' => simpa using errorCode_inj
  | completed herr => simpa [herr] using (errorCode_ne_zero e).symm

theorem exists_exec_err_iff (i : Instr) (s : State) (e : ErrorCode) :
    (∃ t, exec i s = .next t ∧ t.status.err = e.code) ↔ s.check i = some e := by
  constructor
  · rintro ⟨t, ht, herr⟩
    exact (exec_err_iff ht e).1 herr
  · intro h
    exact ⟨_, exec_of_check h, rfl⟩

/-! ## Rejected words (R159) -/

theorem executeCommand_rejected {w : Word} {e : ErrorCode} (s : State) (h : decode w = .rejected e) :
    executeCommand w s = .next (s.withErr e.code) := by
  simp only [executeCommand, h, State.raise_eq_withErr]

theorem executeCommand_command {w : Word} {i : Instr} (s : State) (h : decode w = .command i) :
    executeCommand w s = exec i s := by
  simp only [executeCommand, h]

theorem decode_eq_illegalOp_iff (w : Word) : decode w = .rejected .illegalOp ↔ (opField w).toNat ∈ illegalOps := by
  rw [← Opcode.ofCode_eq_none]
  refine ⟨fun h => ?_, decode_of_unlisted⟩
  by_contra hne
  obtain ⟨op, hcode⟩ := Option.ne_none_iff_exists'.1 hne
  have hop := ((Opcode.ofCode_eq_some _ op).1 hcode).symm
  by_cases hres : w &&& op.format.resvMask = 0
  · rw [decode_of_fields hop hres] at h
    cases hf : (decodeFields w op).filter Instr.wellFormed <;> simp [hf] at h
  · cases (decode_of_reserved hop hres).symm.trans h

/-- Settles O4: the decoder looks at OP first and then at the reserved bits, and a rejected word writes STATUS.ERR. -/
theorem illegalAndReservedEncodings : Obligations.IllegalAndReservedEncodings :=
  ⟨decode_eq_illegalOp_iff, rfl, fun _ _ hop hres => decode_of_reserved hop hres,
    fun _ s h => executeCommand_rejected s h, fun _ s h => executeCommand_rejected s h⟩

/-! ## Words with bad fields (R160) -/

/-- A word with a listed OP and no reserved bit set is BAD_FIELD when every command that its fields name is ill formed or
fails a check with that error; its fields name one command at most. -/
theorem executeCommand_badField_iff {w : Word} {op : Opcode} (s : State) (hop : opField w = op.code)
    (hres : w &&& op.format.resvMask = 0) :
    (∃ t, executeCommand w s = .next t ∧ t.status.err = 3) ↔
      ∀ i, decodeFields w op = some i → i.WellFormed → s.check i = some .badField := by
  simp only [← and_imp, ← decode_eq_command_of_fields hop hres]
  cases hw : decode w with
  | command i =>
    simp only [executeCommand_command s hw, Decoded.command.injEq, forall_eq']
    exact exists_exec_err_iff i s .badField
  | rejected e =>
    have he : e = .badField := by
      rw [decode_of_fields hop hres] at hw
      cases hf : (decodeFields w op).filter Instr.wellFormed with
      | none => simpa [hf] using hw.symm
      | some i => simp [hf] at hw
    simp [executeCommand_rejected s hw, he, State.withErr, ErrorCode.code]

/-! ### Code tables -/

section Tables

variable {α : Type} {s : State}

/-- Formats with a code table: the word is bad where the code names nothing, or names something bad. -/
theorem named_bad_iff {o : Option α} {g : α → Instr} (bad : α → Bool)
    (hbad : ∀ a, ((g a).WellFormed → s.check (g a) = some .badField) ↔ bad a = true) :
    (∀ i, o.map g = some i → i.WellFormed → s.check i = some .badField) ↔ o.all bad = true := by
  cases o with
  | none => simp
  | some a => simpa using hbad a

/-- Formats whose commands are well formed and not checked for BAD_FIELD: the word is bad where the code names nothing. -/
theorem unnamed_bad_iff {o : Option α} {g : α → Instr} (hwf : ∀ a, (g a).WellFormed)
    (hcheck : ∀ a, s.check (g a) ≠ some .badField) :
    (∀ i, o.map g = some i → i.WellFormed → s.check i = some .badField) ↔ o = none := by
  cases o with
  | none => simp
  | some a => simpa using ⟨hwf a, hcheck a⟩

end Tables

theorem ParamId.ofCode_eq_none (c : BitVec 8) :
    ParamId.ofCode c = none ↔ ¬ (c.toNat ≤ 0x09 ∨ (0x10 ≤ c.toNat ∧ c.toNat ≤ 0x14)) := by
  revert c; decide

theorem GlobalId.ofCode_eq_none (c : BitVec 8) :
    GlobalId.ofCode c = none ↔ ¬ (c.toNat ≤ 0x03 ∨ c.toNat = 0x08) := by
  revert c; decide

theorem GlobalId.readOnly_ofCode (c : BitVec 8) :
    (GlobalId.ofCode c).all (· == .id) = true ↔ ¬ c.toNat ≤ 0x03 := by
  revert c; decide

theorem AccSel.ofCode_eq_none (c : BitVec 2) : AccSel.ofCode c = none ↔ c.toNat = 3 := by
  revert c; decide

theorem DecSel.ofCode_eq_none (c : BitVec 2) : DecSel.ofCode c = none ↔ c.toNat = 3 := by
  revert c; decide

theorem OdeMethod.ofCode_eq_none (c : BitVec 2) : OdeMethod.ofCode c = none ↔ c.toNat = 3 := by
  revert c; decide

theorem BlepKind.ofCode_eq_none (c : BitVec 1) : BlepKind.ofCode c = none ↔ False := by
  revert c; decide

theorem OscVariant.ofCode_eq_none (c : BitVec 1) : OscVariant.ofCode c = none ↔ False := by
  revert c; decide

theorem DecInst.ofCode_eq_none (c : BitVec 2) : DecInst.ofCode c = none ↔ 2 ≤ c.toNat := by
  revert c; decide

theorem DecInst.all_ofCode (c : BitVec 2) (p : Prop) [Decidable p] :
    (DecInst.ofCode c).all (fun _ => p) = true ↔ 2 ≤ c.toNat ∨ p := by
  rw [← DecInst.ofCode_eq_none]
  cases DecInst.ofCode c <;> simp

/-! ### Items of the state -/

theorem StateId.ranges_of_unnamed (c : BitVec 8) (h : StateId.ofCode c = none) :
    ¬ c.toNat ≤ 0x06 ∧ c.toNat ≠ 0x07 ∧ ¬ c.toNat ≤ 0x09 ∧ ¬ (c.toNat = 0x10 ∨ c.toNat = 0x11)
      ∧ ¬ (0x40 ≤ c.toNat ∧ c.toNat ≤ 0x49) ∧ ¬ (0x50 ≤ c.toNat ∧ c.toNat ≤ 0x59)
      ∧ ¬ (0x60 ≤ c.toNat ∧ c.toNat ≤ 0x69) ∧ ¬ (0x70 ≤ c.toNat ∧ c.toNat ≤ 0x79) := by
  revert c; decide

/-- The table of R77 gives an item's size under its SID. -/
theorem itemCount_code (cfg : Configuration) (sid : StateId) : itemCount cfg sid.code.toNat = stateSize cfg sid := by
  cases sid with
  | input i => cases i <;> rfl
  | ring i j => cases i <;> fin_cases j <;> rfl
  | index i j => cases i <;> fin_cases j <;> rfl
  | _ => rfl

theorem itemCount_of_unnamed (cfg : Configuration) {c : BitVec 8} (h : StateId.ofCode c = none) :
    itemCount cfg c.toNat = 0 := by
  obtain ⟨h1, h2, h3, h4, h5, h6, h7, h8⟩ := StateId.ranges_of_unnamed c h
  rw [itemCount, if_neg h1, if_neg h2, if_neg h3, if_neg h4, if_neg h5, if_neg h6, if_neg h7, if_neg h8]

theorem StateId.outside_ofCode (cfg : Configuration) (c : BitVec 8) (idx : ℕ) :
    (StateId.ofCode c).all (fun sid => stateSize cfg sid ≤ idx) = true ↔ itemCount cfg c.toNat ≤ idx := by
  cases h : StateId.ofCode c with
  | none => simp [itemCount_of_unnamed cfg h]
  | some sid => simp [← (StateId.ofCode_eq_some c sid).1 h, itemCount_code]

/-- No item of a well-formed configuration is larger than what the decoder admits (entry 10). -/
theorem stateSize_le_maxSize {cfg : Configuration} (hcfg : configWellFormed cfg = true) (sid : StateId) :
    stateSize cfg sid ≤ sid.maxSize := by
  cases sid with
  | ring i j =>
    obtain ⟨k, hk, hsize⟩ := ringSize_pow cfg j.val hcfg j.isLt
    calc ringSize cfg j.val = 2 ^ k := hsize
      _ ≤ 2 ^ 7 := Nat.pow_le_pow_right (by decide) hk
  | _ => exact le_rfl

/-! ### Opcode by opcode -/

theorem check_decProc_badField_iff (b : Batch) (m : LaneMask) (inst : DecInst) (log2n : BitVec 4) (s : State) :
    s.check (.decProc b m inst log2n) = some .badField ↔ 10 < log2n.toNat := by
  simp only [State.check]
  split_ifs with hmax <;> simp [hmax]

/-- A field value of R160 stands in the word just when the decoder or the command's check finds it, opcode by opcode. -/
theorem fieldsBad_iff {s : State} (hcfg : configWellFormed s.cfg = true) (w : Word) (op : Opcode) :
    (∀ i, decodeFields w op = some i → i.WellFormed → s.check i = some .badField) ↔ fieldsBad s.cfg op w := by
  cases op with
  | nop | rstAll | rstOsc | rstFlt | rstSat | blepProc | sat =>
    simp [decodeFields, fieldsBad, Instr.wellFormed, State.check]
  | rstDec => exact (unnamed_bad_iff (fun _ => rfl) (by simp [State.check])).trans (DecSel.ofCode_eq_none _)
  | wrParam | rdParam => exact (unnamed_bad_iff (fun _ => rfl) (by simp [State.check])).trans (ParamId.ofCode_eq_none _)
  | rdGlobal => exact (unnamed_bad_iff (fun _ => rfl) (by simp [State.check])).trans (GlobalId.ofCode_eq_none _)
  | paAdd | paLoad => exact (unnamed_bad_iff (fun _ => rfl) (by simp [State.check])).trans (AccSel.ofCode_eq_none _)
  | blepIns => exact (unnamed_bad_iff (fun _ => rfl) (by simp [State.check])).trans (BlepKind.ofCode_eq_none _)
  | decWr => exact (unnamed_bad_iff (fun _ => rfl) (by simp [State.check])).trans (DecInst.ofCode_eq_none _)
  | oscTick => exact (unnamed_bad_iff (fun _ => rfl) (by simp [State.check])).trans (OscVariant.ofCode_eq_none _)
  | fltTick => exact (unnamed_bad_iff (fun _ => rfl) (by simp [State.check])).trans (OdeMethod.ofCode_eq_none _)
  | wrGlobal =>
    refine (named_bad_iff (· == .id) fun gid => ?_).trans (GlobalId.readOnly_ofCode _)
    cases gid <;> simp [Instr.wellFormed, State.check]
  | rdState =>
    refine (named_bad_iff _ fun sid => ?_).trans (StateId.outside_ofCode s.cfg _ _)
    have hmax := stateSize_le_maxSize hcfg sid
    simp only [State.check, Instr.WellFormed, Instr.wellFormed, decide_eq_true_eq, Option.ite_none_right_eq_some, and_true]
    omega
  | decProc =>
    refine (named_bad_iff _ fun inst => ?_).trans (DecInst.all_ofCode _ (10 < (log2nField w).toNat))
    rw [check_decProc_badField_iff]
    simp only [Instr.WellFormed, Instr.wellFormed, decide_eq_true_eq]
    omega

/-- Settles O5: the decoder and the command's own check find the values of R160 between them. -/
theorem badFieldValues : Obligations.BadFieldValues := fun w op s hcfg hop hres =>
  (executeCommand_badField_iff s hop hres).trans (fieldsBad_iff hcfg w op)

/-! ## Illegal operand values (R161) -/

theorem paramValueLegal_eq_false_iff (pid : ParamId) (v : Word) :
    paramValueLegal pid v = false ↔ (pid = .topo ∨ pid = .tap) ∧ 2 < v.toNat := by
  cases pid <;> simp [paramValueLegal]

theorem check_wrParam_iff (b : Batch) (m : LaneMask) (pid : ParamId) (s : State) :
    s.check (.wrParam b m pid) = some .badValue ↔
      (pid = .topo ∨ pid = .tap) ∧ ∃ l : Lane, laneBit m l = true ∧ 2 < (s.opaOf l).toNat := by
  simp [State.check, anyLane_eq_true, paramValueLegal_eq_false_iff, and_left_comm]

theorem check_wrGlobal_iff (gid : GlobalId) (s : State) :
    s.check (.wrGlobal gid) = some .badValue ↔ gid = .osrLog2 ∧ 10 < (s.opaOf 0).toNat := by
  cases gid <;> simp [State.check]

theorem check_fltTick_iff (b : Batch) (m : LaneMask) (meth : OdeMethod) (s : State) :
    s.check (.fltTick b m meth) = some .badValue ↔
      ∃ l : Lane, laneBit m l = true ∧ (s.channel b l).par.tap = 2 ∧ (s.channel b l).par.topo = 0 := by
  simp [State.check, anyLane_eq_true, Params.bandpassOnOnePole]

/-- A command ends with BAD_VALUE, and then writes STATUS.ERR alone, just when its check answers so. -/
theorem exec_badValue_iff {i : Instr} {s : State} {bad : Prop} (hbad : s.check i = some .badValue ↔ bad) :
    (bad → exec i s = .next (s.withErr 5)) ∧ ∀ t : State, exec i s = .next t → (t.status.err = 5 ↔ bad) :=
  ⟨fun h => exec_of_check (hbad.2 h), fun _ ht => (exec_err_iff ht .badValue).trans hbad⟩

/-- Settles O26: three commands have a check with the answer BAD_VALUE; no other command's check answers so. -/
theorem illegalOperandValues : Obligations.IllegalOperandValues := by
  intro i s
  cases i with
  | wrParam b m pid => exact exec_badValue_iff (check_wrParam_iff b m pid s)
  | wrGlobal gid => exact exec_badValue_iff (check_wrGlobal_iff gid s)
  | fltTick b m meth => exact exec_badValue_iff (check_fltTick_iff b m meth s)
  | rdState b m sid idx => exact exec_badValue_iff (by simp [State.check])
  | decProc b m inst log2n =>
    refine exec_badValue_iff (iff_false_intro ?_)
    simp only [State.check]
    split_ifs <;> simp
  | _ => exact exec_badValue_iff (by simp [State.check])

end Sys2Proof.Machine
end

section
/-! PROOFS. What a lane command reads and what it leaves alone (30_encoding.md R142, R143), and the step that a command word
starts (R140). -/

namespace Sys2Proof.Machine

/-! ## Batch and mask of a command -/

@[simp] theorem batch?_withMask (i : Instr) (m : LaneMask) : (i.withMask m).batch? = i.batch? := by cases i <;> rfl

@[simp] theorem withMask_withMask (i : Instr) (m m' : LaneMask) : (i.withMask m).withMask m' = i.withMask m' := by
  cases i <;> rfl

section LaneCommands

variable {s t : State} {b : Batch} {m : LaneMask} {i : Instr} {f : Lane → LaneOut}

theorem LaneCommand.batch?_eq (hf : LaneCommand s b m i f) : i.batch? = some b := by cases hf <;> rfl

/-- The mask of the command is the mask it runs on. -/
theorem LaneCommand.mask_eq {m' : LaneMask} (hf : LaneCommand s b m (i.withMask m') f) : m = m' := by
  cases i <;> cases hf <;> rfl

/-- A command with a batch completes on lanes of that batch. -/
theorem Completes.onLanes_of_batch (hc : Completes s i t) (hb : i.batch? = some b) :
    ∃ m f, LaneCommand s b m i f ∧ t = (s.forLanes b m f).complete := by
  cases hc with
  | onLanes hf =>
    obtain rfl := Option.some.inj (hf.batch?_eq.symm.trans hb)
    exact ⟨_, _, hf, rfl⟩
  | _ => cases hb

/-- The same for a command on a given mask. -/
theorem Completes.onMask (hc : Completes s (i.withMask m) t) (hb : i.batch? = some b) :
    ∃ f, LaneCommand s b m (i.withMask m) f ∧ t = (s.forLanes b m f).complete := by
  obtain ⟨m', f, hf, ht⟩ := hc.onLanes_of_batch ((batch?_withMask i m).trans hb)
  obtain rfl := hf.mask_eq
  exact ⟨f, hf, ht⟩

end LaneCommands

/-! ## Lanes are independent (R143) -/

/-- What a command on lane l of batch b reads is the same in both states: the configuration, the globals, the lane, and its
two operands. -/
structure State.SameInputs (s₁ s₂ : State) (b : Batch) (l : Lane) : Prop where
  cfg : s₁.cfg = s₂.cfg
  glob : s₁.glob = s₂.glob
  chan : s₁.channel b l = s₂.channel b l
  opa : s₁.opaOf l = s₂.opaOf l
  opb : s₁.opbOf l = s₂.opbOf l

namespace State.SameInputs

variable {s₁ s₂ : State} {b : Batch} {l : Lane}

theorem sampleA (h : s₁.SameInputs s₂ b l) : s₁.sampleA l = s₂.sampleA l := by
  rw [State.sampleA, State.sampleA, h.opa]

theorem sampleB (h : s₁.SameInputs s₂ b l) : s₁.sampleB l = s₂.sampleB l := by
  rw [State.sampleB, State.sampleB, h.opb]

theorem fractionA (h : s₁.SameInputs s₂ b l) : s₁.fractionA l = s₂.fractionA l := by
  rw [State.fractionA, State.fractionA, h.opa]

theorem incrementA (h : s₁.SameInputs s₂ b l) : s₁.incrementA l = s₂.incrementA l := by
  rw [State.incrementA, State.incrementA, h.opa]

end State.SameInputs

/-- What becomes of a lane depends on what the command reads of it, and on no mask. -/
theorem LaneCommand.eq_of_sameInputs {s₁ s₂ : State} {b : Batch} {m₁ m₂ : LaneMask} {i : Instr} {f₁ f₂ : Lane → LaneOut}
    {l : Lane} (h₁ : LaneCommand s₁ b m₁ i f₁) (h₂ : LaneCommand s₂ b m₂ (i.withMask m₂) f₂)
    (h : s₁.SameInputs s₂ b l) : f₁ l = f₂ l := by
  cases h₁ with
  | rstOsc | rstDec | rstFlt | rstSat | rdParam | rdState => cases h₂; simp only [h.chan]
  | wrParam | paLoad => cases h₂; simp only [h.chan, h.opa]
  | paAdd => cases h₂; simp only [h.chan, h.incrementA]
  | blep | blamp => cases h₂; simp only [h.chan, h.fractionA, h.sampleB]
  | blepProc | sat | decWr => cases h₂; simp only [h.chan, h.sampleA]
  | decProc | oscTick => cases h₂; simp only [h.cfg, h.glob, h.chan]
  | fltTick => cases h₂; simp only [h.cfg, h.glob, h.chan, h.sampleA]

/-- A command that leaves the code 0 was not rejected. -/
theorem completes_of_err_eq_zero {i : Instr} {s t : State} (h : exec i s = .next t) (herr : t.status.err = 0) :
    Completes s i t := by
  rcases exec_inversion h with ⟨e, rfl⟩ | hc
  · cases e <;> simp [ErrorCode.code] at herr
  · exact hc

/-- With no lane selected a command completes on the state as it was (R143). -/
theorem exec_no_lane {i : Instr} {b : Batch} {s t : State} (hb : i.batch? = some b) (h : exec (i.withMask 0) s = .next t) :
    t = s.withErr t.status.err := by
  rcases exec_inversion h with ⟨e, rfl⟩ | hc
  · rfl
  · obtain ⟨f, -, rfl⟩ := hc.onMask hb
    rw [s.forLanes_none b f]
    rfl

/-- Settles O58: both commands complete on their masks, and what becomes of the lane is the same outcome, written over the
same RES and flag bits. -/
theorem lanesAreIndependent : Obligations.LanesAreIndependent := by
  refine ⟨fun i b m₁ m₂ l s₁ s₂ t₁ t₂ hb hm₁ hm₂ hcfg hglob hchan hopa hopb hres hwrap hsynced he₁ he₂ herr₁ herr₂ => ?_,
    fun i b s t hb h => exec_no_lane hb h⟩
  obtain ⟨f₁, hf₁, rfl⟩ := (completes_of_err_eq_zero he₁ herr₁).onMask hb
  obtain ⟨f₂, hf₂, rfl⟩ := (completes_of_err_eq_zero he₂ herr₂).onMask hb
  have hout : f₁ l = f₂ l := hf₁.eq_of_sameInputs ((withMask_withMask i m₁ m₂).symm ▸ hf₂) ⟨hcfg, hglob, hchan, hopa, hopb⟩
  refine ⟨?_, ?_, ?_, ?_⟩
  · rw [State.channel_selected _ _ _ _ l hm₁, State.channel_selected _ _ _ _ l hm₂, hout]
  · rw [State.resOf_selected _ _ _ _ l hm₁, State.resOf_selected _ _ _ _ l hm₂, hout, hres]
  · rw [State.wrap_selected _ _ _ _ l hm₁, State.wrap_selected _ _ _ _ l hm₂, hout, hwrap]
  · rw [State.synced_selected _ _ _ _ l hm₁, State.synced_selected _ _ _ _ l hm₂, hout, hsynced]

/-! ## A command stays in its batch (R142) -/

/-- What no command writes (10_state.md R41, R76; 20_memory.md R103). -/
theorem exec_keeps {i : Instr} {s t : State} (h : exec i s = .next t) :
    t.cfg = s.cfg ∧ t.opa = s.opa ∧ t.opb = s.opb ∧ t.bus = s.bus ∧ t.reply = s.reply := by
  rcases exec_inversion h with ⟨e, rfl⟩ | hc
  · exact ⟨rfl, rfl, rfl, rfl, rfl⟩
  · cases hc with
    | onLanes hf => simp
    | _ => exact ⟨rfl, rfl, rfl, rfl, rfl⟩

/-- A command with a batch keeps the globals and the lanes of the other batches. -/
theorem exec_other_batches {i : Instr} {b : Batch} {s t : State} (h : exec i s = .next t) (hb : i.batch? = some b) :
    t.glob = s.glob ∧ ∀ (b' : Batch) (l : Lane), b' ≠ b → t.channel b' l = s.channel b' l := by
  rcases exec_inversion h with ⟨e, rfl⟩ | hc
  · exact ⟨rfl, fun _ _ _ => rfl⟩
  · obtain ⟨m, f, -, rfl⟩ := hc.onLanes_of_batch hb
    obtain ⟨-, -, -, hglob, -, -, hlanes, -⟩ := s.onlyLanes_forLanes b m f
    exact ⟨hglob, fun b' l hne => hlanes b' l fun hsel => hne hsel.1⟩

/-- Settles O59: a rejection writes STATUS.ERR, and a command with a batch completes on lanes of that batch. -/
theorem commandsStayInTheirBatch : Obligations.CommandsStayInTheirBatch := by
  intro i s t h
  obtain ⟨hcfg, hopa, hopb, hbus, hreply⟩ := exec_keeps h
  exact ⟨hcfg, hopa, hopb, hbus, hreply, fun b hb => exec_other_batches h hb⟩

/-! ## A step on a command word (R140) -/

theorem serve_write_cmd (w : Word) (s : State) : serve (.write 0x000 4 w) s = executeCommand w { s with reply := none } :=
  rfl

theorem step_write_cmd {s : State} {w : Word} {rest : List HostAccess} (h : s.bus = .write 0x000 4 w :: rest) :
    step s = executeCommand w { s with bus := rest, reply := none } := by
  rw [step_eq_serve h, serve_write_cmd]

/-- Settles O6: the access is a write of CMD, and the word passes the checks of the decoder. -/
theorem stepRunsDecodedCommand : Obligations.StepRunsDecodedCommand := by
  intro s w i rest hbus hw
  rw [step_write_cmd hbus, executeCommand_command _ hw]

/-- Settles O7: the access is a write of CMD, and the word is rejected before any command runs. -/
theorem stepOfRejectedWord : Obligations.StepOfRejectedWord := by
  intro s w e rest hbus hw
  rw [step_write_cmd hbus, executeCommand_rejected _ hw]

end Sys2Proof.Machine
end

section
/-! PROOFS. The control commands (40_control.md R200 to R211): the resets, and the setters and readback of the parameter
file, the globals and the dynamic state. -/

namespace Sys2Proof.Machine

/-! ## The rewritten lane, the stored entry and the item read -/

theorem Channel.zeroOsc_eq (c : Channel) :
    c.zeroOsc = { c with p1 := 0, p2 := 0, ps := 0, c0 := 0, c1 := 0, dly := 0, rdly := 0 } := rfl

theorem Channel.zeroFlt_eq (c : Channel) : c.zeroFlt = { c with x := #v[0, 0, 0, 0], prev := 0 } := rfl

theorem Channel.zeroSat_eq (c : Channel) : c.zeroSat = { c with xp := 0 } := rfl

theorem Channel.zeroSel_eq (c : Channel) (dsel : DecSel) :
    c.zeroSel dsel = { c with
      osc := if dsel = .flt then c.osc else Decimator.zero
      flt := if dsel = .osc then c.flt else Decimator.zero } := by
  cases dsel <;> rfl

/-- The parameter file is all that R201 keeps of a lane. -/
theorem Channel.zeroDynamic_eq (c : Channel) : c.zeroDynamic = { Channel.zero with par := c.par } := rfl

/-- A flag stores bit 0 (10_state.md R57), every other entry the raw word (R56). -/
theorem storedParam_eq (pid : ParamId) (v : Word) :
    storedParam pid v = if pid = .sync ∨ pid = .saten then (if v.getLsbD 0 then 1 else 0) else v := by
  have hbit : v &&& 1 = if v.getLsbD 0 then 1 else 0 :=
    BitVec.and_one_eq_setWidth_ofBool_getLsbD.trans (by cases v.getLsbD 0 <;> rfl)
  cases pid with
  | sync | saten => exact hbit
  | _ => rfl

theorem Params.read_put_stored (p : Params) (pid k : ParamId) (v : Word) :
    (p.put (storedParam pid v) pid).read k =
      if k ≠ pid then p.read k
      else if pid = .sync ∨ pid = .saten then (if v.getLsbD 0 then 1 else 0)
      else v := by
  split
  · next hne => exact p.read_put_ne _ pid k hne
  · next heq => rw [not_not.1 heq, Params.read_put, storedParam_eq]

theorem Channel.item_ring (c : Channel) (inst : DecInst) (j : Fin 10) (idx : ℕ) :
    c.item (.ring inst j) idx = (c.dec inst).stages[j.val].buf.read idx :=
  congrArg (fun st : Stage => st.buf.read idx) (Decimator.stage_eq_getElem _ _ j.isLt)

theorem Channel.item_index (c : Channel) (inst : DecInst) (j : Fin 10) (idx : ℕ) :
    c.item (.index inst j) idx = (c.dec inst).stages[j.val].w :=
  congrArg Stage.w (Decimator.stage_eq_getElem _ _ j.isLt)

/-! ## Commands whose checks pass -/

theorem exec_wrParam_of_legal {b : Batch} {m : LaneMask} {pid : ParamId} {s : State}
    (hv : pid = .topo ∨ pid = .tap → ∀ l : Lane, laneBit m l = true → (s.opaOf l).toNat ≤ 2) :
    exec (.wrParam b m pid) s = .next (s.forLanes b m fun l =>
      { chan := { s.channel b l with
          par := (s.channel b l).par.put (storedParam pid (s.opaOf l)) pid } }).complete := by
  have hpass : ¬ anyLane m (fun l => !paramValueLegal pid (s.opaOf l)) = true := by
    simp only [anyLane_eq_true, Bool.not_eq_true', paramValueLegal_eq_false_iff]
    rintro ⟨l, hl, hpid, hbig⟩
    exact hbig.not_ge (hv hpid l hl)
  exact if_neg hpass

theorem exec_wrGlobal_osrLog2_of_le {s : State} (hv : (s.opaOf 0).toNat ≤ 10) :
    exec (.wrGlobal .osrLog2) s = .next (s.setOsr (s.opaOf 0)).complete := if_neg hv.not_gt

theorem exec_rdState_of_lt {b : Batch} {m : LaneMask} {sid : StateId} {idx : BitVec 12} {s : State}
    (h : idx.toNat < stateSize s.cfg sid) :
    exec (.rdState b m sid idx) s = .next (s.forLanes b m fun l =>
      { chan := s.channel b l, res := some ((s.channel b l).item sid idx.toNat) }).complete := if_neg h.not_ge

/-! ## Commands on a lane mask

The commands of this family either rewrite the selected lanes and return nothing, or return a word of each and leave it
as it is; the frame (R206) is the same for all of each kind. -/

section LaneMask

variable {i : Instr} {b : Batch} {m : LaneMask} {s : State}

theorem rewrites_lanes {g : Lane → Channel}
    (h : exec i s = .next (s.forLanes b m fun l => { chan := g l }).complete) :
    ∃ t, exec i s = .next t ∧ s.OnlyLanes t b m ∧ s.StatusOk t ∧ s.ResKept t
      ∧ ∀ l : Lane, laneBit m l = true → t.channel b l = g l :=
  ⟨_, h, s.onlyLanes_forLanes b m _, s.statusOk_forLanes b m _ (fun _ => rfl) (fun _ => rfl),
    s.resKept_forLanes b m _ (fun _ => rfl), s.channel_selected b m _⟩

theorem returns_words {r : Lane → Word}
    (h : exec i s = .next (s.forLanes b m fun l => { chan := s.channel b l, res := some (r l) }).complete) :
    ∃ t, exec i s = .next t ∧ s.OnlyLanes t b m ∧ s.StatusOk t
      ∧ ∀ l : Lane, laneBit m l = true → t.channel b l = s.channel b l ∧ t.resOf l = r l :=
  ⟨_, h, s.onlyLanes_forLanes b m _, s.statusOk_forLanes b m _ (fun _ => rfl) (fun _ => rfl),
    fun l hl => ⟨s.channel_selected b m _ l hl, s.resOf_selected b m _ l hl⟩⟩

end LaneMask

/-! ## NOP and the resets -/

/-- Settles O15: NOP completes, and does nothing before. -/
theorem nopClearsErr : Obligations.NopClearsErr := fun s => congrArg Host.Outcome.next s.complete_eq_withErr

/-- Settles O16: every lane becomes a zero lane with its parameter file, and STATUS is zero. -/
theorem rstAllZeroesDynamicState : Obligations.RstAllZeroesDynamicState := by
  refine fun s => ⟨_, rfl, fun b l => ?_, rfl, rfl, rfl, rfl, rfl, rfl, rfl, rfl, rfl, rfl⟩
  rw [← Channel.zeroDynamic_eq]
  exact s.channel_mapChannels _ b l

/-- Settles O17: RST_OSC rewrites each selected lane by `zeroOsc`. -/
theorem rstOscZeroesOscillator : Obligations.RstOscZeroesOscillator := by
  intro b m s
  simp only [← Channel.zeroOsc_eq]
  exact rewrites_lanes rfl

/-- Settles O18: RST_DEC rewrites each selected lane by `zeroSel`. -/
theorem rstDecZeroesInstances : Obligations.RstDecZeroesInstances := by
  intro b m dsel s
  simp only [← Channel.zeroSel_eq]
  exact rewrites_lanes rfl

/-- Settles O19: RST_FLT rewrites each selected lane by `zeroFlt`. -/
theorem rstFltZeroesFilter : Obligations.RstFltZeroesFilter := by
  intro b m s
  simp only [← Channel.zeroFlt_eq]
  exact rewrites_lanes rfl

/-- Settles O20: RST_SAT rewrites each selected lane by `zeroSat`. -/
theorem rstSatZeroesShaper : Obligations.RstSatZeroesShaper := by
  intro b m s
  simp only [← Channel.zeroSat_eq]
  exact rewrites_lanes rfl

/-! ## Parameters -/

/-- Settles O21: legal values pass the check of R58, and each selected lane is rewritten with one entry stored. -/
theorem wrParamStoresEntry : Obligations.WrParamStoresEntry := by
  intro b m pid s hv
  obtain ⟨t, ht, honly, hstatus, hres, hlanes⟩ := rewrites_lanes (exec_wrParam_of_legal (b := b) hv)
  refine ⟨t, ht, honly, hstatus, hres, fun l hl => ?_⟩
  rw [hlanes l hl]
  exact ⟨rfl, fun k => Params.read_put_stored _ pid k _⟩

/-- Settles O22: RD_PARAM returns the entry and has no check. -/
theorem rdParamReturnsEntry : Obligations.RdParamReturnsEntry := fun _ _ _ _ => returns_words rfl

/-! ## Globals -/

/-- Settles O23: FS, FMIN and FMAX have no check; an OSR_LOG2 of at most 10 passes its own, and `setOsr` zeroes both
decimators of every lane. -/
theorem wrGlobalStoresRegister : Obligations.WrGlobalStoresRegister := by
  refine fun s => ⟨rfl, rfl, rfl, fun hv => ⟨_, exec_wrGlobal_osrLog2_of_le hv, rfl, fun b l => ?_⟩⟩
  calc (s.setOsr (s.opaOf 0)).complete.channel b l
      = (s.channel b l).zeroSel .both := s.channel_mapChannels _ b l
    _ = { s.channel b l with osc := Decimator.zero, flt := Decimator.zero } := Channel.zeroSel_eq _ .both

/-- Settles O24: RD_GLOBAL writes RES[0] by `setRes`, with what `Globals.read` answers. -/
theorem rdGlobalReturnsRegister : Obligations.RdGlobalReturnsRegister := by
  refine fun gid s => ⟨_, rfl, rfl, fun l hl => ?_, ?_⟩
  · rw [State.resOf_complete, State.resOf_setRes, if_neg hl]
  · rw [State.resOf_complete, State.resOf_setRes, if_pos rfl]
    cases gid <;> rfl

/-! ## Dynamic state -/

/-- Settles O25: an IDX in the range passes the check and RD_STATE returns the item; one outside it is rejected. -/
theorem rdStateReturnsItem : Obligations.RdStateReturnsItem := by
  refine fun b m sid idx s => ⟨fun hin => ?_, fun hout => exec_of_check (e := .badField) (if_pos hout)⟩
  obtain ⟨t, ht, honly, hstatus, hlanes⟩ := returns_words (exec_rdState_of_lt (b := b) (m := m) hin)
  refine ⟨t, ht, honly, hstatus, fun l hl => ?_⟩
  obtain ⟨hchan, hres⟩ := hlanes l hl
  refine ⟨hchan, hres.trans ?_⟩
  cases sid with
  | input inst => cases inst <;> rfl
  | ring inst j =>
    rw [Channel.item_ring]
    cases inst <;> rfl
  | index inst j =>
    rw [Channel.item_index]
    cases inst <;> rfl
  | _ => rfl

end Sys2Proof.Machine
end

section
/-! PROOFS. The phase accumulator (41_phase_accumulator.md R250 to R261): one step and many as arithmetic modulo 2^32, the
crossing test as an interval, the bound on an increment, and the two commands. -/

namespace Sys2Proof.Machine

/-! ## One step (R250, R251) -/

@[simp] theorem paStep_new (p inc : Word) : (paStep p inc).new = p + inc := rfl
@[simp] theorem paStep_uOld (p inc : Word) : (paStep p inc).uOld = cyclePos p := rfl
@[simp] theorem paStep_uSum (p inc : Word) : (paStep p inc).uSum = cyclePos p + inc.toNat := rfl

theorem paStep_wrap (p inc : Word) :
    (paStep p inc).wrap = (decide (0 ≤ p.toInt) && decide ((p + inc).toInt < 0)) := wrapTest_eq p (p + inc)

theorem cyclePos_lt (p : Word) : cyclePos p < 2 ^ 32 := (p ^^^ 0x80000000#32).isLt

/-- The wrap test on unsigned values: from the lower half of the words to the upper. -/
theorem wrapTest_iff (a b : Word) : wrapTest a b = true ↔ a.toNat < 2 ^ 31 ∧ 2 ^ 31 ≤ b.toNat := by
  simp [wrapTest, BitVec.msb_eq_decide]

/-- Below half a cycle the wrap is the carry of the cycle position out of 32 bits. -/
theorem paStep_wrap_iff_carry (p : Word) {inc : Word} (hinc : inc.toNat < 2 ^ 31) :
    (paStep p inc).wrap = true ↔ 2 ^ 32 ≤ cyclePos p + inc.toNat := by
  have hp := p.isLt
  have hwrap : (paStep p inc).wrap = true ↔ p.toNat < 2 ^ 31 ∧ 2 ^ 31 ≤ (p + inc).toNat := wrapTest_iff p (p + inc)
  rw [hwrap, BitVec.toNat_add, cyclePos_eq]
  omega

/-- Settles O27: the sum, the flip of the sign and the cycle position, and the carry they amount to. -/
theorem phaseStepWrapsModulo : Obligations.PhaseStepWrapsModulo := fun p inc =>
  ⟨BitVec.toNat_add p inc, paStep_wrap p inc, cyclePos_toInt p, rfl, paStep_wrap_iff_carry p⟩

/-! ## Many steps (R256) -/

theorem paStep_iterate_toNat (p d : Word) (n : ℕ) :
    ((fun p => (paStep p d).new)^[n] p).toNat = (p.toNat + n * d.toNat) % 2 ^ 32 := by
  induction n with
  | zero => simpa using (Nat.mod_eq_of_lt p.isLt).symm
  | succ n ih =>
    rw [Function.iterate_succ_apply', paStep_new, BitVec.toNat_add, ih, Nat.mod_add_mod, Nat.succ_mul, Nat.add_assoc]

/-- Settles O28: the general law, and a whole number of cycles as one case of it. -/
theorem phaseClosure : Obligations.PhaseClosure := by
  refine fun p d => ⟨paStep_iterate_toNat p d, fun _ _ hdvd => BitVec.eq_of_toNat_eq ?_⟩
  rw [paStep_iterate_toNat, Nat.div_mul_cancel hdvd, Nat.add_mod_right, Nat.mod_eq_of_lt p.isLt]

/-! ## The crossing test (R254, R255) -/

theorem crossing_ne_none_iff (t : PhaseStep) (inc : Word) (q : ℕ) :
    crossing t inc q ≠ none ↔
      (t.uOld < q ∧ q ≤ t.uSum) ∨ (t.uOld < q + 2 ^ 32 ∧ q + 2 ^ 32 ≤ t.uSum) := by
  rw [crossing]
  split_ifs with hnear hfar
  · exact iff_of_true (Option.some_ne_none _) (.inl hnear)
  · exact iff_of_true (Option.some_ne_none _) (.inr hfar)
  · exact iff_of_false (not_not.2 rfl) (not_or.2 ⟨hnear, hfar⟩)

/-- The fraction at the position that the step reaches with `j` of its length left. -/
theorem crossing_eq_some {t : PhaseStep} {inc : Word} {q j : ℕ} (hold : t.uOld < 2 ^ 32) (hinc : inc.toNat < 2 ^ 31)
    (hsum : t.uSum = t.uOld + inc.toNat) (hj : j < inc.toNat) (hq : (t.uOld + (inc.toNat - j)) % 2 ^ 32 = q) :
    crossing t inc q = some (fdiv (i2f j) (i2f inc.toNat)) := by
  rw [crossing]
  split_ifs with hnear hfar
  · rw [show (t.uSum : ℤ) - q = j by omega]
  · rw [show (t.uSum : ℤ) - (q + 2 ^ 32 : ℕ) = j by omega]
  · omega

/-- A step below half a cycle crosses the positions of its half-open interval. -/
theorem crossing_paStep_ne_none_iff (p : Word) {inc : Word} {q : ℕ} (hinc : inc.toNat < 2 ^ 31) (hq : q < 2 ^ 32) :
    crossing (paStep p inc) inc q ≠ none ↔ ∃ j, 0 < j ∧ j ≤ inc.toNat ∧ (cyclePos p + j) % 2 ^ 32 = q := by
  have hpos := cyclePos_lt p
  rw [crossing_ne_none_iff, paStep_uOld, paStep_uSum]
  constructor
  · rintro (⟨hlt, hle⟩ | ⟨hlt, hle⟩)
    · exact ⟨q - cyclePos p, by omega, by omega, by omega⟩
    · exact ⟨q + 2 ^ 32 - cyclePos p, by omega, by omega, by omega⟩
  · rintro ⟨j, hj, hle, hmod⟩
    omega

/-- The event at Q = 0 is the wrap. -/
theorem crossing_zero_ne_none_iff (p : Word) {inc : Word} (hinc : inc.toNat < 2 ^ 31) :
    crossing (paStep p inc) inc 0 ≠ none ↔ (paStep p inc).wrap = true := by
  have hpos := cyclePos_lt p
  rw [crossing_ne_none_iff, paStep_wrap_iff_carry p hinc, paStep_uOld, paStep_uSum]
  omega

/-- Settles O29: the two candidates of the test are the two ways a position lies in the interval modulo 2^32. -/
theorem eventCrossingInterval : Obligations.EventCrossingInterval := fun p _ _ hinc hq =>
  ⟨crossing_paStep_ne_none_iff p hinc hq, fun _ hj hmod => crossing_eq_some (cyclePos_lt p) hinc rfl hj hmod,
    crossing_zero_ne_none_iff p hinc⟩

/-! ## Increments (R252, R253, R257) -/

theorem incMax_lt (l : ℕ) : incMax l < 2 ^ 31 :=
  (Nat.sub_lt (Nat.two_pow_pos _) Nat.one_pos).trans_le (Nat.pow_le_pow_right two_pos (Nat.sub_le 31 l))

theorem increment_le (g : Globals) (f : F32) : (increment g f).toNat ≤ incMax g.osr :=
  ofInt_f2uSat_le _ _ (incMax_lt g.osr)

theorem modulated_le (g : Globals) (par : Params) (wave1 : F32) :
    ((oscTickValues g par).modulated wave1).toNat ≤ incMax g.osr :=
  ofInt_f2uSat_le _ _ (incMax_lt g.osr)

theorem subIncrement_le (inc : Word) : (subIncrement inc).toNat ≤ inc.toNat := by
  rw [subIncrement, BitVec.toNat_ushiftRight]
  exact Nat.shiftRight_le _ _

/-- The substeps of a tick advance a phase by less than half a cycle. -/
theorem tick_advance_lt {l inc : ℕ} (hl : l ≤ 31) (hinc : inc ≤ incMax l) : inc * 2 ^ l < 2 ^ 31 := by
  have htop : inc < 2 ^ (31 - l) := Nat.lt_of_le_pred (Nat.two_pow_pos _) hinc
  calc inc * 2 ^ l
      < 2 ^ (31 - l) * 2 ^ l := Nat.mul_lt_mul_of_pos_right htop (Nat.two_pow_pos l)
    _ = 2 ^ 31 := by rw [← Nat.pow_add, Nat.sub_add_cancel hl]

/-- Settles O30: each increment saturates at INC_MAX(L), or is half of one that does. -/
theorem incrementBound : Obligations.IncrementBound := by
  refine ⟨fun _ _ => rfl, fun g par wave1 hosr => ⟨rfl, rfl, rfl, ?_⟩⟩
  have hinc1 := increment_le g par.freq1
  exact ⟨hinc1, increment_le g par.freq2, (subIncrement_le _).trans hinc1, modulated_le g par wave1,
    tick_advance_lt (hosr.trans (by decide)) hinc1⟩

/-! ## The commands (R260, R261) -/

/-- A negative operand is an increment of 0. -/
theorem State.incrementA_eq (s : State) (l : Lane) :
    s.incrementA l = if (s.opaOf l).toInt < 0 then 0 else s.opaOf l := by
  simp [State.incrementA, msb_eq_toInt_neg]

/-- Settles O31: PA_ADD has no check; a selected lane takes one step of its accumulator. -/
theorem paAddAdvancesAccumulator : Obligations.PaAddAdvancesAccumulator := by
  refine fun b m a s => ⟨_, rfl, s.onlyLanes_forLanes b m _, rfl, s.synced_forLanes b m _ fun _ => rfl,
    s.wrapOnly_forLanes b m _, fun l hl => ?_⟩
  rw [s.channel_selected b m _ l hl, s.resOf_selected b m _ l hl, s.wrap_selected b m _ l hl, ← s.incrementA_eq l]
  cases a <;> exact ⟨rfl, rfl, paStep_wrap _ _⟩

/-- Settles O32: PA_LOAD rewrites one accumulator of each selected lane by `setAcc`. -/
theorem paLoadStoresPhase : Obligations.PaLoadStoresPhase := by
  intro b m a s
  obtain ⟨t, ht, honly, hstatus, hres, hlanes⟩ :=
    rewrites_lanes (s := s) (b := b) (m := m) (i := .paLoad b m a)
      (g := fun l => (s.channel b l).setAcc (s.opaOf l) a) rfl
  refine ⟨t, ht, honly, hstatus, hres, fun l hl => (hlanes l hl).trans ?_⟩
  cases a <;> rfl

end Sys2Proof.Machine
end

section
/-! PROOFS. The decimator (42_decimator.md R280 to R294): the size of a ring and its slots, one stage over a block, the
silent cascade, and the commands DEC_WR and DEC_PROC. -/

namespace Sys2Proof.Machine

/-! ## Rings (R282, R286) -/

/-- Settles O36: the law of `ringSizeOfOrder` at the order of the stage, and stage 0's order is 22. -/
theorem ringSizes : Obligations.RingSizes := by
  intro cfg j hcfg hj
  obtain ⟨k, -, hpow⟩ := ringSize_pow cfg j hcfg hj
  obtain ⟨hlarge, hleast⟩ := ringSizeOfOrder_bounds (order cfg j) (order_bounds cfg j hcfg hj).1
  have hfirst : ringSizeOfOrder 22 = 128 := by decide
  exact ⟨⟨k, hpow⟩, hlarge, hleast, hfirst⟩

/-- Seen from the write index after a push, slot n of the ring is one nearer than before it. -/
theorem tapSlot_after_push {size n : ℕ} (w : ℕ) (hn : n < size) :
    ((w + 1) % size + size - 1 - n) % size = (w + size - n) % size := by
  calc ((w + 1) % size + size - 1 - n) % size
      = ((w + 1) % size + (size - 1 - n)) % size := by congr 1; omega
    _ = (w + 1 + (size - 1 - n)) % size := Nat.mod_add_mod _ _ _
    _ = (w + size - n) % size := by congr 1; omega

/-- A slot from 1 to size − 1 places before the write index is another slot. -/
theorem tapSlot_ne_index {size n w : ℕ} (hn : n + 1 < size) (hw : w < size) : (w + size - 1 - n) % size ≠ w := by
  by_cases hwrap : w < n + 1
  · rw [Nat.mod_eq_of_lt (by omega)]
    omega
  · rw [show w + size - 1 - n = w - (n + 1) + size by omega, Nat.add_mod_right, Nat.mod_eq_of_lt (by omega)]
    omega

section Ring

variable {k : ℕ} {st : Stage} (x : F32)

theorem Stage.push_read (size : ℕ) (hwf : st.buf.wf = true) (i : ℕ) :
    (st.push size x).buf.read i = if i = st.w.toNat then x else st.buf.read i :=
  Memory.read_write _ _ _ _ hwf

/-- The slot that X(n) reads after a push. -/
theorem Stage.tap_push (hk : k ≤ 31) (hw : st.w.toNat < 2 ^ k) {n : ℕ} (hn : n < 2 ^ k) :
    (st.push (2 ^ k) x).tap (2 ^ k) n = (st.push (2 ^ k) x).buf.read ((st.w.toNat + 2 ^ k - n) % 2 ^ k) := by
  rw [Stage.tap_eq k hk _ _ hn, Stage.push_w k hk st x hw, tapSlot_after_push _ hn]

/-- X(0) is the sample pushed last. -/
theorem Stage.tap_push_zero (hk : k ≤ 31) (hwf : st.buf.wf = true) (hw : st.w.toNat < 2 ^ k) :
    (st.push (2 ^ k) x).tap (2 ^ k) 0 = x := by
  rw [Stage.tap_push x hk hw (Nat.two_pow_pos k), Nat.sub_zero, Nat.add_mod_right, Nat.mod_eq_of_lt hw,
    Stage.push_read x _ hwf, if_pos rfl]

/-- A push makes every sample of the ring but the oldest one push older. -/
theorem Stage.tap_push_succ (hk : k ≤ 31) (hwf : st.buf.wf = true) (hw : st.w.toNat < 2 ^ k) {n : ℕ}
    (hn : n + 1 < 2 ^ k) : (st.push (2 ^ k) x).tap (2 ^ k) (n + 1) = st.tap (2 ^ k) n := by
  rw [Stage.tap_push x hk hw hn, Stage.tap_eq k hk st n (by omega), Nat.sub_add_eq, Nat.sub_right_comm,
    Stage.push_read x _ hwf, if_neg (tapSlot_ne_index hn hw)]

end Ring

/-- Settles O37: the rules of the ring for a legal stage. -/
theorem pushThenTap : Obligations.PushThenTap := by
  intro k st x hk hlegal
  simp only [Stage.legal, Bool.and_eq_true, decide_eq_true_eq] at hlegal
  obtain ⟨⟨hwf, -⟩, hw⟩ := hlegal
  have hk : k ≤ 31 := by omega
  exact ⟨Stage.push_read x _ hwf, Stage.push_w k hk st x hw, Stage.tap_eq k hk st, Stage.tap_push_zero x hk hwf hw,
    fun _ => Stage.tap_push_succ x hk hwf hw⟩

/-! ## One stage over a block (R287, R290) -/

/-- Two more samples are one more pair. -/
theorem pairs_cons_cons (x y : F32) (v : List F32) : (x :: y :: v).length / 2 = v.length / 2 + 1 :=
  Nat.add_div_right _ two_pos

/-- A stage is left with every pair of the block pushed. -/
theorem halve_stage (cfg : Configuration) (j : ℕ) :
    ∀ (v : List F32) (st : Stage),
      (halve cfg j v st).2 = (v.take (2 * (v.length / 2))).foldl (Stage.push (ringSize cfg j)) st
  | [], _ => rfl
  | [_], _ => by simp [halve]
  | x :: y :: rest, st => by
    rw [pairs_cons_cons, Nat.mul_succ]
    exact halve_stage cfg j rest _

/-- Output m of a stage is the convolution after the samples 0 to 2m + 1 were pushed. -/
theorem halve_output (cfg : Configuration) (j : ℕ) :
    ∀ (v : List F32) (st : Stage) (m : ℕ), m < v.length / 2 →
      (halve cfg j v st).1[m]? = some (((v.take (2 * m + 2)).foldl (Stage.push (ringSize cfg j)) st).conv cfg j)
  | [], _, _, h => absurd h (Nat.not_lt_zero _)
  | [_], _, _, h => absurd h (by simp)
  | _ :: _ :: _, _, 0, _ => rfl
  | x :: y :: rest, st, m + 1, h => by
    rw [pairs_cons_cons, Nat.succ_lt_succ_iff] at h
    exact halve_output cfg j rest _ m h

/-- Settles O38: `Stage.conv` is the formula of R287, and `halve` recurs over the pairs of the block. -/
theorem stageHalvesRate : Obligations.StageHalvesRate := fun cfg j v st =>
  ⟨halve_length cfg j v st, halve_output cfg j v st, halve_stage cfg j v st⟩

/-! ## Silence (R294) -/

/-- A finite coefficient times +0.0 is a zero of either sign. -/
theorem fmul_plusZero {c : F32} (hc : isFinite c = true) : fmul c 0 = fZero (fSign c) := by
  rw [fmul_of_isFinite hc (by decide), show fMant 0 = 0 by decide, Nat.mul_zero, fRound, if_pos rfl,
    show fSign 0 = false by decide, Bool.bne_false]

/-- A zero of either sign added to +0.0 leaves +0.0. -/
theorem fadd_plusZero_fZero (neg : Bool) : fadd 0 (fZero neg) = 0 := by cases neg <;> decide

/-- A term of the convolution adds nothing to +0.0 when the ring is silent. -/
theorem convTerm_silent (size k : ℕ) {c : ℕ → F32} (hc : ∀ i, isFinite (c i) = true) {st : Stage}
    (h : st.buf = Memory.empty) (i : ℕ) : convTerm size k c st 0 i = 0 := by
  have hpair : fadd (0 : F32) 0 = 0 := by decide
  rw [convTerm, Stage.tap_silent size st h, Stage.tap_silent size st h, hpair, fmul_plusZero (hc i), fadd_plusZero_fZero]

theorem Stage.conv_silent {cfg : Configuration} {j : ℕ} (hc : ∀ i, isFinite (coef cfg j i) = true) {st : Stage}
    (h : st.buf = Memory.empty) : st.conv cfg j = 0 := by
  have hcentre : fmul fHalf 0 = 0 := by decide
  rw [Stage.conv, Stage.tap_silent _ st h, hcentre]
  exact List.foldl_fixed' (convTerm_silent _ _ hc h) _

/-- A block holds +0.0 only. -/
def SilentBlock (v : List F32) : Prop := ∀ x ∈ v, x = 0

theorem silentBlock_cons {x : F32} {v : List F32} : SilentBlock (x :: v) ↔ x = 0 ∧ SilentBlock v :=
  List.forall_mem_cons

theorem SilentBlock.headD {v : List F32} (h : SilentBlock v) : v.headD 0 = 0 := by
  cases v with
  | nil => rfl
  | cons x v => exact (silentBlock_cons.1 h).1

/-- A silent stage halves a silent block into a silent one and stays silent. -/
theorem halve_silent {cfg : Configuration} {j : ℕ} (hc : ∀ i, isFinite (coef cfg j i) = true) :
    ∀ {v : List F32} {st : Stage}, SilentBlock v → st.buf = Memory.empty →
      SilentBlock (halve cfg j v st).1 ∧ (halve cfg j v st).2.buf = Memory.empty
  | [], _, _, h => ⟨List.forall_mem_nil _, h⟩
  | [_], _, _, h => ⟨List.forall_mem_nil _, h⟩
  | x :: y :: rest, st, hv, h => by
    obtain ⟨rfl, rfl, hrest⟩ : x = 0 ∧ y = 0 ∧ SilentBlock rest := by simpa only [silentBlock_cons] using hv
    have hpush := Stage.push_silent (ringSize cfg j) _ (Stage.push_silent (ringSize cfg j) st h)
    obtain ⟨hout, hbuf⟩ := halve_silent hc hrest hpush
    exact ⟨silentBlock_cons.2 ⟨Stage.conv_silent hc hpush, hout⟩, hbuf⟩

theorem Decimator.Silent.setStage {d : Decimator} (h : d.Silent) (j : ℕ) {st : Stage} (hst : st.buf = Memory.empty) :
    (d.setStage j st).Silent := by
  refine ⟨h.1, fun i => ?_⟩
  rw [Decimator.stage_setStage]
  split
  · exact hst
  · exact h.2 i

theorem runStages_silent {cfg : Configuration} (hcfg : configWellFormed cfg = true) {n : ℕ} (hn : n ≤ 10) {v : List F32}
    {d : Decimator} (hv : SilentBlock v) (hd : d.Silent) :
    (runStages cfg n v d).1 = 0 ∧ (runStages cfg n v d).2.Silent := by
  induction n generalizing v d with
  | zero => exact ⟨hv.headD, hd⟩
  | succ j ih =>
    obtain ⟨hout, hbuf⟩ := halve_silent (fun i => coef_finite cfg j i hcfg hn) hv (hd.2 ⟨j, hn⟩)
    exact ih (Nat.le_of_succ_le hn) hout (hd.setStage j hbuf)

theorem Decimator.zero_silent : Decimator.zero.Silent := ⟨rfl, fun j => congrArg Stage.buf (Decimator.zero_stage j)⟩

/-- Settles O39: a silent input array gives a silent block, and every stage keeps the silence. -/
theorem cascadeSilence : Obligations.CascadeSilence := by
  refine ⟨Decimator.zero_silent, fun cfg n d hcfg hn hd => runStages_silent hcfg hn ?_ hd⟩
  rw [hd.1]
  exact List.forall_mem_map.2 fun _ _ => rfl

/-! ## The commands (R291, R292) -/

/-- Settles O40: DEC_WR rewrites the decimator INST names of each selected lane by `writeInput`. -/
theorem decWrStoresSample : Obligations.DecWrStoresSample := by
  intro b m inst idx s
  obtain ⟨t, ht, honly, hstatus, hres, hlanes⟩ :=
    rewrites_lanes (s := s) (b := b) (m := m) (i := .decWr b m inst idx)
      (g := fun l => (s.channel b l).setDec (((s.channel b l).dec inst).writeInput idx.toNat (s.sampleA l)) inst) rfl
  refine ⟨t, ht, honly, hstatus, hres, fun l hl => ?_⟩
  rw [hlanes l hl, Channel.dec_setDec]
  exact ⟨rfl, rfl, fun hwf k => Memory.read_write _ _ k _ hwf⟩

/-- DEC_PROC with a LOG2N that passes both checks. -/
theorem exec_decProc_of_osr {b : Batch} {m : LaneMask} {inst : DecInst} {log2n : BitVec 4} {s : State}
    (hmax : log2n.toNat ≤ 10) (hosr : log2n.toNat = s.glob.osr) :
    exec (.decProc b m inst log2n) s = .next (s.forLanes b m fun l =>
      let r := cascade s.cfg log2n.toNat ((s.channel b l).dec inst)
      { chan := (s.channel b l).setDec r.2 inst, res := some r.1 }).complete := by
  rw [hosr]
  exact (if_neg hmax.not_gt).trans (if_neg (not_not.2 hosr))

/-- The cascade at L as the recursion of R290: the block v(L) is IN[0 .. 2^L − 1], and v(0) is the one sample left. -/
theorem cascade_formula (cfg : Configuration) {n : ℕ} (hn : n ≤ 10) (d : Decimator) :
    ∃ v : ℕ → List F32, v n = (List.range (2 ^ n)).map d.input.read
      ∧ (∀ j < n, (v j, (cascade cfg n d).2.stage j) = halve cfg j (v (j + 1)) (d.stage j) ∧ (v j).length = 2 ^ j)
      ∧ v 0 = [(cascade cfg n d).1] :=
  runStages_formula cfg n hn _ (by rw [List.length_map, List.length_range]) d

/-- Settles O41: DEC_PROC rewrites the decimator INST names of each selected lane by `cascade` and returns its sample. -/
theorem decProcRunsCascade : Obligations.DecProcRunsCascade := by
  refine fun b m inst log2n s hmax hosr => ⟨_, exec_decProc_of_osr hmax hosr, s.onlyLanes_forLanes b m _,
    s.statusOk_forLanes b m _ (fun _ => rfl) (fun _ => rfl), fun l hl => ?_⟩
  rw [s.channel_selected b m _ l hl, s.resOf_selected b m _ l hl]
  simp only [Channel.dec_setDec, Option.getD_some]
  refine ⟨trivial, trivial, cascade_formula s.cfg hmax _, cascade_input _ _ _, cascade_stage _ _ _, fun hzero => ?_⟩
  rw [hzero]
  exact Prod.ext_iff.1 (cascade_zero s.cfg ((s.channel b l).dec inst))

/-- Settles O42: the two checks of DEC_PROC, in the priority of R481. -/
theorem decProcRejectsRate : Obligations.DecProcRejectsRate := fun b m inst log2n s =>
  ⟨fun hbad => exec_of_check ((check_decProc_badField_iff b m inst log2n s).2 hbad),
    fun hmax hne => exec_of_check (e := .osrMismatch) ((if_neg hmax.not_gt).trans (if_pos hne))⟩

end Sys2Proof.Machine
end

section
/-! PROOFS. The BLEP/BLAMP generator (43_blep_blamp.md R321 to R323, R330, R331): the two insertions and the one-sample
delay written out, and the commands BLEP_INS and BLEP_PROC. -/

namespace Sys2Proof.Machine

/-! ## The lane an insertion and the delay leave -/

theorem Channel.blepIns_eq (c : Channel) (d a : F32) :
    c.blepIns d a = { c with
      c0 := fadd c.c0 (fmul a (fmul (fmul d d) 0x3F000000))
      c1 := fsub c.c1 (fmul a (fmul (fmul (fsub 0x3F800000 d) (fsub 0x3F800000 d)) 0x3F000000)) } := rfl

theorem Channel.blampIns_eq (c : Channel) (d a : F32) :
    c.blampIns d a = { c with
      c0 := fadd c.c0 (fmul a (fdiv (fmul (fmul d d) d) 0x40C00000))
      c1 := fadd c.c1 (fmul a (fdiv (fmul (fmul (fsub 0x3F800000 d) (fsub 0x3F800000 d)) (fsub 0x3F800000 d))
        0x40C00000)) } := rfl

theorem Channel.blepShift_eq (c : Channel) (x : F32) : c.blepShift x = { c with c0 := c.c1, c1 := 0, dly := x } := rfl

/-! ## The commands (R330, R331) -/

/-- Commands that rewrite the selected lanes and return a word of each; STATUS.WRAP and STATUS.SYNCED are kept. -/
theorem rewrites_lanes_returning {i : Instr} {b : Batch} {m : LaneMask} {s : State} {g : Lane → Channel}
    {r : Lane → Word} (h : exec i s = .next (s.forLanes b m fun l => { chan := g l, res := some (r l) }).complete) :
    ∃ t, exec i s = .next t ∧ s.OnlyLanes t b m ∧ s.StatusOk t
      ∧ ∀ l : Lane, laneBit m l = true → t.resOf l = r l ∧ t.channel b l = g l :=
  ⟨_, h, s.onlyLanes_forLanes b m _, s.statusOk_forLanes b m _ (fun _ => rfl) (fun _ => rfl),
    fun l hl => ⟨s.resOf_selected b m _ l hl, s.channel_selected b m _ l hl⟩⟩

/-- Settles O33: BLEP_INS has no check; the kind says which of the two insertions rewrites each selected lane. -/
theorem blepInsAddsCorrections : Obligations.BlepInsAddsCorrections := by
  intro b m k s
  cases k with
  | blep =>
    simp only [← Channel.blepIns_eq]
    exact rewrites_lanes rfl
  | blamp =>
    simp only [← Channel.blampIns_eq]
    exact rewrites_lanes rfl

/-- Settles O34: BLEP_PROC rewrites each selected lane by `blepShift` and returns the delayed sample, corrected. -/
theorem blepProcDelaysSample : Obligations.BlepProcDelaysSample := by
  intro b m s
  simp only [← Channel.blepShift_eq]
  exact rewrites_lanes_returning rfl

end Sys2Proof.Machine
end

section
/-! PROOFS. The antialiasing waveshaper (44_waveshaper.md R350 to R352, R360): the two branches of the saturator written
out, and the command SAT. -/

namespace Sys2Proof.Machine

/-! ## The two branches of R352

The spec's functions sat and F are `satFormula` and `satIntegralFormula` of Safety.lean. -/

theorem satIntegral_eq (v : F32) : satIntegral v = satIntegralFormula v := rfl

/-- Away from XP the output is the divided difference of F. -/
theorem adaaOut_of_far {xp x : F32} (h : fgreater (fabs (fsub x xp)) 0x3A800000 = true) :
    adaaOut xp x = fdiv (fsub (satIntegralFormula x) (satIntegralFormula xp)) (fsub x xp) := by
  rw [← satIntegral_eq, ← satIntegral_eq]
  exact if_pos h

/-- Within 2^-10 of XP, where the divided difference would cancel, the output is sat of the midpoint. -/
theorem adaaOut_of_near {xp x : F32} (h : ¬ fgreater (fabs (fsub x xp)) 0x3A800000 = true) :
    adaaOut xp x = satFormula (fmul (fadd x xp) 0x3F000000) := by
  rw [← satFn_eq]
  exact if_neg h

/-! ## The command (R360) -/

/-- Settles O35: SAT has no check; it moves XP of each selected lane to the sanitized operand and returns `adaaOut`, which
is one of the two written-out branches by the distance from XP. -/
theorem satShapesSample : Obligations.SatShapesSample := by
  intro b m s
  obtain ⟨t, hexec, honly, hstatus, hlanes⟩ := rewrites_lanes_returning (i := .sat b m) (s := s) rfl
  refine ⟨t, hexec, honly, hstatus, fun l hl => ?_⟩
  obtain ⟨hres, hchan⟩ := hlanes l hl
  refine ⟨hres.trans ?_, hchan⟩
  split
  · next hfar => exact adaaOut_of_far hfar
  · next hnear => exact adaaOut_of_near hnear

end Sys2Proof.Machine
end

section
/-! PROOFS. The oscillator engine (45_oscillator.md R380 to R397, R400): one tick of a lane from the frame and the formulas
of its substeps, and the tick of one substep, at L = 0, written out in both variants. -/

namespace Sys2Proof.Machine

/-! ## One tick of a lane (R400) -/

/-- A lane that keeps the filter's side differs in the phases, the BLEP state and the OSC decimator at most. -/
theorem Channel.FilterSideKept.eq {c c' : Channel} (h : c.FilterSideKept c') {p1 ps : Word} (hp1 : c'.p1 = p1)
    (hps : c'.ps = ps) :
    c' = { c with p1 := p1, ps := ps, p2 := c'.p2, c0 := c'.c0, c1 := c'.c1, dly := c'.dly, rdly := c'.rdly,
                  osc := c'.osc } := by
  rw [← hp1, ← hps, ← h.par, ← h.x, ← h.prev, ← h.xp, ← h.flt]

/-- The cascade keeps the stages from L on, and its result is that of the IN it leaves over the stages it found. -/
theorem cascade_over_stages (cfg : Configuration) (n : ℕ) {d₀ d : Decimator} (hstages : d.stages = d₀.stages) :
    cascade cfg n d = cascade cfg n { (cascade cfg n d).2 with stages := d₀.stages }
      ∧ ∀ j, n ≤ j → (cascade cfg n d).2.stage j = d₀.stage j := by
  refine ⟨hstages ▸ (cascade_rebuild cfg n d).symm, fun j hj => (cascade_stage cfg n d j hj).trans ?_⟩
  rw [Decimator.stage, Decimator.stage, hstages]

/-- Settles O43: the frame and the flags of a tick are those of its run of substeps, each substep is that of the formulas,
and the cascade, which keeps IN, ends the tick. -/
theorem oscTickAdvancesLanes : Obligations.OscTickAdvancesLanes := by
  refine fun b m v s => ⟨_, rfl, s.onlyLanes_forLanes b m _, rfl, s.wrapOnly_forLanes b m _, s.syncedOnly_forLanes b m _,
    fun l hl => ?_⟩
  rw [s.channel_selected b m _ l hl, s.resOf_selected b m _ l hl, s.wrap_selected b m _ l hl,
    s.synced_selected b m _ l hl]
  generalize s.channel b l = c
  obtain ⟨hkept, hp1, hps, hstages, hin, hblep, hwrap, hsync⟩ :=
    (oscTickValues s.glob c.par).run_spec v s.glob.substeps c
  obtain ⟨hresult, hstage⟩ := cascade_over_stages s.cfg s.glob.osr hstages
  obtain ⟨x, y, hstart, hend, hsteps, hsamples⟩ := OscTick.run_formula s.glob c.par v s.glob.substeps c
  have hread := fun k => congrArg (Memory.read · k)
    (cascade_input s.cfg s.glob.osr ((oscTickValues s.glob c.par).run v s.glob.substeps c).chan.osc)
  have hlane : c.FilterSideKept (oscTickLane s.cfg s.glob v c).chan :=
    ⟨hkept.par, hkept.x, hkept.prev, hkept.xp, hkept.flt⟩
  simp only [wrapTest_eq, Bool.and_eq_true, decide_eq_true_eq] at hwrap
  refine ⟨hlane.eq hp1 hps, fun hv => ?_, hwrap, hsync, hresult, hstage, fun hwf k hk => ?_, x, y, hstart, ?_, hsteps,
    fun hwf k hk => ?_⟩
  · exact ⟨(hblep hv).c0, (hblep hv).c1, (hblep hv).dly, (hblep hv).rdly⟩
  · exact (hread k).trans ((hin hwf).2 k hk)
  · exact congrArg (fun u : Channel => { u with osc := (oscTickLane s.cfg s.glob v c).chan.osc }) hend
  · exact (hread k).trans (hsamples hwf k hk)

/-! ## The tick of one substep (L = 0) -/

/-- At L = 0 a tick is one substep, and the cascade returns its sample. -/
theorem oscTick_one_substep (b : Batch) (m : LaneMask) (v : OscVariant) {s : State} {l : Lane}
    (hosr : s.glob.osrLog2 = 0) (hl : laneBit m l = true) (hwf : (s.channel b l).osc.input.wf = true) :
    ∃ t x, exec (.oscTick b m v) s = .next t ∧ OscSubstep s.glob (s.channel b l).par v (s.channel b l) x (t.resOf l)
      ∧ t.channel b l = { x with osc := (t.channel b l).osc } := by
  obtain ⟨t, hexec, -, -, -, -, hlanes⟩ := oscTickAdvancesLanes b m v s
  obtain ⟨-, -, -, -, hresult, -, -, x, y, hstart, hend, hsteps, hsamples⟩ := hlanes l hl
  rw [hosr] at hresult hend hsteps hsamples
  have hres : t.resOf l = y 0 := (congrArg Prod.fst (hresult.trans (cascade_zero _ _))).trans (hsamples hwf 0 one_pos)
  refine ⟨t, x 1, hexec, ?_, hend⟩
  rw [hres]
  simpa only [hstart] using hsteps 0 one_pos

/-- INC_MAX(0). -/
theorem incMaxFormula_zero {g : Globals} (h : g.osrLog2 = 0) : incMaxFormula g = 2 ^ 31 - 1 := by
  rw [incMaxFormula, h]
  rfl

/-! ## The values of one substep, written out (R386 to R388) -/

/-- The sync of oscillator 1 by the signs of its phase before and after the substep (R387). -/
theorem oscFormulas_synced (g : Globals) (par : Params) (c : Channel) :
    (oscFormulas g par c).synced = (par.sync.getLsbD 0 && decide (0 ≤ c.p1.toInt)
      && decide ((c.p1 + increment g par.freq1).toInt < 0)) := by
  rw [Bool.and_assoc, ← paStep_wrap]
  rfl

/-- d1 of R387 in integers. -/
theorem oscFormulas_d1 (g : Globals) (par : Params) (c : Channel) :
    (oscFormulas g par c).d1 = fdiv
      (i2f ((c.p1 ^^^ 0x80000000).toNat + (increment g par.freq1).toNat - 2 ^ 32 : ℤ))
      (i2f (increment g par.freq1).toNat) := by
  rw [← Nat.cast_add]
  rfl

theorem oscFormulas_inc2 {g : Globals} (hosr : g.osrLog2 = 0) (par : Params) (c : Channel) :
    (oscFormulas g par c).inc2 = BitVec.ofInt 32 (f2uSat (fmul (i2f (increment g par.freq2).toNat)
      (fadd 0x3F800000 (fmul (unitParam par.fmamt) (waveFormula par (c.p1 + increment g par.freq1)))))
      0 (2 ^ 31 - 1)) := by
  rw [← incMaxFormula_zero hosr]
  rfl

theorem oscFormulas_p2 {g : Globals} (hosr : g.osrLog2 = 0) (par : Params) (c : Channel) :
    (oscFormulas g par c).p2 = if (oscFormulas g par c).synced then
        BitVec.ofInt 32 (f2uSat (fmul (oscFormulas g par c).d1 (i2f (oscFormulas g par c).inc2.toNat)) 0 (2 ^ 31 - 1))
      else c.p2 + (oscFormulas g par c).inc2 := by
  rw [← incMaxFormula_zero hosr]
  rfl

theorem oscFormulas_lin (g : Globals) (par : Params) (c : Channel) :
    (oscFormulas g par c).lin = fadd (fadd
        (fmul (unitParam par.volsub)
          (if (0 : ℤ) ≤ (c.ps + increment g par.freq1 >>> 1).toInt then 0x3F800000 else 0xBF800000 : F32))
        (fmul (unitParam par.vol1) (waveFormula par (c.p1 + increment g par.freq1))))
      (fmul (unitParam par.vol2) (waveFormula par (oscFormulas g par c).p2)) := by
  simp only [oscFormulas, paStep_new]
  rfl

theorem oscFormulas_ring (g : Globals) (par : Params) (c : Channel) :
    (oscFormulas g par c).ring = fmul (unitParam par.volring)
      (fmul (waveFormula par (c.p1 + increment g par.freq1)) (waveFormula par (oscFormulas g par c).p2)) := by
  simp only [oscFormulas, paStep_new]

/-- Settles O44: the sample of the substep is the mix of its values, which R382 to R388 write out. -/
theorem plainTickAtBaseRate : Obligations.PlainTickAtBaseRate := by
  intro b m s l hosr hl hwf
  obtain ⟨t, x, hexec, ⟨hres, hx⟩, hchan⟩ := oscTick_one_substep b m .plain hosr hl hwf
  refine ⟨t, hexec, ?_⟩
  rw [hres, hchan, hx, oscFormulas_lin, oscFormulas_ring, oscFormulas_p2 hosr, oscFormulas_synced, oscFormulas_d1,
    oscFormulas_inc2 hosr]
  exact ⟨rfl, rfl⟩

/-! ## The corrections of one substep -/

/-- Insertions neither read nor write the phases. -/
theorem insertEvents_phases (events : List (BlepKind × Option F32 × F32)) (c : Channel) (p1 ps p2 : Word) :
    insertEvents events { c with p1 := p1, ps := ps, p2 := p2 }
      = { insertEvents events c with p1 := p1, ps := ps, p2 := p2 } := by
  induction events generalizing c with
  | nil => rfl
  | cons event rest ih =>
    obtain ⟨kind, _ | d, a⟩ := event
    · cases kind <;> exact ih c
    · cases kind <;> simp only [insertEvents] <;> rw [← ih]

/-- Insertions write C0 and C1 alone. -/
theorem Channel.SameButCorrections.insertEvents {a c : Channel} (h : a.SameButCorrections c)
    (events : List (BlepKind × Option F32 × F32)) : a.SameButCorrections (insertEvents events c) := by
  induction events generalizing c with
  | nil => exact h
  | cons event rest ih =>
    obtain ⟨kind, e, v⟩ := event
    cases kind with
    | blep =>
      rw [insertEvents_blep]
      exact ih (h.insBlep e v)
    | blamp =>
      rw [insertEvents_blamp]
      exact ih (h.insBlamp e v)

/-- The corrected substep of R390 with its events inserted in the lane as it was before the phases moved. -/
theorem OscSubstep.of_corr {g : Globals} {par : Params} {c x : Channel} {y : F32} (h : OscSubstep g par .corr c x y) :
    let v := oscFormulas g par c
    let ci := insertEvents (substepEvents g par v c.p2) c
    y = fadd (fadd c.dly ci.c0) c.rdly
      ∧ x = { ci with p1 := v.st1.new, ps := v.sts.new, p2 := v.p2
                      c0 := ci.c1, c1 := 0, dly := v.lin, rdly := v.ring } := by
  obtain ⟨hy, hx⟩ := h
  intro v ci
  have hframe : c.SameButCorrections ci := (Channel.SameButCorrections.rfl' c).insertEvents _
  rw [insertEvents_phases] at hy hx
  rw [← hframe.dly, ← hframe.rdly]
  exact ⟨hy, hx⟩

/-- Settles O45: the statement's events, on the values of the tick, are those of the corrected substep. -/
theorem correctedTickAtBaseRate : Obligations.CorrectedTickAtBaseRate := by
  intro b m s l hosr hl hwf
  obtain ⟨t, x, hexec, hsubstep, hchan⟩ := oscTick_one_substep b m .corr hosr hl hwf
  obtain ⟨hres, hx⟩ := hsubstep.of_corr
  refine ⟨t, hexec, ?_⟩
  intro c v w oscEv subEv pe lastEv ci
  have hw : w = oscFormulas s.glob c.par c := values_eq s.glob c.par c
  have hdlt : v.dlt = deltaFormula c.par := pulseDelta_eq c.par
  have hwave : v.wave = waveFormula c.par := funext (wave_eq s.glob c.par)
  have hosc : oscEv = oscEvents c.par := by
    funext st inc vol
    simp only [oscEv, hdlt]
    rfl
  have hpe : pe = c.p2 + BitVec.ofInt 32 (f2uSat (fmul (fsub 0x3F800000 w.d1) (i2f w.inc2.toNat)) 0
      (incMaxFormula s.glob)) := by
    rw [incMaxFormula_zero hosr]
  have hevents : oscEv w.st1 v.inc1 v.v1 ++ subEv ++ lastEv = substepEvents s.glob c.par w c.p2 := by
    simp only [lastEv, hosc, hpe, hwave]
    rfl
  have hci : ci = insertEvents (substepEvents s.glob c.par w c.p2) c := by rw [← hevents]
  rw [← hw] at hres hx
  rw [hchan, hx, hci]
  exact ⟨hres, rfl, rfl, rfl, rfl, rfl, rfl, rfl⟩

end Sys2Proof.Machine
end

section
/-! PROOFS. The filter engine (46_ode_filter.md R430 to R443, R450): the derivative and the methods entry by entry, the
output taps, one tick of a lane from the frame and the formulas of its substeps, and the tick of one Euler substep at
L = 0 written out. -/

namespace Sys2Proof.Machine

/-! ## The derivative and the substeps of the methods (R434 to R439) -/

theorem entry_eq_getElem (x : OdeVec) {i : ℕ} (hi : i < 4) : entry x i = x[i] := by
  rw [entry, List.getD_eq_getElem _ _ (by simpa using hi), Vector.getElem_toList]

/-- D(y, u)[i] of R434, for a stage i of the topology. -/
def FltTick.slope (t : FltTick) (y : OdeVec) (u : F32) (i : Fin 4) : F32 :=
  fmul t.w (fsub
    (satFormula (if i.val = 0 then fsub u (fmul t.kf (entry y (t.n - 1))) else entry y (i.val - 1)))
    (satFormula y[i.val]))

section Stages

variable {t : FltTick} {x y : OdeVec} {u : F32} {i : Fin 4}

/-- Entry i of a rewritten vector, with a formula that holds for the stages of the topology. -/
theorem FltTick.getElem_update_of_stage {f : ℕ → F32} {v : F32} (h : i.val < t.n → f i.val = v) :
    (t.update x f)[i.val] = if i.val < t.n then v else x[i.val] := by
  rw [getElem_update]
  split
  · next hi => exact h hi
  · rfl

/-- D is `slope` on the stages of the topology. -/
theorem FltTick.entry_deriv (hi : i.val < t.n) : entry (t.deriv y u) i.val = t.slope y u i := by
  rw [entry_eq_getElem _ i.isLt, FltTick.deriv, getElem_update, if_pos hi, FltTick.slope, apply_ite satFormula,
    entry_eq_getElem y i.isLt]
  rfl

/-- A whole step along the derivative: Euler's, the last of RK2, and the way to the fourth slope of RK4. -/
theorem FltTick.getElem_wholeStep :
    (t.update x fun j => fadd (entry x j) (entry (t.deriv y u) j))[i.val]
      = if i.val < t.n then fadd x[i.val] (t.slope y u i) else x[i.val] :=
  getElem_update_of_stage fun hi => by rw [entry_eq_getElem x i.isLt, entry_deriv hi]

theorem FltTick.getElem_halfStep :
    (t.halfStep x (t.deriv y u))[i.val]
      = if i.val < t.n then fadd x[i.val] (fmul 0x3F000000 (t.slope y u i)) else x[i.val] :=
  getElem_update_of_stage fun hi => by
    rw [entry_eq_getElem x i.isLt, entry_deriv hi]
    rfl

/-- The last step of RK4, from the vectors and inputs at which its four slopes are taken. -/
theorem FltTick.getElem_rk4Step {y₁ y₂ y₃ y₄ : OdeVec} {u₁ u₂ u₃ u₄ : F32} :
    (t.update x fun j => fadd (entry x j) (rk4Sum (entry (t.deriv y₁ u₁) j) (entry (t.deriv y₂ u₂) j)
        (entry (t.deriv y₃ u₃) j) (entry (t.deriv y₄ u₄) j)))[i.val]
      = if i.val < t.n then
          fadd x[i.val] (fdiv (fadd (fadd (fadd (t.slope y₁ u₁ i) (fmul 0x40000000 (t.slope y₂ u₂ i)))
            (fmul 0x40000000 (t.slope y₃ u₃ i))) (t.slope y₄ u₄ i)) 0x40C00000)
        else x[i.val] :=
  getElem_update_of_stage fun hi => by
    rw [entry_eq_getElem x i.isLt, entry_deriv hi, entry_deriv hi, entry_deriv hi, entry_deriv hi]
    rfl

end Stages

/-- Settles O46: D is `slope`, and the intermediate vectors are those the methods compute. -/
theorem ladderMethods : Obligations.LadderMethods := by
  intro t k x _ _ D inp u0 um u1
  let xa := t.halfStep x (t.deriv x u0)
  let xb := t.halfStep x (t.deriv xa um)
  let xc := t.update x fun i => fadd (entry x i) (entry (t.deriv xb um) i)
  refine ⟨fun i => FltTick.getElem_wholeStep, ⟨xa, fun i hi => ?_, fun i => FltTick.getElem_wholeStep⟩,
    xa, xb, xc, fun i hi => ?_, fun i hi => ?_, fun i hi => ?_, fun i => FltTick.getElem_rk4Step⟩
  · exact FltTick.getElem_halfStep.trans (if_pos hi)
  · exact FltTick.getElem_halfStep.trans (if_pos hi)
  · exact FltTick.getElem_halfStep.trans (if_pos hi)
  · exact FltTick.getElem_wholeStep.trans (if_pos hi)

/-! ## Output taps (R440) -/

section Taps

variable {t : FltTick} (x : OdeVec) (a : F32)

theorem FltTick.output_of_lp (h : t.tap = .lp) : t.output x a = entry x (t.n - 1) := by
  rw [FltTick.output, h]

theorem FltTick.output_of_hp (h : t.tap = .hp) :
    t.output x a =
      if t.n = 1 then fsub a x[0]
      else if t.n = 2 then fadd (fsub a (fmul 0x40000000 x[0])) x[1]
      else fadd (fsub (fadd (fsub a (fmul 0x40800000 x[0])) (fmul 0x40C00000 x[1])) (fmul 0x40800000 x[2])) x[3] := by
  simp only [FltTick.output, h, entry_eq_getElem, Nat.reduceLT]
  rfl

theorem FltTick.output_of_bp (h : t.tap = .bp) :
    t.output x a = if t.n = 2 then fsub x[0] x[1] else fadd (fsub x[1] (fmul 0x40000000 x[2])) x[3] := by
  simp only [FltTick.output, h, entry_eq_getElem, Nat.reduceLT]
  rfl

end Taps

/-- Settles O47: each cell of R440's table is the branch of its tap that the number of stages takes. -/
theorem outputTaps : Obligations.OutputTaps := by
  intro t x a
  have hlp {n : ℕ} (hn : n < 4) (h : t.n = n + 1) (htap : t.tap = .lp) : t.output x a = x[n] := by
    rw [FltTick.output_of_lp x a htap, h]
    exact entry_eq_getElem x hn
  refine ⟨hlp (by decide), fun hn htap => ?_, hlp (by decide), fun hn htap => ?_, fun hn htap => ?_, hlp (by decide),
    fun hn htap => ?_, fun hn htap => ?_⟩
  · simp [FltTick.output_of_hp x a htap, hn]
  · simp [FltTick.output_of_hp x a htap, hn]
  · simp [FltTick.output_of_bp x a htap, hn]
  · simp [FltTick.output_of_hp x a htap, hn]
  · simp [FltTick.output_of_bp x a htap, hn]

/-! ## One tick of a lane (R442, R450) -/

/-- A lane that keeps the oscillator's side and PREV differs in X, XP and the FLT decimator at most. -/
theorem Channel.OscSideKept.eq {c c' : Channel} (h : c.OscSideKept c') :
    c' = { c with x := c'.x, xp := c'.xp, flt := c'.flt } := by
  rw [← h.par, ← h.p1, ← h.p2, ← h.ps, ← h.c0, ← h.c1, ← h.dly, ← h.rdly, ← h.prev, ← h.osc]

/-- FLT_TICK whose check passes. -/
theorem exec_fltTick_of_check {b : Batch} {m : LaneMask} (meth : OdeMethod) {s : State}
    (h : ∀ l : Lane, laneBit m l = true → ¬ ((s.channel b l).par.tap = 2 ∧ (s.channel b l).par.topo = 0)) :
    exec (.fltTick b m meth) s = .next (s.forLanes b m fun l =>
      fltTickLane s.cfg s.glob meth (sanitize (s.opaOf l)) (s.channel b l)).complete := by
  refine if_neg fun hany => ?_
  obtain ⟨l, hl, hbad⟩ := (anyLane_eq_true _ _).1 hany
  exact h l hl (by simpa [Params.bandpassOnOnePole] using hbad)

theorem Params.poles_of_onePole {p : Params} (h : p.topo = 0) : p.poles = 1 := if_pos h

theorem Params.poles_le_two {p : Params} (h : p.topo = 0 ∨ p.topo = 1) : p.poles ≤ 2 := by
  rcases h with h | h <;> simp [Params.poles, h]

/-- Settles O48: the frame of a tick is that of its run of substeps, each substep is that of the formulas, and the cascade,
which keeps IN, ends the tick. -/
theorem fltTickAdvancesLanes : Obligations.FltTickAdvancesLanes := by
  refine fun b m meth s hcheck => ⟨_, exec_fltTick_of_check meth hcheck, s.onlyLanes_forLanes b m _,
    s.statusOk_forLanes b m _ (fun _ => rfl) (fun _ => rfl), fun l hl => ?_⟩
  rw [s.channel_selected b m _ l hl, s.resOf_selected b m _ l hl]
  generalize s.channel b l = c
  generalize sanitize (s.opaOf l) = cur
  obtain ⟨hkept, hxp, hx, hstages, hin⟩ := (fltTickValues s.glob c cur).fold_spec meth s.glob.substeps c
  obtain ⟨x, y, hstart, hend, hsteps, hsamples⟩ := (fltTickValues s.glob c cur).fold_formula meth s.glob.substeps c
  obtain ⟨hresult, hstage⟩ := cascade_over_stages s.cfg s.glob.osr hstages
  have hread := fun k => congrArg (Memory.read · k)
    (cascade_input s.cfg s.glob.osr ((fltTickValues s.glob c cur).run meth s.glob.substeps c).flt)
  have hlane := congrArg (fun u : Channel =>
    { u with prev := cur, flt := (fltTickLane s.cfg s.glob meth cur c).chan.flt }) hkept.eq
  have hendX := congrArg Channel.x hend
  have hendXp := congrArg Channel.xp hend
  refine ⟨hlane, hxp, fun htopo => hx 1 (Params.poles_of_onePole htopo).le, fun htopo => ?_, hresult, hstage,
    fun hwf k hk => (hread k).trans ((hin hwf).2 k hk), x, y, hstart, hendX, hendXp, hsteps,
    fun hwf k hk => (hread k).trans (hsamples hwf k hk)⟩
  have hpoles : (fltTickValues s.glob c cur).n ≤ 2 := Params.poles_le_two htopo
  exact ⟨hx 2 hpoles, hx 3 (hpoles.trans (by decide))⟩

/-! ## The tick of one substep (L = 0) -/

/-- At L = 0 a tick is one substep, and the cascade returns its sample. -/
theorem fltTick_one_substep (b : Batch) (m : LaneMask) (meth : OdeMethod) {s : State} {l : Lane}
    (hosr : s.glob.osrLog2 = 0) (hl : laneBit m l = true)
    (hcheck : ∀ k : Lane, laneBit m k = true → ¬ ((s.channel b k).par.tap = 2 ∧ (s.channel b k).par.topo = 0))
    (hwf : (s.channel b l).flt.input.wf = true) :
    ∃ t x, exec (.fltTick b m meth) s = .next t
      ∧ FltSubstep (fltTickFormulas s.glob (s.channel b l) (sanitize (s.opaOf l))) meth 0 (s.channel b l) x (t.resOf l)
      ∧ (t.channel b l).x = x.x ∧ (t.channel b l).xp = x.xp := by
  obtain ⟨t, hexec, -, -, hlanes⟩ := fltTickAdvancesLanes b m meth s hcheck
  obtain ⟨-, -, -, -, hresult, -, -, x, y, hstart, hendX, hendXp, hsteps, hsamples⟩ := hlanes l hl
  rw [hosr] at hresult hendX hendXp hsteps hsamples
  have hres : t.resOf l = y 0 := (congrArg Prod.fst (hresult.trans (cascade_zero _ _))).trans (hsamples hwf 0 one_pos)
  refine ⟨t, x 1, hexec, ?_, hendX, hendXp⟩
  rw [hres]
  simpa only [hstart] using hsteps 0 one_pos

/-- The time of the start of the one substep is 0. -/
theorem substepTime_zero : fmul (i2f (0 : ℕ)) (fPow2 (-((0 : ℕ) : ℤ))) = 0x00000000 := by decide +kernel

/-- The time of the end of the one substep is 1. -/
theorem substepTime_one : fmul (i2f (0 + 1 : ℕ)) (fPow2 (-((0 : ℕ) : ℤ))) = 0x3F800000 := by decide +kernel

theorem fPow2_zero : fPow2 (-((0 : ℕ) : ℤ)) = 0x3F800000 := by decide +kernel

theorem FltTick.slope_onePole {t : FltTick} (hn : t.n = 1) (x : OdeVec) (u : F32) :
    t.slope x u 0 = fmul t.w (fsub (satFormula (fsub u (fmul t.kf x[0]))) (satFormula x[0])) := by
  rw [FltTick.slope, hn, entry_eq_getElem x (by decide : 1 - 1 < 4)]
  rfl

/-- Forward Euler (R436) of a 1-pole at L = 0. -/
theorem FltTick.euler_onePole {t : FltTick} (hn : t.n = 1) (hL : t.l = 0) (x : OdeVec) :
    (t.integrate .euler 0 x)[0] = fadd x[0] (fmul t.w (fsub
      (satFormula (fsub (inputAt t.prev t.cur 0x00000000) (fmul t.kf x[0]))) (satFormula x[0]))) := by
  have hstart : t.inp (t.t0 0) = inputAt t.prev t.cur 0x00000000 := by
    rw [FltTick.t0, hL, substepTime_zero]
    rfl
  have hstep : (t.integrate .euler 0 x)[0] = fadd x[0] (t.slope x (t.inp (t.t0 0)) 0) :=
    (FltTick.getElem_wholeStep (i := 0)).trans (if_pos (hn.symm ▸ one_pos))
  rw [hstep, hstart, FltTick.slope_onePole hn]

/-- LP or HP of a 1-pole (R440), by the TAP parameter. -/
theorem fltTickFormulas_output_onePole (g : Globals) {c : Channel} (cur : F32) (x : OdeVec) (a : F32)
    (htopo : c.par.topo = 0) (htap : c.par.tap = 0 ∨ c.par.tap = 1) :
    (fltTickFormulas g c cur).output x a = if c.par.tap = 0 then x[0] else fsub a x[0] := by
  have hn : (fltTickFormulas g c cur).n = 1 := if_pos htopo
  obtain ⟨hlp, hhp, -⟩ := outputTaps (fltTickFormulas g c cur) x a
  rcases htap with h | h
  · rw [hlp hn (if_pos h), if_pos h]
  · rw [hhp hn (by simp [fltTickFormulas, h]), if_neg (by simp [h])]

/-- w of R433 at L = 0. -/
theorem fltTickFormulas_w {g : Globals} (hosr : g.osrLog2 = 0) (c : Channel) (cur : F32) :
    (fltTickFormulas g c cur).w = fclamp (fmul (fdiv (fmul 0x40C90FDB (fclamp c.par.cutoff 0x00000000 0x4B800000))
      (fclamp g.fs 0x3F800000 0x4B800000)) 0x3F800000) 0x00000000 0x3F800000 := by
  rw [← fPow2_zero, fltTickFormulas, hosr]
  rfl

/-- Settles O49: X[0] is moved by Euler's step on a 1-pole, the tap is the parameter's, and SATEN says whether the saturator
shapes the sample. -/
theorem eulerTickAtBaseRate : Obligations.EulerTickAtBaseRate := by
  intro b m s l hosr hl hcheck htopo htap hwf
  obtain ⟨t, x', hexec, ⟨hres, hx'⟩, hstate, hxp⟩ := fltTick_one_substep b m .euler hosr hl hcheck hwf
  refine ⟨t, hexec, ?_⟩
  intro c w kf inp x tap
  let f := fltTickFormulas s.glob c (sanitize (s.opaOf l))
  let v := f.integrate .euler 0 c.x
  have hn : f.n = 1 := if_pos htopo
  have hL : f.l = 0 := congrArg BitVec.toNat hosr
  have hv : v[0] = x := by
    rw [FltTick.euler_onePole hn hL, fltTickFormulas_w hosr]
    rfl
  have hout : f.output v (fsub (inputAt f.prev f.cur (fmul (i2f (0 + 1 : ℕ)) (fPow2 (-(f.l : ℤ)))))
      (fmul f.kf (entry v (f.n - 1)))) = tap := by
    rw [fltTickFormulas_output_onePole s.glob _ v _ htopo htap, hn, hL, substepTime_one,
      entry_eq_getElem v (by decide : 1 - 1 < 4), hv]
    rfl
  have hsample : t.resOf l = if c.par.saten.getLsbD 0 then adaaFormula c.xp tap else tap := hout ▸ hres
  have hstored : (t.channel b l).xp = if c.par.saten.getLsbD 0 then tap else c.xp :=
    hxp.trans ((congrArg Channel.xp hx').trans (hout ▸ rfl))
  refine ⟨?_, fun hsat => ?_, fun hsat => ?_⟩
  · rw [hstate, hx']
    exact hv
  · rw [hsample, hstored, hsat]
    exact ⟨rfl, rfl⟩
  · rw [hsample, hstored, hsat]
    exact ⟨rfl, rfl⟩

end Sys2Proof.Machine
end

section
/-! PROOFS. Steps and rejections (60_exceptions.md R482 to R488, R495): the idle step, the totality of the step, and the
frame of a rejected command word. -/

namespace Sys2Proof.Machine

/-- Settles O11: with no access to serve, the step is the idle one. -/
theorem idleStepKeepsState : Obligations.IdleStepKeepsState := by
  intro s hbus
  simp only [step, serveNext, hbus]

/-- A bad encoding, field or value rejects the word, and nothing stops the machine (R487, R488). -/
theorem executeCommand_total (w : Word) (s : State) : ∃ t, executeCommand w s = .next t := by
  obtain ⟨t, ht, -⟩ := executeCommand_cases w s
  exact ⟨t, ht⟩

/-- Settles O12: an idle step, a register access and a bad access name the next state themselves, and a write of CMD ends as
its command word does. -/
theorem everyStepAnswersNext : Obligations.EveryStepAnswersNext := by
  intro s
  rcases step_cases s with
    ⟨-, hidle⟩ | ⟨a, rest, -, ⟨v, hread⟩ | ⟨l, v, hopa⟩ | ⟨l, v, hopb⟩ | ⟨w, hcmd⟩ | ⟨r, hbad⟩⟩
  · exact ⟨_, hidle⟩
  · exact ⟨_, hread⟩
  · exact ⟨_, hopa⟩
  · exact ⟨_, hopb⟩
  · rw [hcmd]
    exact executeCommand_total w _
  · exact ⟨_, hbad⟩

/-- The state after a command word: its command has completed, or the word is rejected and only STATUS.ERR is written. -/
theorem executeCommand_inversion {w : Word} {s t : State} (h : executeCommand w s = .next t) :
    t.status.err = 0 ∨ ∃ e : ErrorCode, t = s.withErr e.code := by
  obtain ⟨u, hu, hends⟩ := executeCommand_cases w s
  obtain rfl : t = u := Host.Outcome.next.inj (h.symm.trans hu)
  exact hends

/-- Settles O13: a word that leaves an error code has not completed, so it was rejected with that code. -/
theorem rejectionChangesOnlyErr : Obligations.RejectionChangesOnlyErr := by
  intro w s t h herr
  obtain hcompleted | ⟨e, rfl⟩ := executeCommand_inversion h
  · exact absurd hcompleted herr
  · rfl

end Sys2Proof.Machine
end
